-- ==== Sys2Proof/Word.lean ====
section
/-! DEFINITION. The word, byte and counter types of the machine (spec/00_scope.md R7 and R10) and the
index types of its register files. -/

namespace Sys2Proof

/-- A general register, an address, an instruction word, a paired-single lane or a pixel: 32 bits. -/
abbrev Word := BitVec 32

/-- One byte of the physical buffer. -/
abbrev Byte := BitVec 8

/-- `cycleCount`: 64 bits (R7, R33). -/
abbrev Count := BitVec 64

/-- The number of a general or paired-single register, or of a CR bit: a 5-bit field (R71). -/
abbrev Idx5 := Fin 32

/-- The number of a CR field: a 3-bit field (R71). -/
abbrev CrField := Fin 8

/-- The number of a special register (R24). -/
abbrev SprIdx := Fin 1024

end Sys2Proof
end

