-- ==== Sys2Proof/Syntax.lean ====
section
/-! DEFINITION. The instructions: one constructor per row of spec/opcode_table.json, with the fields
spec/30_encoding.md R83 decodes. -/

namespace Sys2Proof

/-- The twenty instructions. A register or CR-bit number is an `Idx5`; 16-bit immediates are kept as the
bits of the word and extended where they are used (R73, R74); a branch displacement is the sign-extended
32-bit value of R75, whose range and alignment `Instr.wf` checks. Ignored bits (R84) are not fields. -/
inductive Instr where
  /-- `addi rD, rA, SIMM` (R100) -/
  | addi  (rD rA : Idx5) (simm : BitVec 16)
  /-- `addis rD, rA, SIMM` (R101) -/
  | addis (rD rA : Idx5) (simm : BitVec 16)
  /-- `add rD, rA, rB` (R102) -/
  | add   (rD rA rB : Idx5)
  /-- `subf rD, rA, rB` (R103) -/
  | subf  (rD rA rB : Idx5)
  /-- `mullw rD, rA, rB` (R104) -/
  | mullw (rD rA rB : Idx5)
  /-- `andi rA, rS, UIMM` (R105) -/
  | andi  (rS rA : Idx5) (uimm : BitVec 16)
  /-- `ori rA, rS, UIMM` (R106) -/
  | ori   (rS rA : Idx5) (uimm : BitVec 16)
  /-- `cmp crfD, L, rA, rB` (R107); L is ignored -/
  | cmp   (crfD : CrField) (rA rB : Idx5)
  /-- `b`, `ba`, `bl`, `bla` (R116) -/
  | b     (disp : Word) (aa lk : Bool)
  /-- `bc`, `bca`, `bcl`, `bcla` (R119) -/
  | bc    (bo : BitVec 5) (bi : Idx5) (disp : Word) (aa lk : Bool)
  /-- `lwz rD, d(rA)` (R126) -/
  | lwz   (rD rA : Idx5) (d : BitVec 16)
  /-- `stw rS, d(rA)` (R127) -/
  | stw   (rS rA : Idx5) (d : BitVec 16)
  /-- `ps_add frD, frA, frB` (R134) -/
  | psAdd (frD frA frB : Idx5)
  /-- `ps_sub frD, frA, frB` (R135) -/
  | psSub (frD frA frB : Idx5)
  /-- `ps_mul frD, frA, frC` (R136) -/
  | psMul (frD frA frC : Idx5)
  /-- `sc` (R140) -/
  | sc
  /-- `rfi` (R141) -/
  | rfi
  /-- `sync` (R142) -/
  | sync
  /-- `isync` (R143) -/
  | isync
  /-- `eieio` (R144) -/
  | eieio
  deriving DecidableEq, Repr

end Sys2Proof
end

