-- ==== Sys2Proof/WellFormed.lean ====
section
/-! DEFINITION. Which instruction terms some word encodes. Register numbers, CR fields and immediates are
bounded by their types; what is left to check is a branch displacement (spec/30_encoding.md R75). -/

namespace Sys2Proof

/-- A multiple of 4 ("word-aligned displacement", R75). -/
def dispAligned (disp : Word) : Bool := disp.toNat % 4 == 0

/-- The range of the unconditional branch displacement, −2^25 to 2^25 − 4 (R75). -/
def liInRange (disp : Word) : Bool := decide (-(2 ^ 25 : Int) ≤ disp.toInt ∧ disp.toInt ≤ 2 ^ 25 - 4)

/-- The range of the conditional branch displacement, −2^15 to 2^15 − 4 (R75). -/
def bdInRange (disp : Word) : Bool := decide (-(2 ^ 15 : Int) ≤ disp.toInt ∧ disp.toInt ≤ 2 ^ 15 - 4)

/-- The instructions the encoding can hold. -/
def Instr.wf : Instr → Bool
  | .b disp _ _ => dispAligned disp && liInRange disp
  | .bc _ _ disp _ _ => dispAligned disp && bdInRange disp
  | .addi _ _ _ => true
  | .addis _ _ _ => true
  | .add _ _ _ => true
  | .subf _ _ _ => true
  | .mullw _ _ _ => true
  | .andi _ _ _ => true
  | .ori _ _ _ => true
  | .cmp _ _ _ => true
  | .lwz _ _ _ => true
  | .stw _ _ _ => true
  | .psAdd _ _ _ => true
  | .psSub _ _ _ => true
  | .psMul _ _ _ => true
  | .sc => true
  | .rfi => true
  | .sync => true
  | .isync => true
  | .eieio => true

end Sys2Proof
end

