-- ==== Sys2Proof/Decode.lean ====
section
/-! DEFINITION. The decoder of spec/30_encoding.md R83, total on every word, and after it the encoder
written from the formats of R72 and the opcode maps of R79 to R82. -/

namespace Sys2Proof

/-- Why a word is no instruction (R85): its primary opcode is unknown, or the selector under primary 4,
19 or 31 is. -/
inductive Illegal where
  | unknownOpcode
  | unknownExtendedOpcode
  deriving DecidableEq, Repr

/-- The 5-bit field of w whose low bit is bit `lo`. -/
def field5 (w : Word) (lo : Nat) : Idx5 := (w.extractLsb' lo 5).toFin

/-- The primary opcode, `w[31:26]` (R71). -/
def opcd (w : Word) : BitVec 6 := w.extractLsb' 26 6

/-- The secondary selector of primaries 31 and 19, `w[10:1]` (R76, R77). -/
def xo10 (w : Word) : BitVec 10 := w.extractLsb' 1 10

/-- The secondary selector of primary 4, `w[5:1]` (R78). -/
def xo5 (w : Word) : BitVec 5 := w.extractLsb' 1 5

/-- The 16-bit immediate or displacement field, `w[15:0]` (R71). -/
def imm16 (w : Word) : BitVec 16 := w.extractLsb' 0 16

/-- `crfD = w[25:23]` (R71). -/
def crfField (w : Word) : CrField := (w.extractLsb' 23 3).toFin

/-- `LIdisp = sext_26(w[25:2] ‖ 0b00)` (R75). -/
def liDisp (w : Word) : Word := (w.extractLsb' 2 24 ++ 0#2).signExtend 32

/-- `BDdisp = sext_16(w[15:2] ‖ 0b00)` (R75). -/
def bdDisp (w : Word) : Word := (w.extractLsb' 2 14 ++ 0#2).signExtend 32

/-- Primary 31, "the extended class" (R80). -/
def decode31 (w : Word) : Except Illegal Instr :=
  match (xo10 w).toNat with
  | 0   => .ok (.cmp (crfField w) (field5 w 16) (field5 w 11))
  | 40  => .ok (.subf (field5 w 21) (field5 w 16) (field5 w 11))
  | 235 => .ok (.mullw (field5 w 21) (field5 w 16) (field5 w 11))
  | 266 => .ok (.add (field5 w 21) (field5 w 16) (field5 w 11))
  | 598 => .ok .sync
  | 854 => .ok .eieio
  | _   => .error .unknownExtendedOpcode

/-- Primary 19 (R81). -/
def decode19 (w : Word) : Except Illegal Instr :=
  match (xo10 w).toNat with
  | 50  => .ok .rfi
  | 150 => .ok .isync
  | _   => .error .unknownExtendedOpcode

/-- Primary 4 (R82). -/
def decode4 (w : Word) : Except Illegal Instr :=
  match (xo5 w).toNat with
  | 20 => .ok (.psSub (field5 w 21) (field5 w 16) (field5 w 11))
  | 21 => .ok (.psAdd (field5 w 21) (field5 w 16) (field5 w 11))
  | 25 => .ok (.psMul (field5 w 21) (field5 w 16) (field5 w 6))
  | _  => .error .unknownExtendedOpcode

/-- The decoder (R83). It reads nothing but the word, and never looks at an ignored bit (R84). -/
def decode (w : Word) : Except Illegal Instr :=
  match (opcd w).toNat with
  | 4  => decode4 w
  | 14 => .ok (.addi (field5 w 21) (field5 w 16) (imm16 w))
  | 15 => .ok (.addis (field5 w 21) (field5 w 16) (imm16 w))
  | 16 => .ok (.bc (w.extractLsb' 21 5) (field5 w 16) (bdDisp w) (w.getLsbD 1) (w.getLsbD 0))
  | 17 => .ok .sc
  | 18 => .ok (.b (liDisp w) (w.getLsbD 1) (w.getLsbD 0))
  | 19 => decode19 w
  | 24 => .ok (.ori (field5 w 21) (field5 w 16) (imm16 w))
  | 28 => .ok (.andi (field5 w 21) (field5 w 16) (imm16 w))
  | 31 => decode31 w
  | 32 => .ok (.lwz (field5 w 21) (field5 w 16) (imm16 w))
  | 36 => .ok (.stw (field5 w 21) (field5 w 16) (imm16 w))
  | _  => .error .unknownOpcode

/-- Four bytes as one word, the first byte most significant (R70; 20_memory.md R47). -/
def wordOfBytes (b0 b1 b2 b3 : Byte) : Word := b0 ++ b1 ++ b2 ++ b3

/-- Byte k of a word in memory order, k = 0 the most significant (20_memory.md R49). -/
def byteOfWord (v : Word) (k : Nat) : Byte := v.extractLsb' (8 * (3 - k)) 8

/-- What a stream of bytes begins with: an instruction and the bytes after it, an illegal word, or fewer
than four bytes. -/
inductive FromBytes where
  | instr (i : Instr) (rest : List Byte)
  | illegal (why : Illegal)
  | truncated
  deriving DecidableEq, Repr

/-- The decoder on bytes: every instruction is four bytes long (R70). -/
def decodeBytes : List Byte → FromBytes
  | b0 :: b1 :: b2 :: b3 :: rest =>
    match decode (wordOfBytes b0 b1 b2 b3) with
    | .ok i => .instr i rest
    | .error e => .illegal e
  | _ => .truncated

/-- The instruction the decoder reads from the word whose low `nbits` bits are those of `w` (bit 0 the
least significant, as opcode_table.json numbers them) and whose other bits are 0, laid out in memory order
(log entry 16). -/
def decodeTableWord (nbits w : Nat) : Option Instr :=
  let v := BitVec.ofNat 32 (w % 2 ^ nbits)
  match decodeBytes [byteOfWord v 0, byteOfWord v 1, byteOfWord v 2, byteOfWord v 3] with
  | .instr i _ => some i
  | .illegal _ => none
  | .truncated => none

/-! ## The encoder -/

/-- A register number as its 5-bit field. -/
def bits5 (r : Idx5) : BitVec 5 := BitVec.ofFin r

/-- D form: OPCD, two register fields, 16 bits (R72). -/
def encD (op : BitVec 6) (x y : Idx5) (imm : BitVec 16) : Word := op ++ bits5 x ++ bits5 y ++ imm

/-- XO form: OPCD, three register fields, the 10-bit selector, Rc = 0 (R72). -/
def encXO (op : BitVec 6) (x y z : Idx5) (xo : BitVec 10) : Word :=
  op ++ bits5 x ++ bits5 y ++ bits5 z ++ xo ++ 0#1

/-- X and XL forms without operands: ignored bits 0 (R72, R84). -/
def encX (op : BitVec 6) (xo : BitVec 10) : Word := op ++ 0#15 ++ xo ++ 0#1

/-- A form: OPCD, four register fields, the 5-bit selector, Rc = 0 (R72). -/
def encA (x y z t : Idx5) (xo : BitVec 5) : Word :=
  4#6 ++ bits5 x ++ bits5 y ++ bits5 z ++ bits5 t ++ xo ++ 0#1

/-- The word of an instruction, with every ignored bit 0 but for `sc`, whose canonical word is 0x44000002
(R140; log entry 14). -/
def encode : Instr → Word
  | .addi rD rA simm => encD 14 rD rA simm
  | .addis rD rA simm => encD 15 rD rA simm
  | .add rD rA rB => encXO 31 rD rA rB 266
  | .subf rD rA rB => encXO 31 rD rA rB 40
  | .mullw rD rA rB => encXO 31 rD rA rB 235
  | .andi rS rA uimm => encD 28 rS rA uimm
  | .ori rS rA uimm => encD 24 rS rA uimm
  | .cmp crfD rA rB => 31#6 ++ (BitVec.ofFin crfD : BitVec 3) ++ 0#2 ++ bits5 rA ++ bits5 rB ++ 0#10 ++ 0#1
  | .b disp aa lk => 18#6 ++ disp.extractLsb' 2 24 ++ BitVec.ofBool aa ++ BitVec.ofBool lk
  | .bc bo bi disp aa lk =>
    16#6 ++ bo ++ bits5 bi ++ disp.extractLsb' 2 14 ++ BitVec.ofBool aa ++ BitVec.ofBool lk
  | .lwz rD rA d => encD 32 rD rA d
  | .stw rS rA d => encD 36 rS rA d
  | .psAdd frD frA frB => encA frD frA frB 0 21
  | .psSub frD frA frB => encA frD frA frB 0 20
  | .psMul frD frA frC => encA frD frA 0 frC 25
  | .sc => 0x44000002
  | .rfi => encX 19 50
  | .sync => encX 31 598
  | .isync => encX 19 150
  | .eieio => encX 31 854

/-! ## The rows of the opcode table -/

/-- The row of opcode_table.json an instruction belongs to, as mask and match (R79 to R82). -/
def Instr.tableRow : Instr → Word × Word
  | .addi _ _ _ => (0xFC000000, 0x38000000)
  | .addis _ _ _ => (0xFC000000, 0x3C000000)
  | .add _ _ _ => (0xFC0007FE, 0x7C000214)
  | .subf _ _ _ => (0xFC0007FE, 0x7C000050)
  | .mullw _ _ _ => (0xFC0007FE, 0x7C0001D6)
  | .andi _ _ _ => (0xFC000000, 0x70000000)
  | .ori _ _ _ => (0xFC000000, 0x60000000)
  | .cmp _ _ _ => (0xFC0007FE, 0x7C000000)
  | .b _ _ _ => (0xFC000000, 0x48000000)
  | .bc _ _ _ _ _ => (0xFC000000, 0x40000000)
  | .lwz _ _ _ => (0xFC000000, 0x80000000)
  | .stw _ _ _ => (0xFC000000, 0x90000000)
  | .psAdd _ _ _ => (0xFC00003E, 0x1000002A)
  | .psSub _ _ _ => (0xFC00003E, 0x10000028)
  | .psMul _ _ _ => (0xFC00003E, 0x10000032)
  | .sc => (0xFC000000, 0x44000000)
  | .rfi => (0xFC0007FE, 0x4C000064)
  | .sync => (0xFC0007FE, 0x7C0004AC)
  | .isync => (0xFC0007FE, 0x4C00012C)
  | .eieio => (0xFC0007FE, 0x7C0006AC)

/-- The bits of an instruction's word that nothing reads (R84). -/
def Instr.ignoredBits : Instr → Word
  | .addi _ _ _ => 0
  | .addis _ _ _ => 0
  | .add _ _ _ => 0x00000001
  | .subf _ _ _ => 0x00000001
  | .mullw _ _ _ => 0x00000001
  | .andi _ _ _ => 0
  | .ori _ _ _ => 0
  | .cmp _ _ _ => 0x00600001
  | .b _ _ _ => 0
  | .bc _ _ _ _ _ => 0
  | .lwz _ _ _ => 0
  | .stw _ _ _ => 0
  | .psAdd _ _ _ => 0x000007C1
  | .psSub _ _ _ => 0x000007C1
  | .psMul _ _ _ => 0x0000F801
  | .sc => 0x03FFFFFF
  | .rfi => 0x03FFF801
  | .sync => 0x03FFF801
  | .isync => 0x03FFF801
  | .eieio => 0x03FFF801

end Sys2Proof
end

