-- ==== Sys2Proof/Config.lean ====
section
/-! DEFINITION. The implementation parameters of spec/00_scope.md R7 as one record of plain data, the
reference configuration of spec/20_memory.md R63, and the free values the spec leaves open
(spec/93_implementation_defined.md U1 to U3). -/

namespace Sys2Proof

/-- One entry of the region table: addresses from `virtualStart` up to but not including `virtualEnd`
go to `physicalBase` onward (20_memory.md R42, R43). -/
structure Region where
  virtualStart : Nat
  virtualEnd   : Nat
  physicalBase : Nat
  deriving DecidableEq, Repr

/-- The parameters of 00_scope.md R7. They are an argument of the model; which values are admitted is
`Machine.configOk`. NAN_RESULT is `Config.nanDraw` below, and the two host draws are `Config.inputDraw`
and `Config.audioFreeDraw`. -/
structure Config where
  /-- CAPACITY, the size of the byte buffer. -/
  capacity       : Nat
  /-- REGIONS, in priority order. -/
  ram            : Region
  hwreg          : Region
  coproc         : Region
  /-- FB_START and FB_END, the framebuffer window of virtual addresses. -/
  fbStart        : Nat
  fbEnd          : Nat
  fbWidth        : Nat
  fbHeight       : Nat
  inputAddr      : Word
  coprocRegBase  : Word
  syscallIrq     : Word
  coprocIrq      : Word
  /-- VECTORS: interrupt id and handler address. The first entry for an id counts (log entry 13). -/
  vectors        : List (Word × Word)
  defaultHandler : Word
  entryPc        : Word
  deriving DecidableEq, Repr

/-- The region table in the order it is searched (20_memory.md R42). -/
def Config.regions (c : Config) : List Region := [c.ram, c.hwreg, c.coproc]

/-- How many pixels the pixel array has (10_state.md R35). -/
def Config.pixelCount (c : Config) : Nat := c.fbWidth * c.fbHeight

/-- The reference configuration (20_memory.md R63): the spec's own choice, no claim about EMUWII1.0
(DESIGN CHOICE, log entry 2). -/
def Config.reference : Config where
  capacity       := 0x02000000
  ram            := { virtualStart := 0x80000000, virtualEnd := 0x81800000, physicalBase := 0 }
  hwreg          := { virtualStart := 0xCC000000, virtualEnd := 0xCC010000, physicalBase := 0x01800000 }
  coproc         := { virtualStart := 0xCD000000, virtualEnd := 0xCD001000, physicalBase := 0x01810000 }
  fbStart        := 0x81000000
  fbEnd          := 0x8112C000
  fbWidth        := 640
  fbHeight       := 480
  inputAddr      := 0xCC006400
  coprocRegBase  := 0xCD000000
  syscallIrq     := 0
  coprocIrq      := 1
  vectors        := [(0, 0x80000C00), (1, 0x80000500)]
  defaultHandler := 0x80000100
  entryPc        := 0x80000000

/-- The three paired-single operations, the first argument of NAN_RESULT (43_paired_single.md R132). -/
inductive FpOp where
  | add
  | sub
  | mul
  deriving DecidableEq, Repr

/-- The free value behind NAN_RESULT(op, a, b) (43_paired_single.md R132, log entry 8). `Machine.nanResult`
turns it into a NaN pattern, and every NaN pattern can come out. -/
opaque Config.nanDraw : FpOp → Word → Word → Word

/-- The value the input source supplies at the n-th read of INPUT_ADDR, under no law (20_memory.md R48,
log entry 6). -/
opaque Config.inputDraw : Nat → Word

/-- The free space the audio sink reports at the n-th command 5 (60_exceptions.md R172, log entry 7). -/
opaque Config.audioFreeDraw : Nat → Word

end Sys2Proof
end

