-- ==== Sys2Proof/Machine/State.lean ====
section
/-! DEFINITION. The machine's state (spec/10_state.md R15) as plain data, the output events, the two ways a
step can stop, and the state after reset (R39). -/

namespace Sys2Proof.Machine

/-- A paired-single register: two independent 32-bit lanes, kept as bit patterns (R22). -/
structure Lanes where
  ps0 : Word
  ps1 : Word
  deriving DecidableEq, Repr

/-- The bytes of `mem` that are not 0, by physical offset: offsets strictly rising, no byte 0 listed
(`Memory.wf`). What is not listed is 0: reset zeroes the buffer (R39; log entry 4). -/
abbrev Memory := List Host.Cell

/-- The pixels that are not 0, by index, in the same canonical form (R35; log entry 4). -/
abbrev Pixels := List (Nat × Word)

/-- What a byte of the buffer holds that no list entry names (R39, R190). -/
abbrev unlistedByte : Byte := 0

/-- What a pixel holds that no list entry names (R39). -/
abbrev unlistedPixel : Word := 0

/-- The output events of the core (R37; 92_eei_decisions.md D46). Nothing reads them (log entry 5). -/
inductive Event where
  /-- A word access at virtual address `addr` was out of bounds (20_memory.md R59). -/
  | outOfBounds (addr : Word)
  /-- The halt of 60_exceptions.md R151: the word and the pc of the fetch. -/
  | unknownOpcode (word pc : Word)
  /-- The halt of 60_exceptions.md R153: the word and the pc of the fetch. -/
  | unknownExtendedOpcode (word pc : Word)
  /-- The block a command 5 hands to the audio sink (60_exceptions.md R172). -/
  | audioStage (bytes : List Byte)
  deriving DecidableEq, Repr

/-- The state of the whole core. `config` is read-only (log entry 1); `events`, `inputReads` and
`audioPolls` are the model's own (log entries 5 to 7); the coprocessor's five registers are words of `mem`
(R34). -/
structure State where
  /-- The address of the next instruction (R19). -/
  pc                : Word
  /-- The general registers (R16). -/
  gpr               : Vector Word 32
  /-- The paired-single registers (R22). -/
  fpr               : Vector Lanes 32
  /-- The special registers (R24): CR is number 0, LR number 8. -/
  spr               : Vector Word 1024
  /-- True while the interpreter may step (R30). -/
  running           : Bool
  /-- The one interrupt enable (R31). -/
  interruptsEnabled : Bool
  /-- Set by every interrupt taken, cleared by nothing, read by nothing (R32). -/
  kernelMode        : Bool
  /-- One for each executed instruction (R33). -/
  cycleCount        : Count
  /-- The byte buffer behind the virtual addresses (R34). -/
  mem               : Memory
  /-- The pixel array (R35). -/
  pixels            : Pixels
  /-- The parameters of 00_scope.md R7. -/
  config            : Config
  /-- The output events so far, oldest first. -/
  events            : List Event
  /-- How many input values have been supplied; the next is `Config.inputDraw inputReads`. -/
  inputReads        : Nat
  /-- How often the audio sink has been asked; the next answer is `Config.audioFreeDraw audioPolls`. -/
  audioPolls        : Nat
  deriving DecidableEq, Repr

/-- Why the machine stops. -/
inductive Fault where
  /-- Raised by `step` alone, when `running` is false: no step is enabled (30_encoding.md R89, R95; the stuck
  state of 93_implementation_defined.md U12; log entry 9). SAFE: the spec gives no further behaviour. -/
  | halted
  deriving DecidableEq, Repr

/-- Why a step has no meaning. -/
inductive Refusal where
  /-- Raised by an arm of `exec` for an instruction without a meaning; no arm does. SAFE. -/
  | notModelled (mnemonic : String)
  /-- Raised by `step` alone, when the configuration breaks a constraint: "the model rejects the
  configuration; no run is defined" (93_implementation_defined.md U6; log entry 10). SAFE. -/
  | badConfiguration
  deriving DecidableEq, Repr

/-- Reset under a configuration, before an image is loaded: everything 0 except `running`, and pc at
ENTRY_PC (R39; 70_reset_and_hazards.md R190). -/
def State.resetWith (c : Config) : State where
  pc                := c.entryPc
  gpr               := Vector.replicate 32 0
  fpr               := Vector.replicate 32 { ps0 := 0, ps1 := 0 }
  spr               := Vector.replicate 1024 0
  running           := true
  interruptsEnabled := false
  kernelMode        := false
  cycleCount        := 0
  mem               := []
  pixels            := []
  config            := c
  events            := []
  inputReads        := 0
  audioPolls        := 0

/-- The machine right after reset, under the reference configuration (log entry 2) and with the empty boot
image (log entry 3). -/
def State.reset : State := State.resetWith Config.reference

end Sys2Proof.Machine
end

