-- ==== Sys2Proof/Machine/Memory.lean ====
section
/-! DEFINITION. Sparse lists in canonical form, which hold `mem` and `pixels` (spec/10_state.md R34, R35),
and their byte and pixel reads and writes. -/

namespace Sys2Proof.Machine

/-- The value at key `a`, `z` where no entry names it. -/
def cellRead {α : Type} (z : α) : List (Nat × α) → Nat → α
  | [], _ => z
  | (k, v) :: rest, a => if a = k then v else cellRead z rest a

/-- Put `v` at key `a`. An entry that would hold `z` is left out, so a canonical list stays canonical. -/
def cellWrite {α : Type} [DecidableEq α] (z : α) : List (Nat × α) → Nat → α → List (Nat × α)
  | [], a, v => if v = z then [] else [(a, v)]
  | (k, x) :: rest, a, v =>
    if a < k then (if v = z then (k, x) :: rest else (a, v) :: (k, x) :: rest)
    else if a = k then (if v = z then rest else (a, v) :: rest)
    else (k, x) :: cellWrite z rest a v

/-- Keys strictly rising and no entry equal to `z`. -/
abbrev cellsOk {α : Type} [DecidableEq α] (z : α) (l : List (Nat × α)) : Prop :=
  l.Pairwise (fun x y => x.1 < y.1) ∧ ∀ c ∈ l, c.2 ≠ z

/-- Every key is below `n`. -/
abbrev cellsBelow {α : Type} (n : Nat) (l : List (Nat × α)) : Prop := ∀ c ∈ l, c.1 < n

/-- The canonical form of memory. -/
abbrev Memory.wf (m : Memory) : Prop := cellsOk unlistedByte m

/-- The byte at a physical offset. -/
def Memory.read (m : Memory) (p : Nat) : Byte := cellRead unlistedByte m p

/-- Store a byte at a physical offset. -/
def Memory.write (m : Memory) (p : Nat) (v : Byte) : Memory := cellWrite unlistedByte m p v

/-- The canonical form of the pixel array. -/
abbrev Pixels.wf (px : Pixels) : Prop := cellsOk unlistedPixel px

/-- The pixel with an index. -/
def Pixels.read (px : Pixels) (i : Nat) : Word := cellRead unlistedPixel px i

/-- Store a pixel. -/
def Pixels.write (px : Pixels) (i : Nat) (v : Word) : Pixels := cellWrite unlistedPixel px i v

/-- Store bytes at consecutive physical offsets from `p` on. -/
def Memory.writeBytes (m : Memory) (p : Nat) : List Byte → Memory
  | [] => m
  | b :: rest => Memory.writeBytes (m.write p b) (p + 1) rest

end Sys2Proof.Machine
end

