-- ==== Sys2Proof/Machine/Ops.lean ====
section
/-! DEFINITION. The shared operations: the admitted configurations, register and field updates, address
translation, the word read and word write of the AddressSpace, raising an interrupt and returning from one,
and the halt. -/

namespace Sys2Proof.Machine

/-! ## The admitted configurations -/

/-- A region's physical range lies in the buffer: `physicalBase + (virtualEnd − virtualStart) ≤ CAPACITY`
as integers (20_memory.md R44). -/
def regionOk (capacity : Nat) (r : Region) : Bool :=
  decide (r.physicalBase + r.virtualEnd ≤ capacity + r.virtualStart)

/-- A multiple of 4. -/
def wordAligned (a : Word) : Bool := a.toNat % 4 == 0

/-- The constraints of 00_scope.md R7, 20_memory.md R41 and R44, 10_state.md R21
(93_implementation_defined.md U6). -/
def configOk (c : Config) : Bool :=
  (c.capacity == 2 ^ Nat.log2 c.capacity && decide (4 ≤ c.capacity))
  && c.regions.all (regionOk c.capacity)
  && decide (c.fbStart ≤ c.fbEnd)
  && (decide (0 < c.fbWidth) && decide (0 < c.fbHeight))
  && wordAligned c.coprocRegBase
  && (c.syscallIrq != c.coprocIrq)
  && c.vectors.all (fun e => wordAligned e.2)
  && wordAligned c.defaultHandler
  && wordAligned c.entryPc

/-! ## Register and field access -/

/-- `CR = spr[0]` (10_state.md R24). -/
def crIdx : SprIdx := 0

/-- `LR = spr[8]` (10_state.md R24). -/
def lrIdx : SprIdx := 8

/-- Read a general register; none is hard-wired (10_state.md R16). -/
def State.readGpr (s : State) (r : Idx5) : Word := s.gpr.get r

/-- Write a general register. -/
def State.writeGpr (s : State) (r : Idx5) (v : Word) : State := { s with gpr := s.gpr.set r v }

/-- Read both lanes of a paired-single register (10_state.md R22). -/
def State.readFpr (s : State) (r : Idx5) : Lanes := s.fpr.get r

/-- Write both lanes of a paired-single register. -/
def State.writeFpr (s : State) (r : Idx5) (v : Lanes) : State := { s with fpr := s.fpr.set r v }

/-- Read a special register (10_state.md R24). -/
def State.readSpr (s : State) (n : SprIdx) : Word := s.spr.get n

/-- Write a special register. -/
def State.writeSpr (s : State) (n : SprIdx) (v : Word) : State := { s with spr := s.spr.set n v }

/-- The condition register. -/
def State.cr (s : State) : Word := s.readSpr crIdx

/-- The link register. -/
def State.lr (s : State) : Word := s.readSpr lrIdx

/-- Write the condition register. -/
def State.writeCr (s : State) (v : Word) : State := s.writeSpr crIdx v

/-- Write the link register. -/
def State.writeLr (s : State) (v : Word) : State := s.writeSpr lrIdx v

/-- Set the program counter. -/
def State.setPc (s : State) (v : Word) : State := { s with pc := v }

/-- `nextpc = pc + 4`, modulo 2^32 (10_state.md R19). -/
def State.advance (s : State) : State := s.setPc (s.pc + 4)

/-- Set `running`. -/
def State.setRunning (s : State) (v : Bool) : State := { s with running := v }

/-- Set `interruptsEnabled`. -/
def State.setInterrupts (s : State) (v : Bool) : State := { s with interruptsEnabled := v }

/-- Set `kernelMode`. -/
def State.setKernel (s : State) (v : Bool) : State := { s with kernelMode := v }

/-- Count one executed instruction, modulo 2^64 (30_encoding.md R93; 10_state.md R33). -/
def State.count (s : State) : State := { s with cycleCount := s.cycleCount + 1 }

/-- Replace the byte buffer. -/
def State.setMem (s : State) (m : Memory) : State := { s with mem := m }

/-- Replace the pixel array. -/
def State.setPixels (s : State) (px : Pixels) : State := { s with pixels := px }

/-- Emit an output event (10_state.md R37). -/
def State.emit (s : State) (e : Event) : State := { s with events := s.events ++ [e] }

/-- The input source has supplied one more value (20_memory.md R48). -/
def State.countInput (s : State) : State := { s with inputReads := s.inputReads + 1 }

/-- The audio sink has been asked once more (60_exceptions.md R172). -/
def State.countAudio (s : State) : State := { s with audioPolls := s.audioPolls + 1 }

/-- The byte of `mem` at a physical offset. -/
def State.byteAt (s : State) (p : Nat) : Byte := s.mem.read p

/-- The pixel with an index. -/
def State.pixelAt (s : State) (i : Nat) : Word := s.pixels.read i

/-! ## The AddressSpace -/

/-- Whether a virtual address lies inside a region, the end excluded (20_memory.md R42). -/
def regionHolds (r : Region) (addr : Word) : Bool :=
  decide (r.virtualStart ≤ addr.toNat) && decide (addr.toNat < r.virtualEnd)

/-- The physical offset of a virtual address: the first region that holds it, else the masked direct
mapping (20_memory.md R43). -/
def translateAddr (c : Config) (addr : Word) : Nat :=
  match c.regions.find? (fun r => regionHolds r addr) with
  | some r => r.physicalBase + (addr.toNat - r.virtualStart)
  | none => addr.toNat &&& (c.capacity - 1)

/-- Whether the four bytes from physical offset p lie in the buffer, as mathematical integers (20_memory.md
R46). -/
def inBounds (c : Config) (p : Nat) : Bool := decide (p + 4 ≤ c.capacity)

/-- The big-endian word at physical offset p (20_memory.md R47). -/
def Memory.wordAt (m : Memory) (p : Nat) : Word :=
  wordOfBytes (m.read p) (m.read (p + 1)) (m.read (p + 2)) (m.read (p + 3))

/-- Store a word at physical offset p, most significant byte first (20_memory.md R49). -/
def Memory.putWord (m : Memory) (p : Nat) (v : Word) : Memory :=
  m.writeBytes p [byteOfWord v 0, byteOfWord v 1, byteOfWord v 2, byteOfWord v 3]

/-- `MemRead(addr, 4)`: the input register first, then translation, then bounds (20_memory.md R46 to R48). The
state changes only in the model's own fields: the draw is counted, the diagnostic is emitted. -/
def readWord (addr : Word) (s : State) : Word × State :=
  if addr = s.config.inputAddr then (Config.inputDraw s.inputReads, s.countInput)
  else if inBounds s.config (translateAddr s.config addr) then (s.mem.wordAt (translateAddr s.config addr), s)
  else (0, s.emit (.outOfBounds addr))

/-- The pixel a write to virtual address addr mirrors into, where there is one (20_memory.md R50). -/
def pixelIndex (c : Config) (addr : Word) : Option Nat :=
  if c.fbStart ≤ addr.toNat ∧ addr.toNat < c.fbEnd ∧ (addr.toNat - c.fbStart) / 4 < c.pixelCount then
    some ((addr.toNat - c.fbStart) / 4)
  else none

/-- The framebuffer mirror of a completed write (20_memory.md R50). -/
def mirrorPixel (addr v : Word) (s : State) : State :=
  match pixelIndex s.config addr with
  | some i => s.setPixels (s.pixels.write i v)
  | none => s

/-- `MemWrite(addr, 4, v)`: the four bytes and then the framebuffer mirror, or nothing at all out of bounds
(20_memory.md R49, R50). -/
def writeWord (addr v : Word) (s : State) : State :=
  if inBounds s.config (translateAddr s.config addr) then
    mirrorPixel addr v (s.setMem (s.mem.putWord (translateAddr s.config addr) v))
  else s.emit (.outOfBounds addr)

/-! ## The InterruptController and the halt -/

/-- `vectorFor(id)`: the table's handler, else DEFAULT_HANDLER (60_exceptions.md R155). -/
def vectorFor (c : Config) (id : Word) : Word :=
  match c.vectors.find? (fun e => e.1 == id) with
  | some e => e.2
  | none => c.defaultHandler

/-- `raise Interrupt(id)`: lost while interrupts are disabled; else LR takes the pc, the pc the handler's
address, interrupts go off and kernel mode on, in this order (60_exceptions.md R156, R157). -/
def raise (id : Word) (s : State) : State :=
  if s.interruptsEnabled then
    (((s.writeLr s.pc).setPc (vectorFor s.config id)).setInterrupts false).setKernel true
  else s

/-- Return from interrupt: `pc <- LR`, interrupts on, nothing else (60_exceptions.md R161). -/
def returnFromInterrupt (s : State) : State := (s.setInterrupts true).setPc s.lr

/-- The diagnostic of a halt (60_exceptions.md R151, R153). -/
def haltEvent (why : Illegal) (word pc : Word) : Event :=
  match why with
  | .unknownOpcode => .unknownOpcode word pc
  | .unknownExtendedOpcode => .unknownExtendedOpcode word pc

/-- `halt Reason(word, pc)`: `running <- false` and the diagnostic, nothing else (60_exceptions.md R152). -/
def halt (why : Illegal) (word : Word) (s : State) : State :=
  (s.setRunning false).emit (haltEvent why word s.pc)

end Sys2Proof.Machine
end

