-- ==== Sys2Proof/Machine/Coprocessor.lean ====
section
/-! DEFINITION. The coprocessor command sequencer (spec/60_exceptions.md R165 to R176): one poll per step, a
whole command inside it. -/

namespace Sys2Proof.Machine

/-- The five coprocessor registers in the order of their offsets (20_memory.md R64). -/
inductive CoprocReg where
  | command
  | response
  | paramAddr
  | resultAddr
  | status
  deriving DecidableEq, Repr

/-- A register's offset from COPROC_REG_BASE (20_memory.md R64). -/
def coprocOffset : CoprocReg → Word
  | .command => 0
  | .response => 4
  | .paramAddr => 8
  | .resultAddr => 12
  | .status => 16

/-- The virtual address of a coprocessor register. -/
def coprocAddr (c : Config) (r : CoprocReg) : Word := c.coprocRegBase + coprocOffset r

/-- Read a coprocessor register through the AddressSpace. -/
def readCoproc (r : CoprocReg) (s : State) : Word × State := readWord (coprocAddr s.config r) s

/-- Write a coprocessor register through the AddressSpace. -/
def writeCoproc (r : CoprocReg) (v : Word) (s : State) : State := writeWord (coprocAddr s.config r) v s

/-- Copy n words in ascending order, each a read of the source followed by a write of the destination
(R170). -/
def copyWords : Nat → Word → Word → State → State
  | 0, _, _, s => s
  | n + 1, src, dst, s =>
    copyWords n (src + 4) (dst + 4) (writeWord dst (readWord src s).1 (readWord src s).2)

/-- `dmaCopy(pa)`: three parameter words, then `floor(size / 4)` words copied (R170). -/
def dmaCopy (pa : Word) (s : State) : State :=
  let (src, s1) := readWord pa s
  let (dst, s2) := readWord (pa + 4) s1
  let (size, s3) := readWord (pa + 8) s2
  copyWords (size.toNat / 4) src dst s3

/-- The four bytes of a word in memory order. -/
def bytesOfWord (v : Word) : List Byte := [byteOfWord v 0, byteOfWord v 1, byteOfWord v 2, byteOfWord v 3]

/-- Read n words in ascending order as one byte sequence (R172). -/
def readBytes : Nat → Word → State → List Byte × State
  | 0, _, s => ([], s)
  | n + 1, addr, s =>
    let (v, s1) := readWord addr s
    let (rest, s2) := readBytes n (addr + 4) s1
    (bytesOfWord v ++ rest, s2)

/-- Read `ceil(bufferSize / 4)` words and stage the first `bufferSize` bytes (R172). -/
def stageAudio (bufferAddr bufferSize : Word) (s : State) : State :=
  let (bytes, s1) := readBytes ((bufferSize.toNat + 3) / 4) bufferAddr s
  s1.emit (.audioStage (bytes.take bufferSize.toNat))

/-- Commands 1 and 2: success, nothing else (R168, R169). -/
def commandTrivial (s : State) : State := writeCoproc .response 0 s

/-- Commands 3 and 4: the copy, then success (R170, R171). -/
def commandCopy (s : State) : State :=
  let (pa, s1) := readCoproc .paramAddr s
  writeCoproc .response 0 (dmaCopy pa s1)

/-- The answer to a command 5: the block is staged if it fits the free space the audio sink reports, a host
draw made once (R172; log entry 7). -/
def audioReply (bufferAddr bufferSize : Word) (s : State) : State :=
  if bufferSize.toNat ≤ (Config.audioFreeDraw s.audioPolls).toNat then
    writeCoproc .response 0 (stageAudio bufferAddr bufferSize s.countAudio)
  else writeCoproc .response 1 s.countAudio

/-- Command 5: two parameter words, then the answer (R172). -/
def commandAudio (s : State) : State :=
  let (pa, s1) := readCoproc .paramAddr s
  let (bufferAddr, s2) := readWord pa s1
  let (bufferSize, s3) := readWord (pa + 4) s2
  audioReply bufferAddr bufferSize s3

/-- Any other command: the unknown-command error (R173). -/
def commandUnknown (s : State) : State := writeCoproc .response 0xFF s

/-- Handle command c; the whole word is compared (R168 to R173). -/
def handleCommand (c : Word) (s : State) : State :=
  if c = 1 ∨ c = 2 then commandTrivial s
  else if c = 3 ∨ c = 4 then commandCopy s
  else if c = 5 then commandAudio s
  else commandUnknown s

/-- After any command: status 1, command 0, and the interrupt, in this order (R167). -/
def completeCommand (s : State) : State :=
  raise s.config.coprocIrq (writeCoproc .command 0 (writeCoproc .status 1 s))

/-- `coprocessorPoll()` (R166, R174). -/
def coprocessorPoll (s : State) : State :=
  let (c, s1) := readCoproc .command s
  if c = 0 then s1 else completeCommand (handleCommand c s1)

end Sys2Proof.Machine
end

