-- ==== Sys2Proof/Machine/Flags.lean ====
section
/-! DEFINITION. The condition register: the result of a compare, a field's place, the bit a branch tests, and
the branch condition (spec/10_state.md R25, R26; 40_integer.md R107; 41_branch.md R118). -/

namespace Sys2Proof.Machine

/-- The four bits of a compare, LT GT EQ SO from the most significant down, SO always 0 (R107). -/
def compareBits (a b : Word) : BitVec 4 :=
  if a.toInt < b.toInt then 0b1000#4 else if a.toInt > b.toInt then 0b0100#4 else 0b0010#4

/-- `sh = 28 - 4 * crfD`: the place of a CR field's low bit, field 0 most significant (R25, R107). -/
def crShift (crfD : CrField) : Nat := 28 - 4 * crfD.val

/-- Replace one CR field: `(CR & ~(0xF << sh)) | (c << sh)` (R107). -/
def insertCrField (cr : Word) (crfD : CrField) (c : BitVec 4) : Word :=
  (cr &&& ~~~(0xF#32 <<< crShift crfD)) ||| (c.setWidth 32 <<< crShift crfD)

/-- One CR field. -/
def crFieldOf (cr : Word) (n : CrField) : BitVec 4 := cr.extractLsb' (crShift n) 4

/-- CR bit index BI is bit `31 − BI` of `spr[0]` (R25). -/
def crBit (cr : Word) (bi : Idx5) : Bool := cr.getLsbD (31 - bi.val)

/-- BO[4]: always; else BO[3] says which value of the CR bit takes the branch. BO[2:0] are read by nothing
(R118). -/
def branchTaken (bo : BitVec 5) (crbit : Bool) : Bool :=
  if bo.getLsbD 4 then true
  else if bo.getLsbD 3 then crbit
  else !crbit

end Sys2Proof.Machine
end

