-- ==== Sys2Proof/Machine/Operands.lean ====
section
/-! DEFINITION. The operand forms: base registers with 0 read as zero, immediates, effective addresses and
branch targets (spec/10_state.md R17; 30_encoding.md R73 to R75; 41_branch.md R115, R117; 42_load_store.md R125). -/

namespace Sys2Proof.Machine

/-- `(rA|0)`: literal 0 for register 0, else the register (10_state.md R17). -/
def State.baseOrZero (s : State) (rA : Idx5) : Word := if rA = 0 then 0 else s.readGpr rA

/-- A signed 16-bit immediate or displacement (30_encoding.md R73). -/
def signedImm (imm : BitVec 16) : Word := imm.signExtend 32

/-- The immediate of `addis`: `w[15:0] ‖ 0x0000` (30_encoding.md R73). -/
def shiftedImm (imm : BitVec 16) : Word := imm ++ 0#16

/-- An unsigned 16-bit immediate (30_encoding.md R74). -/
def unsignedImm (imm : BitVec 16) : Word := imm.setWidth 32

/-- `EA = (rA|0) + sext_16(d)`, modulo 2^32 (42_load_store.md R125). -/
def State.effectiveAddr (s : State) (rA : Idx5) (d : BitVec 16) : Word := s.baseOrZero rA + signedImm d

/-- The target of `b` and `bc`: absolute and masked to alignment when AA = 1, else relative to the branch's
own address (41_branch.md R115, R117). -/
def branchTarget (pc disp : Word) (aa : Bool) : Word := if aa then disp &&& 0xFFFFFFFC#32 else pc + disp

end Sys2Proof.Machine
end

