-- ==== Sys2Proof/Machine/Branch.lean ====
section
/-! DEFINITION. The branches (spec/41_branch.md R115 to R124). -/

namespace Sys2Proof.Machine

/-- With LK = 1 LR takes `pc + 4`, the branch's own pc (41_branch.md R120). -/
def State.linkIf (s : State) (lk : Bool) : State := if lk then s.writeLr (s.pc + 4) else s

/-- `b`, `ba`, `bl`, `bla` (R116). -/
def execB (disp : Word) (aa lk : Bool) (s : State) : Host.Outcome State Fault Refusal :=
  .next ((s.linkIf lk).setPc (branchTarget s.pc disp aa))

/-- `bc`, `bca`, `bcl`, `bcla`: LR is written whether or not the branch is taken (R119). -/
def execBc (bo : BitVec 5) (bi : Idx5) (disp : Word) (aa lk : Bool) (s : State) :
    Host.Outcome State Fault Refusal :=
  .next ((s.linkIf lk).setPc
    (if branchTaken bo (crBit s.cr bi) then branchTarget s.pc disp aa else s.pc + 4))

end Sys2Proof.Machine
end

