-- ==== Sys2Proof/Machine/Integer.lean ====
section
/-! DEFINITION. Integer arithmetic, logical immediates and compare (spec/40_integer.md R100 to R111). Every one
answers a next state. -/

namespace Sys2Proof.Machine

/-- The shape of every integer result: a register written and `nextpc = pc + 4`. -/
def writeAndAdvance (r : Idx5) (v : Word) (s : State) : Host.Outcome State Fault Refusal :=
  .next (s.writeGpr r v).advance

/-- `gpr[rD] <- (rA|0) + SIMM` (R100). -/
def execAddi (rD rA : Idx5) (simm : BitVec 16) (s : State) : Host.Outcome State Fault Refusal :=
  writeAndAdvance rD (s.baseOrZero rA + signedImm simm) s

/-- `gpr[rD] <- (rA|0) + (SIMM ‖ 0x0000)` (R101). -/
def execAddis (rD rA : Idx5) (simm : BitVec 16) (s : State) : Host.Outcome State Fault Refusal :=
  writeAndAdvance rD (s.baseOrZero rA + shiftedImm simm) s

/-- `gpr[rD] <- gpr[rA] + gpr[rB]` (R102). -/
def execAdd (rD rA rB : Idx5) (s : State) : Host.Outcome State Fault Refusal :=
  writeAndAdvance rD (s.readGpr rA + s.readGpr rB) s

/-- `gpr[rD] <- gpr[rB] - gpr[rA]` (R103). -/
def execSubf (rD rA rB : Idx5) (s : State) : Host.Outcome State Fault Refusal :=
  writeAndAdvance rD (s.readGpr rB - s.readGpr rA) s

/-- `gpr[rD] <- (gpr[rA] * gpr[rB]) mod 2^32` (R104). -/
def execMullw (rD rA rB : Idx5) (s : State) : Host.Outcome State Fault Refusal :=
  writeAndAdvance rD (s.readGpr rA * s.readGpr rB) s

/-- `gpr[rA] <- gpr[rS] & zext_16(UIMM)` (R105). -/
def execAndi (rS rA : Idx5) (uimm : BitVec 16) (s : State) : Host.Outcome State Fault Refusal :=
  writeAndAdvance rA (s.readGpr rS &&& unsignedImm uimm) s

/-- `gpr[rA] <- gpr[rS] | zext_16(UIMM)` (R106). -/
def execOri (rS rA : Idx5) (uimm : BitVec 16) (s : State) : Host.Outcome State Fault Refusal :=
  writeAndAdvance rA (s.readGpr rS ||| unsignedImm uimm) s

/-- The signed comparison of gpr[rA] with gpr[rB] into one CR field (R107). -/
def execCmp (crfD : CrField) (rA rB : Idx5) (s : State) : Host.Outcome State Fault Refusal :=
  .next (s.writeCr (insertCrField s.cr crfD (compareBits (s.readGpr rA) (s.readGpr rB)))).advance

end Sys2Proof.Machine
end

