-- ==== Sys2Proof/Machine/LoadStore.lean ====
section
/-! DEFINITION. Load and store word (spec/42_load_store.md R125 to R129). Neither traps: an out-of-bounds access
reads 0 or is dropped, with a diagnostic (20_memory.md R46, R49). -/

namespace Sys2Proof.Machine

/-- `gpr[rD] <- MemRead(EA, 4)` (R126). -/
def execLwz (rD rA : Idx5) (d : BitVec 16) (s : State) : Host.Outcome State Fault Refusal :=
  .next ((readWord (s.effectiveAddr rA d) s).2.writeGpr rD (readWord (s.effectiveAddr rA d) s).1).advance

/-- `MemWrite(EA, 4, gpr[rS])` (R127). -/
def execStw (rS rA : Idx5) (d : BitVec 16) (s : State) : Host.Outcome State Fault Refusal :=
  .next (writeWord (s.effectiveAddr rA d) (s.readGpr rS) s).advance

end Sys2Proof.Machine
end

