-- ==== Sys2Proof/Machine/Binary32.lean ====
section
/-! DEFINITION. IEEE 754 binary32 addition, subtraction and multiplication on bit patterns (spec/43_paired_single.md
R130 to R133; log entry 18). A finite pattern is an integer number of units of 2^-149, the smallest subnormal;
sums and products are exact integers and are rounded once. -/

namespace Sys2Proof.Machine

/-- Bit 31 (R130). -/
def fpSign (x : Word) : Bool := x.getLsbD 31

/-- The biased exponent, bits 30..23 (R130). -/
def fpExp (x : Word) : Nat := (x.extractLsb' 23 8).toNat

/-- The fraction, bits 22..0 (R130). -/
def fpFrac (x : Word) : Nat := (x.extractLsb' 0 23).toNat

/-- Exponent 0xFF and fraction not 0 (R132). -/
def fpIsNaN (x : Word) : Bool := fpExp x == 255 && fpFrac x != 0

/-- Exponent 0xFF and fraction 0. -/
def fpIsInf (x : Word) : Bool := fpExp x == 255 && fpFrac x == 0

/-- Neither infinite nor a NaN. -/
def fpIsFinite (x : Word) : Bool := fpExp x != 255

/-- +0 or −0. -/
def fpIsZero (x : Word) : Bool := fpExp x == 0 && fpFrac x == 0

/-- The magnitude of a finite pattern in units of 2^-149. Subnormals count as they are (R131). -/
def fpMag (x : Word) : Nat :=
  if fpExp x = 0 then fpFrac x else (2 ^ 23 + fpFrac x) * 2 ^ (fpExp x - 1)

/-- The value of a finite pattern in units of 2^-149. -/
def fpValue (x : Word) : Int := if fpSign x then -(fpMag x : Int) else (fpMag x : Int)

/-- The pattern of infinity without its sign. -/
def fpInfBits : Nat := 0x7F800000

/-- A pattern from a sign and its low 31 bits. -/
def fpPack (sign : Bool) (bits : Nat) : Word := BitVec.ofBool sign ++ BitVec.ofNat 31 bits

/-- `n / 2^d` rounded to the nearest integer, ties to even (R131). -/
def roundHalfEven (n d : Nat) : Nat :=
  if 2 * (n % 2 ^ d) > 2 ^ d ∨ (2 * (n % 2 ^ d) = 2 ^ d ∧ n / 2 ^ d % 2 = 1) then n / 2 ^ d + 1 else n / 2 ^ d

/-- How many low bits of `n` (units of 2^-(149+q)) rounding drops: enough to leave 24, and never fewer than
the `q` below the smallest subnormal. -/
def dropBits (n q : Nat) : Nat := max (Nat.log2 n - 23) q

/-- The low 31 bits of the pattern of `n · 2^-(149+q)` rounded: the significand carries into the exponent
field, and what reaches the exponent 0xFF is infinity (R131). -/
def roundBits (n q : Nat) : Nat :=
  min fpInfBits ((dropBits n q - q) * 2 ^ 23 + roundHalfEven n (dropBits n q))

/-- The pattern of `±n · 2^-(149+q)`, rounded to nearest even; 0 keeps the sign it is given. -/
def fpRound (sign : Bool) (n q : Nat) : Word := fpPack sign (roundBits n q)

/-- Any word as a NaN pattern: sign and fraction kept, exponent 0xFF, fraction 0 replaced by 0x400000. Every
NaN pattern is its own image. -/
def toNaN (x : Word) : Word :=
  if fpFrac x = 0 then fpPack (fpSign x) 0x7FC00000 else fpPack (fpSign x) (fpInfBits + fpFrac x)

/-- NAN_RESULT(op, a, b): some NaN pattern, nothing else known of it (R132; log entry 8). -/
def nanResult (op : FpOp) (a b : Word) : Word := toNaN (Config.nanDraw op a b)

/-- Change the sign of a pattern. -/
def fpNegate (x : Word) : Word := x ^^^ 0x80000000#32

/-- The sum of two finite patterns. An exact zero is −0 only for −0 + −0 (R133). -/
def fpAddFinite (a b : Word) : Word :=
  if fpValue a + fpValue b = 0 then fpPack (fpSign a && fpSign b) 0
  else fpRound (decide (fpValue a + fpValue b < 0)) (fpValue a + fpValue b).natAbs 0

/-- Addition where no operand is a NaN; `nan` is delivered for ∞ + (−∞) (R132). -/
def fpAddNumbers (nan a b : Word) : Word :=
  if fpIsInf a then (if fpIsInf b && fpSign a != fpSign b then nan else a)
  else if fpIsInf b then b
  else fpAddFinite a b

/-- `fadd32` (R133). -/
def fadd32 (a b : Word) : Word :=
  if fpIsNaN a || fpIsNaN b then nanResult .add a b else fpAddNumbers (nanResult .add a b) a b

/-- `fsub32`: addition of the operand with its sign changed; NAN_RESULT is that of the subtraction (R132,
R133). -/
def fsub32 (a b : Word) : Word :=
  if fpIsNaN a || fpIsNaN b then nanResult .sub a b
  else fpAddNumbers (nanResult .sub a b) a (fpNegate b)

/-- `fmul32`: the sign is the exclusive or of the operands' signs; 0 × ∞ is a NaN (R132, R133). -/
def fmul32 (a b : Word) : Word :=
  if fpIsNaN a || fpIsNaN b then nanResult .mul a b
  else if fpIsInf a || fpIsInf b then
    if fpIsZero a || fpIsZero b then nanResult .mul a b else fpPack (fpSign a ^^ fpSign b) fpInfBits
  else fpRound (fpSign a ^^ fpSign b) (fpMag a * fpMag b) 149

end Sys2Proof.Machine
end

