-- ==== Sys2Proof/Machine/PairedSingle.lean ====
section
/-! DEFINITION. The paired-single operations (spec/43_paired_single.md R134 to R137). -/

namespace Sys2Proof.Machine

/-- Apply a binary32 operation to each lane of two registers on its own (R134: "the lanes are independent"). -/
def lanewise (f : Word → Word → Word) (a b : Lanes) : Lanes :=
  { ps0 := f a.ps0 b.ps0, ps1 := f a.ps1 b.ps1 }

/-- `fpr[frD] <- fadd32(fpr[frA], fpr[frB])` in both lanes (R134). -/
def execPsAdd (frD frA frB : Idx5) (s : State) : Host.Outcome State Fault Refusal :=
  .next (s.writeFpr frD (lanewise fadd32 (s.readFpr frA) (s.readFpr frB))).advance

/-- `fpr[frD] <- fsub32(fpr[frA], fpr[frB])` in both lanes (R135). -/
def execPsSub (frD frA frB : Idx5) (s : State) : Host.Outcome State Fault Refusal :=
  .next (s.writeFpr frD (lanewise fsub32 (s.readFpr frA) (s.readFpr frB))).advance

/-- `fpr[frD] <- fmul32(fpr[frA], fpr[frC])` in both lanes (R136). -/
def execPsMul (frD frA frC : Idx5) (s : State) : Host.Outcome State Fault Refusal :=
  .next (s.writeFpr frD (lanewise fmul32 (s.readFpr frA) (s.readFpr frC))).advance

end Sys2Proof.Machine
end

