-- ==== Sys2Proof/Machine/System.lean ====
section
/-! DEFINITION. System call, return from interrupt and the sync class (spec/44_system.md R140 to R147). No
instruction is privileged (R145). -/

namespace Sys2Proof.Machine

/-- `sc`: the instruction completes (`pc <- pc + 4`), then the system-call interrupt is raised, which is lost
while interrupts are disabled (R140). -/
def execSc (s : State) : Host.Outcome State Fault Refusal := .next (raise s.config.syscallIrq s.advance)

/-- `rfi`: interrupts on, `nextpc <- LR` (R141). -/
def execRfi (s : State) : Host.Outcome State Fault Refusal := .next (returnFromInterrupt s)

/-- `sync`: advances pc only (R142). -/
def execSync (s : State) : Host.Outcome State Fault Refusal := .next s.advance

/-- `isync`: advances pc only (R143). -/
def execIsync (s : State) : Host.Outcome State Fault Refusal := .next s.advance

/-- `eieio`: advances pc only (R144). -/
def execEieio (s : State) : Host.Outcome State Fault Refusal := .next s.advance

end Sys2Proof.Machine
end

