-- ==== Sys2Proof/Machine/Dispatch.lean ====
section
/-! DEFINITION. EXECUTE: the meaning of each instruction (spec/30_encoding.md R92). The count and the poll that
follow it are in Machine/Cycle.lean. -/

namespace Sys2Proof.Machine

def exec (i : Instr) (s : State) : Host.Outcome State Fault Refusal :=
  match i with
  -- 40_integer.md
  | .addi rD rA simm => Sys2Proof.Machine.execAddi rD rA simm s
  | .addis rD rA simm => Sys2Proof.Machine.execAddis rD rA simm s
  | .add rD rA rB => Sys2Proof.Machine.execAdd rD rA rB s
  | .subf rD rA rB => Sys2Proof.Machine.execSubf rD rA rB s
  | .mullw rD rA rB => Sys2Proof.Machine.execMullw rD rA rB s
  | .andi rS rA uimm => Sys2Proof.Machine.execAndi rS rA uimm s
  | .ori rS rA uimm => Sys2Proof.Machine.execOri rS rA uimm s
  | .cmp crfD rA rB => Sys2Proof.Machine.execCmp crfD rA rB s
  -- 41_branch.md
  | .b disp aa lk => Sys2Proof.Machine.execB disp aa lk s
  | .bc bo bi disp aa lk => Sys2Proof.Machine.execBc bo bi disp aa lk s
  -- 42_load_store.md
  | .lwz rD rA d => Sys2Proof.Machine.execLwz rD rA d s
  | .stw rS rA d => Sys2Proof.Machine.execStw rS rA d s
  -- 43_paired_single.md
  | .psAdd frD frA frB => Sys2Proof.Machine.execPsAdd frD frA frB s
  | .psSub frD frA frB => Sys2Proof.Machine.execPsSub frD frA frB s
  | .psMul frD frA frC => Sys2Proof.Machine.execPsMul frD frA frC s
  -- 44_system.md
  | .sc => Sys2Proof.Machine.execSc s
  | .rfi => Sys2Proof.Machine.execRfi s
  | .sync => Sys2Proof.Machine.execSync s
  | .isync => Sys2Proof.Machine.execIsync s
  | .eieio => Sys2Proof.Machine.execEieio s

end Sys2Proof.Machine
end

