-- ==== Sys2Proof/Machine/Cycle.lean ====
section
/-! DEFINITION. What a step does around an instruction: the fetch, the count and the poll (spec/30_encoding.md
R90, R93, R94), and where the next instruction is fetched from. -/

namespace Sys2Proof.Machine

/-- FETCH: `w <- readWord(pc)` (R90). -/
def fetch (s : State) : Word × State := readWord s.pc s

/-- The count and then the poll, after an executed instruction (R93, R94). -/
def finishStep (s : State) : State := coprocessorPoll s.count

/-- The phases after DECODE (R91 to R94): an illegal word halts, with no count and no poll; an instruction
is executed, counted, and followed by the poll. -/
def runDecoded (w : Word) (d : Except Illegal Instr) (s : State) : Host.Outcome State Fault Refusal :=
  match d with
  | .error why => .next (halt why w s)
  | .ok i =>
    match exec i s with
    | .next t => .next (finishStep t)
    | .fault f => .fault f
    | .refused r => .refused r

/-- One step of a machine that is running under an admitted configuration (R88). -/
def runCycle (s : State) : Host.Outcome State Fault Refusal :=
  runDecoded (fetch s).1 (decode (fetch s).1) (fetch s).2

/-- s with a word stored where the next step fetches it, and running (log entry 16). -/
def storeFetchWord (s : State) (nbits w : Nat) : State :=
  (s.setMem (s.mem.putWord (translateAddr s.config s.pc) (BitVec.ofNat 32 (w % 2 ^ nbits)))).setRunning true

end Sys2Proof.Machine
end

