-- ==== Sys2Proof/Machine/Step.lean ====
section
/-! DEFINITION. The step of the whole core (spec/30_encoding.md R88 to R95). -/

namespace Sys2Proof.Machine

/-- One step: refused under a configuration the model rejects (93_implementation_defined.md U6), stuck when not
running (R89, R95), else the cycle of R90 to R94. -/
def step (s : State) : Host.Outcome State Fault Refusal :=
  if !configOk s.config then .refused .badConfiguration
  else if !s.running then .fault .halted
  else runCycle s

/-- s with the instruction of `nbits` bits `w` stored where `step` fetches its next instruction. -/
def State.withFetchWord (s : State) (nbits w : Nat) : State := storeFetchWord s nbits w

end Sys2Proof.Machine
end

