-- ==== Sys2Proof/Machine/Boot.lean ====
section
/-! DEFINITION. Boot with an image (spec/70_reset_and_hazards.md R190 to R192). -/

namespace Sys2Proof.Machine

/-- Why there is no run (R192; 93_implementation_defined.md U6, U10). Failures of the excluded collaborators
are the host's (log entry 19). -/
inductive BootFailure where
  | badConfiguration
  | oversizedImage
  deriving DecidableEq, Repr

/-- Reset, then image byte k at physical offset k, without translation and without the framebuffer mirror; the
rest of the buffer is 0 (R190, R191). An image longer than CAPACITY does not boot (R192). -/
def boot (c : Config) (image : List Byte) : Except BootFailure State :=
  if !configOk c then .error .badConfiguration
  else if c.capacity < image.length then .error .oversizedImage
  else .ok ((State.resetWith c).setMem (Memory.writeBytes [] 0 image))

end Sys2Proof.Machine
end

