-- ==== Sys2Proof/Safety.lean ====
section
/-! DEFINITION. The terms claims are made in: the invariant of the machine, a safe run, and what an operation
keeps. -/

namespace Sys2Proof.Machine

/-- The invariant of every state a run reaches: the configuration is admitted (93_implementation_defined.md
U6), memory and pixels are canonical and within their sizes (10_state.md R34, R35), and pc and LR are multiples
of 4 (10_state.md R21). -/
structure State.Inv (s : State) : Prop where
  configOk : configOk s.config = true
  memOk : s.mem.wf
  memBelow : cellsBelow s.config.capacity s.mem
  pixelsOk : s.pixels.wf
  pixelsBelow : cellsBelow s.config.pixelCount s.pixels
  pcAligned : wordAligned s.pc = true
  lrAligned : wordAligned s.lr = true

/-- How a safe run may end: in a state that meets the invariant, or stuck because it has halted; never refused
(60_exceptions.md R150; 70_reset_and_hazards.md R196). -/
def SafeEnd : Host.Outcome State Fault Refusal → Prop
  | .next t => t.Inv
  | .fault f => f = .halted
  | .refused _ => False

/-- Every run of the machine from s ends safely, however many steps it takes. -/
def SafeFrom (s : State) : Prop := ∀ n, SafeEnd (Host.Core.run Sys2Proof.core n s)

/-! ## Frames -/

/-- Every general, paired-single and special register is unchanged but for those listed. -/
structure RegistersKept (s t : State) (gprs fprs : List Idx5) (sprs : List SprIdx) : Prop where
  gpr : ∀ r, r ∉ gprs → t.readGpr r = s.readGpr r
  fpr : ∀ r, r ∉ fprs → t.readFpr r = s.readFpr r
  spr : ∀ n, n ∉ sprs → t.readSpr n = s.readSpr n

/-- The status bits and the counter are unchanged. -/
structure StatusKept (s t : State) : Prop where
  running : t.running = s.running
  interruptsEnabled : t.interruptsEnabled = s.interruptsEnabled
  kernelMode : t.kernelMode = s.kernelMode
  cycleCount : t.cycleCount = s.cycleCount

/-- Every byte of memory and every pixel reads as before, under the same configuration. -/
structure StorageKept (s t : State) : Prop where
  bytes : ∀ p, t.byteAt p = s.byteAt p
  pixels : ∀ i, t.pixelAt i = s.pixelAt i
  config : t.config = s.config

/-- No event was emitted and no value drawn from outside. -/
structure OutputKept (s t : State) : Prop where
  events : t.events = s.events
  inputReads : t.inputReads = s.inputReads
  audioPolls : t.audioPolls = s.audioPolls

/-- Two states that differ at most in what no rule reads: `kernelMode`, `cycleCount`, the pixels and the events
(10_state.md R32, R33, R35; 20_memory.md R59). -/
structure AgreeOnReadState (s t : State) : Prop where
  pc : t.pc = s.pc
  gpr : t.gpr = s.gpr
  fpr : t.fpr = s.fpr
  spr : t.spr = s.spr
  running : t.running = s.running
  interruptsEnabled : t.interruptsEnabled = s.interruptsEnabled
  mem : t.mem = s.mem
  config : t.config = s.config
  inputReads : t.inputReads = s.inputReads
  audioPolls : t.audioPolls = s.audioPolls

/-- What no rule reads: the mode, the counter, the pixels and the log of output events. -/
inductive Unread where
  | mode
  | count
  | pixels
  | log
  deriving DecidableEq, Repr

/-- Two states that differ at most in the listed parts of what no rule reads. -/
structure AgreeExcept (free : List Unread) (s t : State) : Prop extends AgreeOnReadState s t where
  kernelMode : .mode ∉ free → t.kernelMode = s.kernelMode
  cycleCount : .count ∉ free → t.cycleCount = s.cycleCount
  pixels : .pixels ∉ free → t.pixels = s.pixels
  events : .log ∉ free → t.events = s.events

/-- The same kind of outcome: related next states, the same fault, or the same refusal. -/
def SameOutcome (related : State → State → Prop) :
    Host.Outcome State Fault Refusal → Host.Outcome State Fault Refusal → Prop
  | .next s, .next t => related s t
  | .fault f, .fault g => f = g
  | .refused r, .refused q => r = q
  | _, _ => False

/-! ## Where words lie -/

/-- A word access at virtual address `a` covers the four bytes from physical offset `p` on, all in the buffer
(20_memory.md R43, R46, R49). -/
abbrev LiesAt (c : Config) (a : Word) (p : Nat) : Prop := translateAddr c a = p ∧ p + 4 ≤ c.capacity

/-- A word read at `a` reads the four bytes from `p` on: `a` is not the input register either (20_memory.md
R48). -/
abbrev ReadsAt (c : Config) (a : Word) (p : Nat) : Prop := a ≠ c.inputAddr ∧ LiesAt c a p

/-- `n` consecutive words from virtual address `a` on cover consecutive physical words from `p` on. -/
abbrev WordsLieAt (c : Config) (a : Word) (p n : Nat) : Prop :=
  ∀ k, k < n → LiesAt c (a + BitVec.ofNat 32 (4 * k)) (p + 4 * k)

/-- `n` consecutive words read from virtual address `a` on are the physical words from `p` on. -/
abbrev WordsReadAt (c : Config) (a : Word) (p n : Nat) : Prop :=
  ∀ k, k < n → ReadsAt c (a + BitVec.ofNat 32 (4 * k)) (p + 4 * k)

/-- The five coprocessor registers are the five words from physical offset `p` on, in the order of 20_memory.md
R64, and none is the input register. -/
abbrev CoprocAt (c : Config) (p : Nat) : Prop := WordsReadAt c c.coprocRegBase p 5

/-! ## The bits of a word, as numbers -/

/-- `w[lo+n-1 : lo]` as an unsigned number (00_scope.md R8). -/
def bitsOf (w : Word) (lo n : Nat) : Nat := w.toNat / 2 ^ lo % 2 ^ n

/-- The same bits as a two's complement number. -/
def signedBitsOf (w : Word) (lo n : Nat) : Int :=
  if bitsOf w lo n < 2 ^ (n - 1) then (bitsOf w lo n : Int) else (bitsOf w lo n : Int) - 2 ^ n

/-- A 5-bit register field. -/
def regOf (w : Word) (lo : Nat) : Idx5 := ⟨bitsOf w lo 5, Nat.mod_lt _ (by decide)⟩

/-- The general register an instruction writes, where it writes one (10_state.md R18). -/
def destGpr : Instr → Option Idx5
  | .addi rD _ _ => some rD
  | .addis rD _ _ => some rD
  | .add rD _ _ => some rD
  | .subf rD _ _ => some rD
  | .mullw rD _ _ => some rD
  | .andi _ rA _ => some rA
  | .ori _ rA _ => some rA
  | .cmp _ _ _ => none
  | .b _ _ _ => none
  | .bc _ _ _ _ _ => none
  | .lwz rD _ _ => some rD
  | .stw _ _ _ => none
  | .psAdd _ _ _ => none
  | .psSub _ _ _ => none
  | .psMul _ _ _ => none
  | .sc => none
  | .rfi => none
  | .sync => none
  | .isync => none
  | .eieio => none

/-- The distance of a pattern's value from an exact result, both in units of 2^-(149+q). -/
def distance (q : Nat) (exact : Int) (x : Word) : Nat := (exact - fpValue x * 2 ^ q).natAbs

/-- `r` is the exact result `exact` (units of 2^-(149+q)) rounded to binary32 by roundTiesToEven
(43_paired_single.md R131): no finite pattern is nearer, in a tie the last bit is 0, and from half a unit
beyond the largest finite number on the result is infinite with the sign of the exact result. -/
def RoundedNearestEven (q : Nat) (exact : Int) (r : Word) : Prop :=
  if exact.natAbs < (2 ^ 25 - 1) * 2 ^ (252 + q) then
    fpIsFinite r = true ∧
    (∀ x, fpIsFinite x = true → distance q exact r ≤ distance q exact x) ∧
    (∀ x, fpIsFinite x = true → distance q exact x = distance q exact r → fpValue x ≠ fpValue r →
      r.getLsbD 0 = false)
  else fpIsInf r = true ∧ fpSign r = decide (exact < 0)

end Sys2Proof.Machine
end

