-- ==== Sys2Proof/Certificates/Slice0/Obligations.lean ====
section
/-! DEFINITION. The statements for the provers. Each docstring names the rules of spec/ it formalises; what is the
model's own choice is said to be so, with its log entry. -/

open Sys2Proof Sys2Proof.Machine

/-! ## Encoding -/

/-- Every well-formed instruction, with every operand value the encoding admits, is what its word decodes to
(30_encoding.md R72, R83). Which value the encoder gives the ignored bits is the model's choice (log entry 14). -/
def Obligations.DecodeOfEncode : Prop :=
  ∀ i : Instr, i.wf = true → decode (encode i) = .ok i

/-- The decoder gives only well-formed instructions (30_encoding.md R75, R83). -/
def Obligations.DecodedInstructionsAreWellFormed : Prop :=
  ∀ (w : Word) (i : Instr), decode w = .ok i → i.wf = true

/-- A word decodes to an instruction of a row exactly when it has the row's match under the row's mask
(30_encoding.md R79 to R82, opcode_table.json). -/
def Obligations.DecodeFollowsTheOpcodeTable : Prop :=
  (∀ (w : Word) (i : Instr), decode w = .ok i → w &&& i.tableRow.1 = i.tableRow.2) ∧
  (∀ (w : Word) (i : Instr), w &&& i.tableRow.1 = i.tableRow.2 →
    ∃ j, decode w = .ok j ∧ j.tableRow = i.tableRow)

/-- The bits of 30_encoding.md R84 change nothing: a word that differs only there decodes to the same
instruction. -/
def Obligations.IgnoredBitsNeverMatter : Prop :=
  ∀ (w v : Word) (i : Instr), decode w = .ok i → (w ^^^ v) &&& ~~~i.ignoredBits = 0 → decode v = .ok i

/-- The branch displacements are the signed word counts `w[25:2]` and `w[15:2]` times 4, in the ranges of
30_encoding.md R75. -/
def Obligations.BranchDisplacementsOfWords : Prop :=
  (∀ (w disp : Word) (aa lk : Bool), decode w = .ok (.b disp aa lk) →
    disp.toInt = 4 * signedBitsOf w 2 24 ∧ disp.toNat % 4 = 0 ∧
    -(2 ^ 25 : Int) ≤ disp.toInt ∧ disp.toInt ≤ 2 ^ 25 - 4) ∧
  (∀ (w disp : Word) (bo : BitVec 5) (bi : Idx5) (aa lk : Bool), decode w = .ok (.bc bo bi disp aa lk) →
    disp.toInt = 4 * signedBitsOf w 2 14 ∧ disp.toNat % 4 = 0 ∧
    -(2 ^ 15 : Int) ≤ disp.toInt ∧ disp.toInt ≤ 2 ^ 15 - 4)

/-- Words built from field values by arithmetic, with every value of the ignored bits, decode to the instruction
with those fields (30_encoding.md R71, R72, R83): the D, XO, X and A forms. -/
def Obligations.FieldsReachTheirOperands : Prop :=
  (∀ (x y : Idx5) (imm : BitVec 16),
    let w := fun op : Nat => BitVec.ofNat 32 (op * 2 ^ 26 + x.val * 2 ^ 21 + y.val * 2 ^ 16 + imm.toNat)
    decode (w 14) = .ok (.addi x y imm) ∧ decode (w 15) = .ok (.addis x y imm) ∧
    decode (w 28) = .ok (.andi x y imm) ∧ decode (w 24) = .ok (.ori x y imm) ∧
    decode (w 32) = .ok (.lwz x y imm) ∧ decode (w 36) = .ok (.stw x y imm)) ∧
  (∀ (x y z : Idx5) (rc : Fin 2),
    let w := fun xo : Nat =>
      BitVec.ofNat 32 (31 * 2 ^ 26 + x.val * 2 ^ 21 + y.val * 2 ^ 16 + z.val * 2 ^ 11 + xo * 2 + rc.val)
    decode (w 266) = .ok (.add x y z) ∧ decode (w 40) = .ok (.subf x y z) ∧
    decode (w 235) = .ok (.mullw x y z) ∧ decode (w 598) = .ok .sync ∧ decode (w 854) = .ok .eieio) ∧
  (∀ (f : CrField) (two : Fin 4) (y z : Idx5) (rc : Fin 2),
    decode (BitVec.ofNat 32
      (31 * 2 ^ 26 + f.val * 2 ^ 23 + two.val * 2 ^ 21 + y.val * 2 ^ 16 + z.val * 2 ^ 11 + rc.val))
      = .ok (.cmp f y z)) ∧
  (∀ (x y z t : Idx5) (rc : Fin 2),
    let w := fun xo : Nat => BitVec.ofNat 32
      (4 * 2 ^ 26 + x.val * 2 ^ 21 + y.val * 2 ^ 16 + z.val * 2 ^ 11 + t.val * 2 ^ 6 + xo * 2 + rc.val)
    decode (w 21) = .ok (.psAdd x y z) ∧ decode (w 20) = .ok (.psSub x y z) ∧
    decode (w 25) = .ok (.psMul x y t))

/-- Words the spec writes out (95_test_vectors.md L1, L2), decoded. -/
def Obligations.SampleWordsDecode : Prop :=
  decode 0x3820FFFF = .ok (.addi 1 0 0xFFFF) ∧ decode 0x7C642A14 = .ok (.add 3 4 5) ∧
  decode 0x7001FFFF = .ok (.andi 0 1 0xFFFF) ∧ decode 0x7F842800 = .ok (.cmp 7 4 5) ∧
  decode 0x4BFFFFFC = .ok (.b 0xFFFFFFFC false false) ∧
  decode 0x41820102 = .ok (.bc 12 2 0x100 true false) ∧
  decode 0x81060100 = .ok (.lwz 8 6 0x100) ∧ decode 0x90E60100 = .ok (.stw 7 6 0x100) ∧
  decode 0x10221932 = .ok (.psMul 1 2 4) ∧ decode 0x47FFFFFF = .ok .sc ∧
  decode 0x4C000064 = .ok .rfi ∧ decode 0x7C642E14 = .error .unknownExtendedOpcode ∧
  decode 0x00000000 = .error .unknownOpcode

/-! ## The step -/

/-- An illegal word halts: `running` goes false, the diagnostic names the word and the pc, nothing else changes,
and no step is enabled afterwards; no other word halts (30_encoding.md R85; 60_exceptions.md R151 to R153). The
form of the stuck state is log entry 9. -/
def Obligations.IllegalWordsHalt : Prop :=
  ∀ s : State, configOk s.config = true → s.running = true →
    let w := (readWord s.pc s).1
    let haltsWith := fun e : Event => ∃ t, step s = .next t ∧ t.running = false ∧ t.pc = s.pc ∧
      RegistersKept s t [] [] [] ∧ t.interruptsEnabled = s.interruptsEnabled ∧ t.kernelMode = s.kernelMode ∧
      t.cycleCount = s.cycleCount ∧ StorageKept s t ∧ t.audioPolls = s.audioPolls ∧
      t.events = (readWord s.pc s).2.events ++ [e] ∧ step t = .fault .halted
    let primaryUnknown := bitsOf w 26 6 ∉ [4, 14, 15, 16, 17, 18, 19, 24, 28, 31, 32, 36]
    let selectorUnknown :=
      (bitsOf w 26 6 = 31 ∧ bitsOf w 1 10 ∉ [0, 40, 235, 266, 598, 854]) ∨
      (bitsOf w 26 6 = 19 ∧ bitsOf w 1 10 ∉ [50, 150]) ∨
      (bitsOf w 26 6 = 4 ∧ bitsOf w 1 5 ∉ [20, 21, 25])
    (primaryUnknown → haltsWith (.unknownOpcode w s.pc)) ∧
    (selectorUnknown → haltsWith (.unknownExtendedOpcode w s.pc)) ∧
    (∀ t, step s = .next t → t.running = false → primaryUnknown ∨ selectorUnknown)

/-- Under an admitted configuration a step is enabled exactly when `running` is true (30_encoding.md R89). -/
def Obligations.StepEnabledExactlyWhenRunning : Prop :=
  ∀ s : State, configOk s.config = true → ((∃ t, step s = .next t) ↔ s.running = true)

/-- The only two stops: a machine that is not running is stuck (30_encoding.md R95; log entry 9), a configuration
that breaks a constraint is refused (93_implementation_defined.md U6; log entry 10), and nothing else stops. -/
def Obligations.TheOnlyStops : Prop :=
  ∀ s : State,
    (configOk s.config = false → step s = .refused .badConfiguration) ∧
    (configOk s.config = true → s.running = false → step s = .fault .halted) ∧
    (∀ i : Instr, ∃ t, exec i s = .next t)

/-- A step runs the instruction the word at pc decodes to, then counts it and polls the coprocessor; a word at pc
that lies in the buffer is its four bytes, first byte most significant (30_encoding.md R88, R90 to R94). -/
def Obligations.StepRunsTheDecodedInstruction : Prop :=
  (∀ (s : State) (i : Instr), configOk s.config = true → s.running = true →
    decode (readWord s.pc s).1 = .ok i →
    ∃ t, exec i (readWord s.pc s).2 = .next t ∧
      step s = .next (coprocessorPoll { t with cycleCount := t.cycleCount + 1 })) ∧
  (∀ (s : State) (p : Nat), ReadsAt s.config s.pc p →
    readWord s.pc s =
      (s.byteAt p ++ s.byteAt (p + 1) ++ s.byteAt (p + 2) ++ s.byteAt (p + 3), s))

/-! ## Reset and boot -/

/-- The values after reset and boot (10_state.md R39), for every configuration and image that boot. -/
def Obligations.BootState : Prop :=
  ∀ (c : Config) (image : List Byte) (s : State), boot c image = .ok s →
    s.pc = c.entryPc ∧ (∀ r, s.readGpr r = 0) ∧ (∀ r, s.readFpr r = { ps0 := 0, ps1 := 0 }) ∧
    (∀ n, s.readSpr n = 0) ∧ s.running = true ∧ s.interruptsEnabled = false ∧ s.kernelMode = false ∧
    s.cycleCount = 0 ∧ (∀ k, s.byteAt k = image.getD k 0) ∧ (∀ i, s.pixelAt i = 0) ∧ s.config = c

/-- Boot fails exactly on a configuration that is not admitted and on an image longer than CAPACITY
(70_reset_and_hazards.md R192; 93_implementation_defined.md U6, U10). -/
def Obligations.BootRefusals : Prop :=
  ∀ (c : Config) (image : List Byte),
    (boot c image = .error .badConfiguration ↔ configOk c = false) ∧
    (boot c image = .error .oversizedImage ↔ configOk c = true ∧ c.capacity < image.length) ∧
    ((∃ s, boot c image = .ok s) ↔ configOk c = true ∧ image.length ≤ c.capacity)

/-- The admitted configurations are those of 00_scope.md R7, 20_memory.md R41 and R44. -/
def Obligations.AdmittedConfigurations : Prop :=
  ∀ c : Config, configOk c = true ↔
    (∃ k, 2 ≤ k ∧ c.capacity = 2 ^ k) ∧
    (∀ r ∈ [c.ram, c.hwreg, c.coproc],
      (r.physicalBase : Int) + ((r.virtualEnd : Int) - r.virtualStart) ≤ c.capacity) ∧
    c.fbStart ≤ c.fbEnd ∧ 0 < c.fbWidth ∧ 0 < c.fbHeight ∧
    c.coprocRegBase.toNat % 4 = 0 ∧ c.syscallIrq ≠ c.coprocIrq ∧
    (∀ e ∈ c.vectors, e.2.toNat % 4 = 0) ∧ c.defaultHandler.toNat % 4 = 0 ∧ c.entryPc.toNat % 4 = 0

/-- The reset state meets the invariant, and is the boot of the empty image under the reference configuration
(DESIGN CHOICES, log entries 2 and 3). -/
def Obligations.ResetMeetsTheInvariant : Prop :=
  State.reset.Inv ∧ boot Config.reference [] = .ok State.reset

/-- Every booted state meets the invariant. -/
def Obligations.BootedStatesMeetTheInvariant : Prop :=
  ∀ (c : Config) (image : List Byte) (s : State), boot c image = .ok s → s.Inv

/-! ## Invariants and whole-machine rules -/

/-- Every step keeps the invariant: the configuration stays admitted, memory and pixels stay canonical and
within their sizes, pc and LR stay multiples of 4 (10_state.md R21, R34, R35). -/
def Obligations.StepKeepsTheInvariant : Prop :=
  ∀ s t : State, s.Inv → step s = .next t → t.Inv

/-- From every state that meets the invariant a run of any length ends in such a state or has halted; it is never
refused (60_exceptions.md R150; 70_reset_and_hazards.md R196). -/
def Obligations.RunsStaySafe : Prop := ∀ s : State, s.Inv → SafeFrom s

/-- A step that ends running has counted one, a step that halts has counted nothing; the poll counts nothing
(10_state.md R33; 30_encoding.md R91, R93). -/
def Obligations.CycleCountCountsExecutedInstructions : Prop :=
  ∀ s t : State, step s = .next t →
    (t.running = true → t.cycleCount.toNat = (s.cycleCount.toNat + 1) % 2 ^ 64) ∧
    (t.running = false → t.cycleCount = s.cycleCount)

/-- Kernel mode is never left, and is entered only with interrupts then off and pc at a handler
(60_exceptions.md R163). -/
def Obligations.KernelModeIsNeverLeft : Prop :=
  ∀ s t : State, step s = .next t →
    (s.kernelMode = true → t.kernelMode = true) ∧
    (s.kernelMode = false → t.kernelMode = true → t.interruptsEnabled = false ∧
      (t.pc = vectorFor s.config s.config.syscallIrq ∨ t.pc = vectorFor s.config s.config.coprocIrq))

/-- Interrupts are enabled by `rfi` alone (10_state.md R31; 70_reset_and_hazards.md R193). -/
def Obligations.OnlyReturnEnablesInterrupts : Prop :=
  ∀ s t : State, step s = .next t → s.interruptsEnabled = false → t.interruptsEnabled = true →
    decode (readWord s.pc s).1 = .ok .rfi

/-- The special registers other than CR and LR keep their values for the whole run (10_state.md R29). -/
def Obligations.OtherSpecialRegistersNeverChange : Prop :=
  ∀ (s t : State) (n : SprIdx), step s = .next t → n ≠ 0 → n ≠ 8 → t.readSpr n = s.readSpr n

/-- CR changes in a step only if the instruction is a compare (10_state.md R27). -/
def Obligations.OnlyCompareWritesCr : Prop :=
  ∀ s t : State, step s = .next t → t.readSpr 0 ≠ s.readSpr 0 →
    ∃ f a b, decode (readWord s.pc s).1 = .ok (.cmp f a b)

/-- A general register changes in a step only if it is the destination of the instruction; interrupts and the
coprocessor change none (10_state.md R18). -/
def Obligations.GeneralRegistersChangeOnlyAtTheDestination : Prop :=
  ∀ (s t : State) (r : Idx5), step s = .next t → t.readGpr r ≠ s.readGpr r →
    ∃ i, decode (readWord s.pc s).1 = .ok i ∧ destGpr i = some r

/-- Once every lane is +0.0, as after reset, every lane stays +0.0 (10_state.md R23). -/
def Obligations.ZeroLanesStayZero : Prop :=
  ∀ s t : State, (∀ r, s.readFpr r = { ps0 := 0, ps1 := 0 }) → step s = .next t →
    ∀ r, t.readFpr r = { ps0 := 0, ps1 := 0 }

/-- No instruction, interrupt or command changes the configuration (10_state.md R36). -/
def Obligations.ConfigurationNeverChanges : Prop :=
  (∀ s t : State, step s = .next t → t.config = s.config) ∧
  (∀ (i : Instr) (s t : State), exec i s = .next t → t.config = s.config)

/-- No instruction is privileged, and nothing depends on the mode, the counter, the pixels or the log: for any choice of
these four, two states that differ only in the chosen ones step to states that differ only there, and so does every
instruction by itself. With the mode alone chosen: a step in either mode leaves the same registers, memory, pixels, counter
and log (44_system.md R145). -/
def Obligations.NothingReadsModeCountPixelsOrLog : Prop :=
  ∀ (free : List Unread) (s u : State), AgreeExcept free s u →
    SameOutcome (AgreeExcept free) (step s) (step u) ∧
    ∀ i : Instr, SameOutcome (AgreeExcept free) (exec i s) (exec i u)

/-! ## Interrupts and the system instructions -/

/-- Raising an interrupt (60_exceptions.md R156, R157). -/
def Obligations.RaiseRule : Prop :=
  ∀ (id : Word) (s : State),
    (s.interruptsEnabled = false → raise id s = s) ∧
    (s.interruptsEnabled = true →
      (raise id s).readSpr 8 = s.pc ∧ (raise id s).pc = vectorFor s.config id ∧
      (raise id s).interruptsEnabled = false ∧ (raise id s).kernelMode = true ∧
      RegistersKept s (raise id s) [] [] [8] ∧ (raise id s).running = s.running ∧
      (raise id s).cycleCount = s.cycleCount ∧ StorageKept s (raise id s) ∧ OutputKept s (raise id s))

/-- The vector table: the handler of the id's entry, DEFAULT_HANDLER for an id without one (60_exceptions.md
R155). That the first of several entries for one id counts is the model's choice, no rule of the spec (DESIGN CHOICE,
log entry 13). -/
def Obligations.VectorLookup : Prop :=
  ∀ (c : Config) (id : Word),
    (∀ before a after, c.vectors = before ++ (id, a) :: after → (∀ e ∈ before, e.1 ≠ id) →
      vectorFor c id = a) ∧
    ((∀ e ∈ c.vectors, e.1 ≠ id) → vectorFor c id = c.defaultHandler)

/-- `sc` (44_system.md R140). -/
def Obligations.SystemCallRule : Prop :=
  (∀ w : Word, w &&& 0xFC000000 = 0x44000000 → decode w = .ok .sc) ∧
  ∀ s : State,
    (s.interruptsEnabled = true → ∃ t, exec .sc s = .next t ∧
      t.readSpr 8 = s.pc + 4 ∧ t.pc = vectorFor s.config s.config.syscallIrq ∧
      t.interruptsEnabled = false ∧ t.kernelMode = true ∧ RegistersKept s t [] [] [8] ∧
      t.running = s.running ∧ t.cycleCount = s.cycleCount ∧ StorageKept s t ∧ OutputKept s t) ∧
    (s.interruptsEnabled = false → ∃ t, exec .sc s = .next t ∧ t.pc = s.pc + 4 ∧
      RegistersKept s t [] [] [] ∧ StatusKept s t ∧ StorageKept s t ∧ OutputKept s t)

/-- `rfi`, in every mode (44_system.md R141; 60_exceptions.md R161). -/
def Obligations.ReturnFromInterruptRule : Prop :=
  (∀ w : Word, w &&& 0xFC0007FE = 0x4C000064 → decode w = .ok .rfi) ∧
  ∀ s : State, ∃ t, exec .rfi s = .next t ∧ t.pc = s.readSpr 8 ∧ t.interruptsEnabled = true ∧
    t.kernelMode = s.kernelMode ∧ RegistersKept s t [] [] [] ∧ t.running = s.running ∧
    t.cycleCount = s.cycleCount ∧ StorageKept s t ∧ OutputKept s t

/-- `sync`, `isync` and `eieio` advance pc and do nothing else; a step of one still counts and polls (44_system.md R142
to R144). -/
def Obligations.SyncRules : Prop :=
  (∀ w : Word, (w &&& 0xFC0007FE = 0x7C0004AC → decode w = .ok .sync) ∧
    (w &&& 0xFC0007FE = 0x4C00012C → decode w = .ok .isync) ∧
    (w &&& 0xFC0007FE = 0x7C0006AC → decode w = .ok .eieio)) ∧
  ∀ (i : Instr) (s : State), i = .sync ∨ i = .isync ∨ i = .eieio →
    (∃ t, exec i s = .next t ∧ t.pc = s.pc + 4 ∧ RegistersKept s t [] [] [] ∧ StatusKept s t ∧
      StorageKept s t ∧ OutputKept s t) ∧
    (configOk s.config = true → s.running = true → decode (readWord s.pc s).1 = .ok i →
      step s = .next (coprocessorPoll
        { (readWord s.pc s).2 with pc := s.pc + 4, cycleCount := s.cycleCount + 1 }))

/-! ## The AddressSpace -/

/-- Translation: the regions in priority order, end excluded, else the masked direct mapping, which for an
admitted CAPACITY is the address modulo CAPACITY (20_memory.md R42, R43, R45). -/
def Obligations.TranslateRule : Prop :=
  ∀ (c : Config) (a : Word),
    let inside := fun r : Region => r.virtualStart ≤ a.toNat ∧ a.toNat < r.virtualEnd
    (inside c.ram → translateAddr c a = c.ram.physicalBase + (a.toNat - c.ram.virtualStart)) ∧
    (¬inside c.ram → inside c.hwreg →
      translateAddr c a = c.hwreg.physicalBase + (a.toNat - c.hwreg.virtualStart)) ∧
    (¬inside c.ram → ¬inside c.hwreg → inside c.coproc →
      translateAddr c a = c.coproc.physicalBase + (a.toNat - c.coproc.virtualStart)) ∧
    (¬inside c.ram → ¬inside c.hwreg → ¬inside c.coproc →
      translateAddr c a = a.toNat &&& (c.capacity - 1) ∧
      (configOk c = true → translateAddr c a = a.toNat % c.capacity))

/-- Every virtual address translates to an offset below CAPACITY (20_memory.md R44, R45). -/
def Obligations.TranslateStaysInTheBuffer : Prop :=
  ∀ (c : Config) (a : Word), configOk c = true → translateAddr c a < c.capacity

/-- Reading a word: the input register, the buffer, out of bounds (20_memory.md R46 to R48). The input value is a
free value (log entry 6); this holds whatever it is. -/
def Obligations.ReadWordRule : Prop :=
  ∀ (a : Word) (s : State),
    (a = s.config.inputAddr →
      readWord a s = (Config.inputDraw s.inputReads, { s with inputReads := s.inputReads + 1 })) ∧
    (a ≠ s.config.inputAddr → translateAddr s.config a + 4 ≤ s.config.capacity →
      (readWord a s).2 = s ∧
      (readWord a s).1.toNat =
        (s.byteAt (translateAddr s.config a)).toNat * 2 ^ 24 +
        (s.byteAt (translateAddr s.config a + 1)).toNat * 2 ^ 16 +
        (s.byteAt (translateAddr s.config a + 2)).toNat * 2 ^ 8 +
        (s.byteAt (translateAddr s.config a + 3)).toNat) ∧
    (a ≠ s.config.inputAddr → s.config.capacity < translateAddr s.config a + 4 →
      readWord a s = (0, { s with events := s.events ++ [.outOfBounds a] }))

/-- Writing a word: dropped out of bounds, else four bytes, most significant first, and the pixel of the
framebuffer window where its index is in range; nothing else changes (20_memory.md R49, R50). -/
def Obligations.WriteWordRule : Prop :=
  ∀ (a v : Word) (s : State), s.mem.wf → s.pixels.wf →
    let p := translateAddr s.config a
    let i := (a.toNat - s.config.fbStart) / 4
    let mirrored := s.config.fbStart ≤ a.toNat ∧ a.toNat < s.config.fbEnd ∧
      i < s.config.fbWidth * s.config.fbHeight
    (s.config.capacity < p + 4 →
      writeWord a v s = { s with events := s.events ++ [.outOfBounds a] }) ∧
    (p + 4 ≤ s.config.capacity →
      ((writeWord a v s).byteAt p).toNat = v.toNat / 2 ^ 24 ∧
      ((writeWord a v s).byteAt (p + 1)).toNat = v.toNat / 2 ^ 16 % 2 ^ 8 ∧
      ((writeWord a v s).byteAt (p + 2)).toNat = v.toNat / 2 ^ 8 % 2 ^ 8 ∧
      ((writeWord a v s).byteAt (p + 3)).toNat = v.toNat % 2 ^ 8 ∧
      (∀ q, q < p ∨ p + 4 ≤ q → (writeWord a v s).byteAt q = s.byteAt q) ∧
      (mirrored → (writeWord a v s).pixelAt i = v) ∧
      (∀ j, ¬(mirrored ∧ j = i) → (writeWord a v s).pixelAt j = s.pixelAt j) ∧
      (writeWord a v s).pc = s.pc ∧ RegistersKept s (writeWord a v s) [] [] [] ∧
      StatusKept s (writeWord a v s) ∧ OutputKept s (writeWord a v s) ∧
      (writeWord a v s).config = s.config)

/-- A word written in bounds is read back, wherever it lies but at the input register; so a fetch sees the latest
store (20_memory.md R52, R68). -/
def Obligations.ReadAfterWrite : Prop :=
  ∀ (a v : Word) (s : State), s.mem.wf → a ≠ s.config.inputAddr →
    translateAddr s.config a + 4 ≤ s.config.capacity → (readWord a (writeWord a v s)).1 = v

/-! ## Instructions -/

/-- `addi` and `addis`: base register 0 is literal zero, the sum wraps, nothing else changes (40_integer.md R100,
R101). -/
def Obligations.AddImmediateRules : Prop :=
  (∀ w : Word,
    (w &&& 0xFC000000 = 0x38000000 →
      decode w = .ok (.addi (regOf w 21) (regOf w 16) (BitVec.ofNat 16 w.toNat))) ∧
    (w &&& 0xFC000000 = 0x3C000000 →
      decode w = .ok (.addis (regOf w 21) (regOf w 16) (BitVec.ofNat 16 w.toNat)))) ∧
  ∀ (rD rA : Idx5) (imm : BitVec 16) (s : State),
    let base : Word := if rA = 0 then 0 else s.readGpr rA
    (∃ t, exec (.addi rD rA imm) s = .next t ∧
      t.readGpr rD = BitVec.ofInt 32 (base.toInt + imm.toInt) ∧ t.pc = s.pc + 4 ∧
      RegistersKept s t [rD] [] [] ∧ StatusKept s t ∧ StorageKept s t ∧ OutputKept s t) ∧
    (∃ t, exec (.addis rD rA imm) s = .next t ∧
      t.readGpr rD = BitVec.ofNat 32 (base.toNat + imm.toNat * 2 ^ 16) ∧ t.pc = s.pc + 4 ∧
      RegistersKept s t [rD] [] [] ∧ StatusKept s t ∧ StorageKept s t ∧ OutputKept s t)

/-- `add`, `subf` and `mullw`: results modulo 2^32 of the old register values, CR and everything else unchanged,
whatever Rc is; the product is the same read signed or unsigned; with bit 10 (PowerPC's OE) set an `add` is no
instruction (40_integer.md R102 to R104). -/
def Obligations.RegisterArithmeticRules : Prop :=
  (∀ w : Word,
    (w &&& 0xFC0007FE = 0x7C000214 → decode w = .ok (.add (regOf w 21) (regOf w 16) (regOf w 11))) ∧
    (w &&& 0xFC0007FE = 0x7C000050 → decode w = .ok (.subf (regOf w 21) (regOf w 16) (regOf w 11))) ∧
    (w &&& 0xFC0007FE = 0x7C0001D6 → decode w = .ok (.mullw (regOf w 21) (regOf w 16) (regOf w 11))) ∧
    (w &&& 0xFC0007FE = 0x7C000614 → decode w = .error .unknownExtendedOpcode)) ∧
  ∀ (rD rA rB : Idx5) (s : State),
    (∃ t, exec (.add rD rA rB) s = .next t ∧
      (t.readGpr rD).toNat = ((s.readGpr rA).toNat + (s.readGpr rB).toNat) % 2 ^ 32 ∧ t.pc = s.pc + 4 ∧
      RegistersKept s t [rD] [] [] ∧ StatusKept s t ∧ StorageKept s t ∧ OutputKept s t) ∧
    (∃ t, exec (.subf rD rA rB) s = .next t ∧
      ((t.readGpr rD).toNat : Int) = ((s.readGpr rB).toNat - (s.readGpr rA).toNat : Int) % 2 ^ 32 ∧
      t.pc = s.pc + 4 ∧
      RegistersKept s t [rD] [] [] ∧ StatusKept s t ∧ StorageKept s t ∧ OutputKept s t) ∧
    (∃ t, exec (.mullw rD rA rB) s = .next t ∧
      (t.readGpr rD).toNat = (s.readGpr rA).toNat * (s.readGpr rB).toNat % 2 ^ 32 ∧
      t.readGpr rD = BitVec.ofInt 32 ((s.readGpr rA).toInt * (s.readGpr rB).toInt) ∧ t.pc = s.pc + 4 ∧
      RegistersKept s t [rD] [] [] ∧ StatusKept s t ∧ StorageKept s t ∧ OutputKept s t)

/-- `andi` and `ori`, bit by bit: the immediate is zero-extended, the source is rS and the destination rA, CR is not
written (40_integer.md R105, R106). -/
def Obligations.LogicalImmediateRules : Prop :=
  (∀ w : Word,
    (w &&& 0xFC000000 = 0x70000000 →
      decode w = .ok (.andi (regOf w 21) (regOf w 16) (BitVec.ofNat 16 w.toNat))) ∧
    (w &&& 0xFC000000 = 0x60000000 →
      decode w = .ok (.ori (regOf w 21) (regOf w 16) (BitVec.ofNat 16 w.toNat)))) ∧
  ∀ (rS rA : Idx5) (imm : BitVec 16) (s : State),
    (∃ t, exec (.andi rS rA imm) s = .next t ∧
      (∀ k, k < 32 → (t.readGpr rA).getLsbD k =
        (decide (k < 16) && imm.getLsbD k && (s.readGpr rS).getLsbD k)) ∧ t.pc = s.pc + 4 ∧
      RegistersKept s t [rA] [] [] ∧ StatusKept s t ∧ StorageKept s t ∧ OutputKept s t) ∧
    (∃ t, exec (.ori rS rA imm) s = .next t ∧
      (∀ k, k < 32 → (t.readGpr rA).getLsbD k =
        ((decide (k < 16) && imm.getLsbD k) || (s.readGpr rS).getLsbD k)) ∧ t.pc = s.pc + 4 ∧
      RegistersKept s t [rA] [] [] ∧ StatusKept s t ∧ StorageKept s t ∧ OutputKept s t)

/-- `cmp`: the signed comparison in CR field crfD, whose four bits are LT, GT, EQ and SO = 0 from bit `31 − 4·crfD`
down; the other CR bits and everything else unchanged (40_integer.md R107). -/
def Obligations.CompareRule : Prop :=
  (∀ w : Word, w &&& 0xFC0007FE = 0x7C000000 →
    ∃ f : CrField, f.val = bitsOf w 23 3 ∧ decode w = .ok (.cmp f (regOf w 16) (regOf w 11))) ∧
  ∀ (f : CrField) (rA rB : Idx5) (s : State), ∃ t, exec (.cmp f rA rB) s = .next t ∧
    (t.readSpr 0).getLsbD (31 - 4 * f.val) = decide ((s.readGpr rA).toInt < (s.readGpr rB).toInt) ∧
    (t.readSpr 0).getLsbD (30 - 4 * f.val) = decide ((s.readGpr rB).toInt < (s.readGpr rA).toInt) ∧
    (t.readSpr 0).getLsbD (29 - 4 * f.val) = decide (s.readGpr rA = s.readGpr rB) ∧
    (t.readSpr 0).getLsbD (28 - 4 * f.val) = false ∧
    (∀ k, k < 32 → k < 28 - 4 * f.val ∨ 31 - 4 * f.val < k →
      (t.readSpr 0).getLsbD k = (s.readSpr 0).getLsbD k) ∧
    t.pc = s.pc + 4 ∧ RegistersKept s t [] [] [0] ∧ StatusKept s t ∧ StorageKept s t ∧ OutputKept s t

/-- `b`, `ba`, `bl`, `bla`: the target from the branch's own address or absolute, LR with the address after the
branch exactly when LK = 1 (41_branch.md R115, R116). -/
def Obligations.BranchRule : Prop :=
  (∀ w : Word, w &&& 0xFC000000 = 0x48000000 →
    decode w = .ok (.b (BitVec.ofInt 32 (4 * signedBitsOf w 2 24)) (w.getLsbD 1) (w.getLsbD 0))) ∧
  ∀ (disp : Word) (aa lk : Bool) (s : State), ∃ t, exec (.b disp aa lk) s = .next t ∧
    (aa = false → t.pc = s.pc + disp) ∧
    (aa = true → t.pc.toNat = disp.toNat / 4 * 4) ∧
    (lk = true → t.readSpr 8 = s.pc + 4 ∧ RegistersKept s t [] [] [8]) ∧
    (lk = false → RegistersKept s t [] [] []) ∧
    StatusKept s t ∧ StorageKept s t ∧ OutputKept s t

/-- `bc`, `bca`, `bcl`, `bcla`: BO[4] takes the branch always, else BO[3] is the value of CR bit BI that takes it; LR
is written exactly when LK = 1, taken or not (41_branch.md R117 to R119). -/
def Obligations.ConditionalBranchRule : Prop :=
  (∀ w : Word, w &&& 0xFC000000 = 0x40000000 →
    decode w = .ok (.bc (BitVec.ofNat 5 (bitsOf w 21 5)) (regOf w 16)
      (BitVec.ofInt 32 (4 * signedBitsOf w 2 14)) (w.getLsbD 1) (w.getLsbD 0))) ∧
  ∀ (bo : BitVec 5) (bi : Idx5) (disp : Word) (aa lk : Bool) (s : State),
    let crbit := (s.readSpr 0).getLsbD (31 - bi.val)
    let taken := bo.getLsbD 4 = true ∨ (bo.getLsbD 3 = true ∧ crbit = true) ∨
      (bo.getLsbD 3 = false ∧ crbit = false)
    ∃ t, exec (.bc bo bi disp aa lk) s = .next t ∧
      (taken → aa = false → t.pc = s.pc + disp) ∧
      (taken → aa = true → t.pc.toNat = disp.toNat / 4 * 4) ∧
      (¬taken → t.pc = s.pc + 4) ∧
      (lk = true → t.readSpr 8 = s.pc + 4 ∧ RegistersKept s t [] [] [8]) ∧
      (lk = false → RegistersKept s t [] [] []) ∧
      StatusKept s t ∧ StorageKept s t ∧ OutputKept s t

/-- `lwz`: the word at `(rA|0) + sext(d)`, big-endian; the input value at INPUT_ADDR (free, log entry 6); 0 and a
diagnostic out of bounds; it always completes and stores nothing (42_load_store.md R125, R126). -/
def Obligations.LoadWordRule : Prop :=
  (∀ w : Word, w &&& 0xFC000000 = 0x80000000 →
    decode w = .ok (.lwz (regOf w 21) (regOf w 16) (BitVec.ofNat 16 w.toNat))) ∧
  ∀ (rD rA : Idx5) (d : BitVec 16) (s : State),
    let ea : Word := BitVec.ofInt 32 ((if rA = 0 then (0 : Word) else s.readGpr rA).toInt + d.toInt)
    let p := translateAddr s.config ea
    ∃ t, exec (.lwz rD rA d) s = .next t ∧ t.pc = s.pc + 4 ∧ RegistersKept s t [rD] [] [] ∧
      StatusKept s t ∧ StorageKept s t ∧ t.audioPolls = s.audioPolls ∧
      (ea = s.config.inputAddr → t.readGpr rD = Config.inputDraw s.inputReads ∧
        t.inputReads = s.inputReads + 1 ∧ t.events = s.events) ∧
      (ea ≠ s.config.inputAddr → p + 4 ≤ s.config.capacity →
        (t.readGpr rD).toNat = (s.byteAt p).toNat * 2 ^ 24 + (s.byteAt (p + 1)).toNat * 2 ^ 16 +
          (s.byteAt (p + 2)).toNat * 2 ^ 8 + (s.byteAt (p + 3)).toNat ∧ OutputKept s t) ∧
      (ea ≠ s.config.inputAddr → s.config.capacity < p + 4 →
        t.readGpr rD = 0 ∧ t.events = s.events ++ [.outOfBounds ea] ∧ t.inputReads = s.inputReads)

/-- `stw`: the four bytes of rS at the computed address, most significant first, every other byte unchanged; a
diagnostic and nothing stored out of bounds; it always completes (42_load_store.md R125, R127; 20_memory.md R49).
The premises are the canonical form of memory and pixels, which `StepKeepsTheInvariant` keeps. -/
def Obligations.StoreWordRule : Prop :=
  (∀ w : Word, w &&& 0xFC000000 = 0x90000000 →
    decode w = .ok (.stw (regOf w 21) (regOf w 16) (BitVec.ofNat 16 w.toNat))) ∧
  ∀ (rS rA : Idx5) (d : BitVec 16) (s : State), s.mem.wf → s.pixels.wf →
    let ea : Word := BitVec.ofInt 32 ((if rA = 0 then (0 : Word) else s.readGpr rA).toInt + d.toInt)
    let p := translateAddr s.config ea
    let v := s.readGpr rS
    let i := (ea.toNat - s.config.fbStart) / 4
    let mirrored := s.config.fbStart ≤ ea.toNat ∧ ea.toNat < s.config.fbEnd ∧
      i < s.config.fbWidth * s.config.fbHeight
    ∃ t, exec (.stw rS rA d) s = .next t ∧ t.pc = s.pc + 4 ∧ RegistersKept s t [] [] [] ∧
      StatusKept s t ∧ t.config = s.config ∧ t.inputReads = s.inputReads ∧ t.audioPolls = s.audioPolls ∧
      (∀ q, q < p ∨ p + 4 ≤ q → t.byteAt q = s.byteAt q) ∧
      (p + 4 ≤ s.config.capacity →
        (t.byteAt p).toNat = v.toNat / 2 ^ 24 ∧ (t.byteAt (p + 1)).toNat = v.toNat / 2 ^ 16 % 2 ^ 8 ∧
        (t.byteAt (p + 2)).toNat = v.toNat / 2 ^ 8 % 2 ^ 8 ∧ (t.byteAt (p + 3)).toNat = v.toNat % 2 ^ 8 ∧
        (mirrored → t.pixelAt i = v) ∧
        (∀ j, ¬(mirrored ∧ j = i) → t.pixelAt j = s.pixelAt j) ∧ t.events = s.events) ∧
      (s.config.capacity < p + 4 → StorageKept s t ∧ t.events = s.events ++ [.outOfBounds ea])

/-- `ps_add`, `ps_sub` and `ps_mul`: each lane by itself, from the old lanes; nothing else changes (43_paired_single.md
R134 to R136). What `fadd32`, `fsub32` and `fmul32` are is stated by the obligations below. -/
def Obligations.PairedSingleRules : Prop :=
  (∀ w : Word,
    (w &&& 0xFC00003E = 0x1000002A → decode w = .ok (.psAdd (regOf w 21) (regOf w 16) (regOf w 11))) ∧
    (w &&& 0xFC00003E = 0x10000028 → decode w = .ok (.psSub (regOf w 21) (regOf w 16) (regOf w 11))) ∧
    (w &&& 0xFC00003E = 0x10000032 → decode w = .ok (.psMul (regOf w 21) (regOf w 16) (regOf w 6)))) ∧
  ∀ (x y z : Idx5) (s : State),
    let a := s.readFpr y
    let b := s.readFpr z
    (∃ t, exec (.psAdd x y z) s = .next t ∧
      (t.readFpr x).ps0 = fadd32 a.ps0 b.ps0 ∧ (t.readFpr x).ps1 = fadd32 a.ps1 b.ps1 ∧ t.pc = s.pc + 4 ∧
      RegistersKept s t [] [x] [] ∧ StatusKept s t ∧ StorageKept s t ∧ OutputKept s t) ∧
    (∃ t, exec (.psSub x y z) s = .next t ∧
      (t.readFpr x).ps0 = fsub32 a.ps0 b.ps0 ∧ (t.readFpr x).ps1 = fsub32 a.ps1 b.ps1 ∧ t.pc = s.pc + 4 ∧
      RegistersKept s t [] [x] [] ∧ StatusKept s t ∧ StorageKept s t ∧ OutputKept s t) ∧
    (∃ t, exec (.psMul x y z) s = .next t ∧
      (t.readFpr x).ps0 = fmul32 a.ps0 b.ps0 ∧ (t.readFpr x).ps1 = fmul32 a.ps1 b.ps1 ∧ t.pc = s.pc + 4 ∧
      RegistersKept s t [] [x] [] ∧ StatusKept s t ∧ StorageKept s t ∧ OutputKept s t)

/-! ## Paired-single numbers -/

/-- Sums, differences and products of finite lanes are the exact results rounded once with roundTiesToEven;
subnormals count as they are and are delivered; overflow gives infinity (43_paired_single.md R131). -/
def Obligations.FiniteResultsAreRoundedToNearestEven : Prop :=
  ∀ a b : Word, fpIsFinite a = true → fpIsFinite b = true →
    RoundedNearestEven 0 (fpValue a + fpValue b) (fadd32 a b) ∧
    RoundedNearestEven 0 (fpValue a - fpValue b) (fsub32 a b) ∧
    RoundedNearestEven 149 (fpValue a * fpValue b) (fmul32 a b)

/-- A result is a NaN exactly when IEEE 754 makes it one, and it is then NAN_RESULT of the operation and the
operands, some NaN pattern, nothing else being assumed of it (43_paired_single.md R132; free value, log entry 8). -/
def Obligations.NanResults : Prop :=
  (∀ (op : FpOp) (a b : Word), fpExp (nanResult op a b) = 255 ∧ fpFrac (nanResult op a b) ≠ 0) ∧
  (∀ x : Word, fpIsNaN x = true → toNaN x = x) ∧
  ∀ a b : Word,
    let nanOperand := fpIsNaN a = true ∨ fpIsNaN b = true
    let bothInf := fpIsInf a = true ∧ fpIsInf b = true
    (fpIsNaN (fadd32 a b) = true ↔ nanOperand ∨ (bothInf ∧ fpSign a ≠ fpSign b)) ∧
    (fpIsNaN (fsub32 a b) = true ↔ nanOperand ∨ (bothInf ∧ fpSign a = fpSign b)) ∧
    (fpIsNaN (fmul32 a b) = true ↔ nanOperand ∨ (fpIsInf a = true ∧ fpIsZero b = true) ∨
      (fpIsZero a = true ∧ fpIsInf b = true)) ∧
    (fpIsNaN (fadd32 a b) = true → fadd32 a b = nanResult .add a b) ∧
    (fpIsNaN (fsub32 a b) = true → fsub32 a b = nanResult .sub a b) ∧
    (fpIsNaN (fmul32 a b) = true → fmul32 a b = nanResult .mul a b)

/-- The signs of zeros and of products, and infinite operands (43_paired_single.md R133): an exact sum or difference
of zero is +0, but −0 for (−0) + (−0) and (−0) − (+0); a product has the exclusive or of the signs; an infinity passes
through a sum or difference with a finite operand or with an infinity that does not cancel it, and through a product with
anything but a zero. -/
def Obligations.SignsOfZerosAndProducts : Prop :=
  (∀ x : Word, fpIsFinite x = true → fsub32 x x = 0 ∧ fadd32 x (x ^^^ 0x80000000) = 0) ∧
  (∀ a b : Word, fpIsFinite a = true → fpIsFinite b = true →
    (fpValue a + fpValue b = 0 →
      fadd32 a b = if a = 0x80000000 ∧ b = 0x80000000 then 0x80000000 else 0x00000000) ∧
    (fpValue a - fpValue b = 0 →
      fsub32 a b = if a = 0x80000000 ∧ b = 0x00000000 then 0x80000000 else 0x00000000)) ∧
  fadd32 0x00000000 0x00000000 = 0x00000000 ∧ fadd32 0x00000000 0x80000000 = 0x00000000 ∧
  fadd32 0x80000000 0x00000000 = 0x00000000 ∧ fadd32 0x80000000 0x80000000 = 0x80000000 ∧
  fsub32 0x00000000 0x80000000 = 0x00000000 ∧ fsub32 0x80000000 0x00000000 = 0x80000000 ∧
  (∀ a b : Word, fpIsNaN (fmul32 a b) = false → fpSign (fmul32 a b) = (fpSign a ^^ fpSign b)) ∧
  (∀ a b : Word, fpIsInf a = true → fpIsFinite b = true →
    fadd32 a b = a ∧ fadd32 b a = a ∧ fsub32 a b = a ∧ fsub32 b a = a ^^^ 0x80000000) ∧
  (∀ a b : Word, fpIsInf a = true → fpIsInf b = true →
    (fpSign a = fpSign b → fadd32 a b = a) ∧ (fpSign a ≠ fpSign b → fsub32 a b = a)) ∧
  (∀ a b : Word, fpIsInf a = true → fpIsNaN b = false → fpIsZero b = false →
    fpIsInf (fmul32 a b) = true ∧ fpIsInf (fmul32 b a) = true)

/-! ## The coprocessor -/

/-- The whole poll, command by command and in the order of its accesses, in every state, wherever the registers and
blocks lie: idle on 0; the response; status 1; command 0; the interrupt (60_exceptions.md R166 to R174, which mark the
spec's decisions D18 to D21, D44, D47 and D49). The copies and reads run over k = 0, 1, … in ascending order. The free
space is a free value (log entry 7); this holds whatever it is. That an empty block of command 5 is an event too, and the
event's place after the diagnostics of the reads, are the model's reading (DEDUCED, log entry 17). -/
def Obligations.PollRule : Prop :=
  ∀ s : State,
    let base := s.config.coprocRegBase
    let read := fun (a : Word) (u : State) => readWord a u
    let c := (read base s).1
    let s1 := (read base s).2
    let finish := fun (response : Word) (u : State) =>
      raise s.config.coprocIrq (writeWord base 0 (writeWord (base + 16) 1 (writeWord (base + 4) response u)))
    let pa := read (base + 8) s1
    let w0 := read pa.1 pa.2
    let w1 := read (pa.1 + 4) w0.2
    let w2 := read (pa.1 + 8) w1.2
    let copied := (List.range (w2.1.toNat / 4)).foldl (fun u k =>
      writeWord (w1.1 + BitVec.ofNat 32 (4 * k)) (read (w0.1 + BitVec.ofNat 32 (4 * k)) u).1
        (read (w0.1 + BitVec.ofNat 32 (4 * k)) u).2) w2.2
    let asked : State := { w1.2 with audioPolls := w1.2.audioPolls + 1 }
    let free := (Config.audioFreeDraw w1.2.audioPolls).toNat
    let block := (List.range ((w1.1.toNat + 3) / 4)).foldl (fun (acc : List Byte × State) k =>
      let r := read (w0.1 + BitVec.ofNat 32 (4 * k)) acc.2
      (acc.1 ++ [r.1.extractLsb' 24 8, r.1.extractLsb' 16 8, r.1.extractLsb' 8 8, r.1.extractLsb' 0 8], r.2))
      ([], asked)
    let staged : State :=
      { block.2 with events := block.2.events ++ [.audioStage (block.1.take w1.1.toNat)] }
    (c = 0 → coprocessorPoll s = s1) ∧
    (c = 1 ∨ c = 2 → coprocessorPoll s = finish 0 s1) ∧
    (c = 3 ∨ c = 4 → coprocessorPoll s = finish 0 copied) ∧
    (c = 5 → w1.1.toNat ≤ free → coprocessorPoll s = finish 0 staged) ∧
    (c = 5 → free < w1.1.toNat → coprocessorPoll s = finish 1 asked) ∧
    (c ∉ [0, 1, 2, 3, 4, 5] → coprocessorPoll s = finish 0xFF s1)

/-- A poll that finds a command answers it, sets status to 1 and command to 0, and raises the coprocessor's
interrupt; no register but LR and no counter changes, and the machine keeps running (60_exceptions.md R167, R168 to
R173 for the response). -/
def Obligations.CommandCompletion : Prop :=
  ∀ (s : State) (p : Nat), s.mem.wf → CoprocAt s.config p → s.mem.wordAt p ≠ 0 →
    let c := s.mem.wordAt p
    let t := coprocessorPoll s
    t.mem.wordAt p = 0 ∧ t.mem.wordAt (p + 16) = 1 ∧
    (c = 1 ∨ c = 2 ∨ c = 3 ∨ c = 4 → t.mem.wordAt (p + 4) = 0) ∧
    (c = 5 → t.mem.wordAt (p + 4) = 0 ∨ t.mem.wordAt (p + 4) = 1) ∧
    (¬(c = 1 ∨ c = 2 ∨ c = 3 ∨ c = 4 ∨ c = 5) → t.mem.wordAt (p + 4) = 0xFF) ∧
    (s.interruptsEnabled = false → t.pc = s.pc ∧ t.readSpr 8 = s.readSpr 8 ∧
      t.interruptsEnabled = false ∧ t.kernelMode = s.kernelMode) ∧
    (s.interruptsEnabled = true → t.pc = vectorFor s.config s.config.coprocIrq ∧ t.readSpr 8 = s.pc ∧
      t.interruptsEnabled = false ∧ t.kernelMode = true) ∧
    RegistersKept s t [] [] [8] ∧ t.running = s.running ∧ t.cycleCount = s.cycleCount

/-- Initialize and Reset answer 0, an unknown command answers 0xFF, the whole word being compared; beside the
response, status and command registers none of them changes a byte, and beside the pixels that mirror these three none
changes a pixel; no event is emitted and nothing drawn; pc, LR, the interrupt enable and the mode are those of the
completion interrupt, or as before while interrupts are disabled; nothing else changes (60_exceptions.md R167 to R169,
R173). -/
def Obligations.PlainCommandsTouchNothingElse : Prop :=
  ∀ (s : State) (p : Nat), s.mem.wf → CoprocAt s.config p → s.mem.wordAt p ≠ 0 →
    s.mem.wordAt p ≠ 3 → s.mem.wordAt p ≠ 4 → s.mem.wordAt p ≠ 5 →
    let t := coprocessorPoll s
    let interrupted := raise s.config.coprocIrq s
    t.mem.wordAt (p + 4) = (if s.mem.wordAt p = 1 ∨ s.mem.wordAt p = 2 then 0 else 0xFF) ∧
    (∀ q, q < p ∨ (p + 8 ≤ q ∧ q < p + 16) ∨ p + 20 ≤ q → t.byteAt q = s.byteAt q) ∧
    (∀ j, (∀ k ∈ [0, 4, 16], pixelIndex s.config (s.config.coprocRegBase + k) ≠ some j) →
      t.pixelAt j = s.pixelAt j) ∧
    RegistersKept s t [] [] [8] ∧ t.readSpr 8 = interrupted.readSpr 8 ∧ t.pc = interrupted.pc ∧
    t.interruptsEnabled = interrupted.interruptsEnabled ∧ t.kernelMode = interrupted.kernelMode ∧
    t.running = s.running ∧ t.cycleCount = s.cycleCount ∧ t.config = s.config ∧ OutputKept s t

/-- Commands 3 and 4 copy `floor(size / 4)` words where the destination does not start inside the source, whatever
the source overlaps else; every byte outside the destination and the three registers written is unchanged
(60_exceptions.md R170, R171, R175). -/
def Obligations.DmaCopiesTheBlock : Prop :=
  ∀ (s : State) (p pp ps pd : Nat), s.mem.wf → CoprocAt s.config p →
    s.mem.wordAt p = 3 ∨ s.mem.wordAt p = 4 → WordsReadAt s.config (s.mem.wordAt (p + 8)) pp 3 →
    let n := (s.mem.wordAt (pp + 8)).toNat / 4
    WordsReadAt s.config (s.mem.wordAt pp) ps n → WordsLieAt s.config (s.mem.wordAt (pp + 4)) pd n →
    pd ≤ ps ∨ ps + 4 * n ≤ pd → pd + 4 * n ≤ p ∨ p + 20 ≤ pd →
    let t := coprocessorPoll s
    (∀ k, k < n → t.mem.wordAt (pd + 4 * k) = s.mem.wordAt (ps + 4 * k)) ∧
    (∀ q, q < pd ∨ pd + 4 * n ≤ q → q < p ∨ (p + 8 ≤ q ∧ q < p + 16) ∨ p + 20 ≤ q →
      t.byteAt q = s.byteAt q) ∧
    t.mem.wordAt (p + 4) = 0 ∧ OutputKept s t

/-- A destination above the source by 4·m bytes, m words below the count, is filled with repeats of the first m
source words: the copy ascends word by word (60_exceptions.md R175). -/
def Obligations.DmaOverlapRepeatsTheFirstWords : Prop :=
  ∀ (s : State) (p pp ps m : Nat), s.mem.wf → CoprocAt s.config p →
    s.mem.wordAt p = 3 ∨ s.mem.wordAt p = 4 → WordsReadAt s.config (s.mem.wordAt (p + 8)) pp 3 →
    let n := (s.mem.wordAt (pp + 8)).toNat / 4
    WordsReadAt s.config (s.mem.wordAt pp) ps n →
    WordsLieAt s.config (s.mem.wordAt (pp + 4)) (ps + 4 * m) n →
    0 < m → m < n → ps + 4 * m + 4 * n ≤ p ∨ p + 20 ≤ ps →
    ∀ k, k < n → (coprocessorPoll s).mem.wordAt (ps + 4 * m + 4 * k) = s.mem.wordAt (ps + 4 * (k % m))

/-- Command 5: where the block fits the free space the audio sink reports, its bytes in memory order go out as one
staged block and the response is 0; else nothing is staged and the response is 1. The free space is a free value
(log entry 7); this holds whatever it is (60_exceptions.md R172). That a block of size 0 is one event too is the model's
reading (DEDUCED, log entry 17). -/
def Obligations.AudioCommand : Prop :=
  ∀ (s : State) (p pp pb : Nat), s.mem.wf → CoprocAt s.config p → s.mem.wordAt p = 5 →
    WordsReadAt s.config (s.mem.wordAt (p + 8)) pp 2 →
    let size := (s.mem.wordAt (pp + 4)).toNat
    WordsReadAt s.config (s.mem.wordAt pp) pb ((size + 3) / 4) →
    let t := coprocessorPoll s
    (size ≤ (Config.audioFreeDraw s.audioPolls).toNat →
      t.mem.wordAt (p + 4) = 0 ∧
      t.events = s.events ++ [.audioStage ((List.range size).map (fun k => s.byteAt (pb + k)))]) ∧
    ((Config.audioFreeDraw s.audioPolls).toNat < size →
      t.mem.wordAt (p + 4) = 1 ∧ t.events = s.events) ∧
    t.audioPolls = s.audioPolls + 1 ∧ t.inputReads = s.inputReads ∧
    (∀ q, q < p ∨ (p + 8 ≤ q ∧ q < p + 16) ∨ p + 20 ≤ q → t.byteAt q = s.byteAt q)

/-! ## Interrupts within a step -/

/-- At most one interrupt is taken in a step. When `sc` takes its own, pc, LR and the status are those of the system
call after the poll too, whatever the poll finds and wherever the coprocessor's registers lie; a command pending in
registers that lie in the buffer completes all the same, response, status and command, and its interrupt is lost. No
other instruction takes an interrupt before the poll (60_exceptions.md R159). -/
def Obligations.SystemCallBeatsTheCoprocessor : Prop :=
  (∀ s t : State, step s = .next t → decode (readWord s.pc s).1 = .ok .sc → s.interruptsEnabled = true →
    (t.pc = vectorFor s.config s.config.syscallIrq ∧ t.readSpr 8 = s.pc + 4 ∧
      t.interruptsEnabled = false ∧ t.kernelMode = true) ∧
    (∀ p : Nat, s.mem.wf → CoprocAt s.config p → s.mem.wordAt p ≠ 0 →
      let c := s.mem.wordAt p
      t.mem.wordAt p = 0 ∧ t.mem.wordAt (p + 16) = 1 ∧
      (c = 1 ∨ c = 2 ∨ c = 3 ∨ c = 4 → t.mem.wordAt (p + 4) = 0) ∧
      (c = 5 → t.mem.wordAt (p + 4) = 0 ∨ t.mem.wordAt (p + 4) = 1) ∧
      (c ∉ [1, 2, 3, 4, 5] → t.mem.wordAt (p + 4) = 0xFF))) ∧
  (∀ (i : Instr) (s u : State), exec i s = .next u → i ≠ .sc →
    u.kernelMode = s.kernelMode ∧
    (u.interruptsEnabled = s.interruptsEnabled ∨ (i = .rfi ∧ u.interruptsEnabled = true)))

/-- The coprocessor's interrupt is precise: LR is the pc the executed instruction left, the address of the first
instruction not yet executed, even over a link value the instruction has just written (60_exceptions.md R158;
41_branch.md R124). -/
def Obligations.PollInterruptSavesTheNextInstruction : Prop :=
  ∀ (s t u : State) (i : Instr) (p : Nat), step s = .next t → decode (readWord s.pc s).1 = .ok i →
    exec i (readWord s.pc s).2 = .next u → u.interruptsEnabled = true →
    CoprocAt s.config p → u.mem.wordAt p ≠ 0 →
    t.readSpr 8 = u.pc ∧ t.pc = vectorFor s.config s.config.coprocIrq ∧
    t.interruptsEnabled = false ∧ t.kernelMode = true

/-- While interrupts are disabled no step but that of `rfi` takes an interrupt, whatever command is pending
(60_exceptions.md R156, R162). -/
def Obligations.NoInterruptWhileDisabled : Prop :=
  ∀ (s t u : State) (i : Instr), step s = .next t → decode (readWord s.pc s).1 = .ok i → i ≠ .rfi →
    exec i (readWord s.pc s).2 = .next u → s.interruptsEnabled = false →
    t.interruptsEnabled = false ∧ t.kernelMode = s.kernelMode ∧ t.pc = u.pc ∧ t.readSpr 8 = u.readSpr 8
end

