-- ==== Sys2Proof/Laws/Bits.lean ====
section
/-! SUPPORT. Fields of a word as arithmetic, so that omega can read an encoding, and the bytes of a word. -/

namespace Sys2Proof

/-- Concatenation as arithmetic: the left part counts in units of the right part's width. -/
theorem toNat_append_add {m n : Nat} (x : BitVec m) (y : BitVec n) :
    (x ++ y).toNat = x.toNat * 2 ^ n + y.toNat := by
  rw [BitVec.toNat_append, ← Nat.shiftLeft_add_eq_or_of_lt y.isLt, Nat.shiftLeft_eq]

/-- A field as arithmetic. -/
theorem toNat_field {w : Nat} (x : BitVec w) (lo n : Nat) :
    (x.extractLsb' lo n).toNat = x.toNat / 2 ^ lo % 2 ^ n := by
  rw [BitVec.extractLsb'_toNat, Nat.shiftRight_eq_div_pow]

theorem wordOfBytes_bytes (v : Word) :
    wordOfBytes (byteOfWord v 0) (byteOfWord v 1) (byteOfWord v 2) (byteOfWord v 3) = v := by
  apply BitVec.eq_of_toNat_eq
  have := v.isLt
  simp only [wordOfBytes, byteOfWord, toNat_append_add, toNat_field]
  norm_num
  omega

theorem byteOfWord_wordOfBytes (b0 b1 b2 b3 : Byte) :
    byteOfWord (wordOfBytes b0 b1 b2 b3) 0 = b0 ∧ byteOfWord (wordOfBytes b0 b1 b2 b3) 1 = b1 ∧
    byteOfWord (wordOfBytes b0 b1 b2 b3) 2 = b2 ∧ byteOfWord (wordOfBytes b0 b1 b2 b3) 3 = b3 := by
  have h0 := b0.isLt
  have h1 := b1.isLt
  have h2 := b2.isLt
  have h3 := b3.isLt
  refine ⟨?_, ?_, ?_, ?_⟩ <;> apply BitVec.eq_of_toNat_eq <;>
    simp only [wordOfBytes, byteOfWord, toNat_append_add, toNat_field] <;> norm_num <;> omega

/-! ## Masks of the opcode table -/

/-- The mask of a primary opcode. -/
theorem and_opcdMask (w : Word) : w &&& 0xFC000000#32 = BitVec.ofNat 32 (w.toNat / 2 ^ 26 * 2 ^ 26) := by
  have h : w &&& 0xFC000000#32 = w.extractLsb' 26 6 ++ 0#26 := by
    apply BitVec.eq_of_getLsbD_eq
    intro k hk
    simp only [BitVec.getLsbD_and, BitVec.getLsbD_append, BitVec.getLsbD_extractLsb']
    interval_cases k <;> simp
  rw [h]
  apply BitVec.eq_of_toNat_eq
  simp only [toNat_append_add, toNat_field]
  simp
  omega

/-- The mask of a primary opcode and the 10-bit selector. -/
theorem and_xo10Mask (w : Word) :
    w &&& 0xFC0007FE#32 = BitVec.ofNat 32 (w.toNat / 2 ^ 26 * 2 ^ 26 + w.toNat / 2 % 2 ^ 10 * 2) := by
  have h : w &&& 0xFC0007FE#32 = w.extractLsb' 26 6 ++ 0#15 ++ w.extractLsb' 1 10 ++ 0#1 := by
    apply BitVec.eq_of_getLsbD_eq
    intro k hk
    simp only [BitVec.getLsbD_and, BitVec.getLsbD_append, BitVec.getLsbD_extractLsb']
    interval_cases k <;> simp
  rw [h]
  apply BitVec.eq_of_toNat_eq
  simp only [toNat_append_add, toNat_field]
  simp
  omega

/-- The mask of a primary opcode and the 5-bit selector. -/
theorem and_xo5Mask (w : Word) :
    w &&& 0xFC00003E#32 = BitVec.ofNat 32 (w.toNat / 2 ^ 26 * 2 ^ 26 + w.toNat / 2 % 2 ^ 5 * 2) := by
  have h : w &&& 0xFC00003E#32 = w.extractLsb' 26 6 ++ 0#20 ++ w.extractLsb' 1 5 ++ 0#1 := by
    apply BitVec.eq_of_getLsbD_eq
    intro k hk
    simp only [BitVec.getLsbD_and, BitVec.getLsbD_append, BitVec.getLsbD_extractLsb']
    interval_cases k <;> simp
  rw [h]
  apply BitVec.eq_of_toNat_eq
  simp only [toNat_append_add, toNat_field]
  simp
  omega

/-! ## Encodings as arithmetic -/

section Encodings

variable (op : BitVec 6) (x y z t : Idx5)

theorem encD_toNat (imm : BitVec 16) :
    (encD op x y imm).toNat = op.toNat * 2 ^ 26 + x.val * 2 ^ 21 + y.val * 2 ^ 16 + imm.toNat := by
  simp only [encD, bits5, toNat_append_add, BitVec.toNat_ofFin]
  omega

theorem encXO_toNat (xo : BitVec 10) :
    (encXO op x y z xo).toNat =
      op.toNat * 2 ^ 26 + x.val * 2 ^ 21 + y.val * 2 ^ 16 + z.val * 2 ^ 11 + xo.toNat * 2 := by
  simp only [encXO, bits5, toNat_append_add, BitVec.toNat_ofFin]
  simp
  omega

theorem encX_toNat (xo : BitVec 10) : (encX op xo).toNat = op.toNat * 2 ^ 26 + xo.toNat * 2 := by
  simp only [encX, toNat_append_add]
  simp
  omega

theorem encA_toNat (xo : BitVec 5) :
    (encA x y z t xo).toNat =
      4 * 2 ^ 26 + x.val * 2 ^ 21 + y.val * 2 ^ 16 + z.val * 2 ^ 11 + t.val * 2 ^ 6 + xo.toNat * 2 := by
  simp only [encA, bits5, toNat_append_add, BitVec.toNat_ofFin]
  simp
  omega

theorem encode_cmp_toNat (crfD : CrField) :
    (encode (.cmp crfD x y)).toNat = 31 * 2 ^ 26 + crfD.val * 2 ^ 23 + x.val * 2 ^ 16 + y.val * 2 ^ 11 := by
  simp only [encode, bits5, toNat_append_add, BitVec.toNat_ofFin]
  simp
  omega

theorem encode_b_toNat (disp : Word) (aa lk : Bool) :
    (encode (.b disp aa lk)).toNat =
      18 * 2 ^ 26 + disp.toNat / 4 % 2 ^ 24 * 4 + aa.toNat * 2 + lk.toNat := by
  simp only [encode, toNat_append_add, toNat_field, BitVec.toNat_ofBool]
  simp
  omega

theorem encode_bc_toNat (bo : BitVec 5) (disp : Word) (aa lk : Bool) :
    (encode (.bc bo x disp aa lk)).toNat =
      16 * 2 ^ 26 + bo.toNat * 2 ^ 21 + x.val * 2 ^ 16 + disp.toNat / 4 % 2 ^ 14 * 4 + aa.toNat * 2 +
        lk.toNat := by
  simp only [encode, bits5, toNat_append_add, toNat_field, BitVec.toNat_ofBool, BitVec.toNat_ofFin]
  simp
  omega

end Encodings

end Sys2Proof
end

