-- ==== Sys2Proof/Laws/Binary32.lean ====
section
/-! SUPPORT. Binary32 patterns as arithmetic, and what rounding to nearest even does to an exact number. -/

namespace Sys2Proof.Machine

/-- The exponent field as arithmetic. -/
theorem fpExp_eq (x : Word) : fpExp x = x.toNat / 2 ^ 23 % 2 ^ 8 := by rw [fpExp, toNat_field]

/-- The fraction field as arithmetic. -/
theorem fpFrac_eq (x : Word) : fpFrac x = x.toNat % 2 ^ 23 := by rw [fpFrac, toNat_field]; simp

/-- A packed pattern as arithmetic. -/
theorem fpPack_toNat (s : Bool) (b : Nat) (h : b < 2 ^ 31) : (fpPack s b).toNat = s.toNat * 2 ^ 31 + b := by
  rw [fpPack, toNat_append_add, BitVec.toNat_ofBool, BitVec.toNat_ofNat, Nat.mod_eq_of_lt h]

theorem fpExp_pack (s : Bool) (b : Nat) (h : b < 2 ^ 31) : fpExp (fpPack s b) = b / 2 ^ 23 := by
  rw [fpExp_eq, fpPack_toNat s b h]; have := Bool.toNat_lt s; omega

theorem fpFrac_pack (s : Bool) (b : Nat) (h : b < 2 ^ 31) : fpFrac (fpPack s b) = b % 2 ^ 23 := by
  rw [fpFrac_eq, fpPack_toNat s b h]; omega

theorem fpSign_pack (s : Bool) (b : Nat) : fpSign (fpPack s b) = s := by
  rw [fpSign, fpPack, BitVec.getLsbD_append]; simp

/-- The last bit of a packed pattern. -/
theorem fpPack_lowBit (s : Bool) (b : Nat) : (fpPack s b).getLsbD 0 = decide (b % 2 = 1) := by
  rw [fpPack, BitVec.getLsbD_append]; simp [BitVec.getLsbD, Nat.testBit_zero]

/-- The magnitude of a pattern whose low 31 bits are `k · 2 ^ 23 + r`, carry into the exponent included. -/
theorem fpMag_pack (s : Bool) {k r : Nat} (hr : r ≤ 2 ^ 24) (hk : k = 0 ∨ 2 ^ 23 ≤ r)
    (hb : k * 2 ^ 23 + r < 2 ^ 31) :
    fpMag (fpPack s (k * 2 ^ 23 + r)) = r * 2 ^ k := by
  rw [fpMag, fpExp_pack s _ hb, fpFrac_pack s _ hb]
  rcases Nat.lt_or_ge r (2 ^ 23) with h | h
  · have : k = 0 := by omega
    subst this; rw [if_pos (by omega)]; omega
  · rcases Nat.lt_or_ge r (2 ^ 24) with h2 | h2
    · have e1 : (k * 2 ^ 23 + r) / 2 ^ 23 = k + 1 := by omega
      have e2 : (k * 2 ^ 23 + r) % 2 ^ 23 = r - 2 ^ 23 := by omega
      rw [e1, e2, if_neg (by omega), Nat.add_sub_cancel, show 2 ^ 23 + (r - 2 ^ 23) = r by omega]
    · have : r = 2 ^ 24 := by omega
      have e1 : (k * 2 ^ 23 + r) / 2 ^ 23 = k + 2 := by omega
      have e2 : (k * 2 ^ 23 + r) % 2 ^ 23 = 0 := by omega
      have e3 : 2 ^ (k+1) = 2 ^ k * 2 := Nat.pow_succ ..
      rw [e1, e2, if_neg (by omega), show k + 2 - 1 = k + 1 by omega, e3, Nat.add_zero, this]
      generalize 2 ^ k = y; omega

/-- Rounding half to even lands at most half a unit below or above, and in a tie on an even number. -/
theorem roundHalfEven_cases (n d : Nat) : let r := roundHalfEven n d
   (r * 2 ^ d ≤ n ∧ 2 * (n - r * 2 ^ d) ≤ 2 ^ d ∧ (2 * (n - r * 2 ^ d) = 2 ^ d → r % 2 = 0)) ∨
   (n ≤ r * 2 ^ d ∧ 2 * (r * 2 ^ d - n) ≤ 2 ^ d ∧ (2 * (r * 2 ^ d - n) = 2 ^ d → r % 2 = 0)) := by
  intro r
  have h1 := Nat.div_add_mod n (2 ^ d)
  have h2 := Nat.mod_lt n (show 0 < 2 ^ d by positivity)
  have hr : r = roundHalfEven n d := rfl
  unfold roundHalfEven at hr
  generalize hq : n / 2 ^ d = q at *
  generalize hm : n % 2 ^ d = m at *
  have e1 : (q + 1) * 2 ^ d = 2 ^ d * q + 2 ^ d := by ring
  have e0 : q * 2 ^ d = 2 ^ d * q := by ring
  split at hr
  · rw [hr, e1]; right; refine ⟨by omega, by omega, by omega⟩
  · rw [hr, e0]; left; refine ⟨by omega, by omega, by omega⟩

/-- Of all multiples of `2 ^ d` none is nearer than the rounded one, and in a tie the rounded one is even. -/
theorem roundHalfEven_nearest (n d j : Nat) :
    ((n : Int) - (roundHalfEven n d * 2 ^ d : Nat)).natAbs ≤
      ((n : Int) - (j * 2 ^ d : Nat)).natAbs ∧
    (((n : Int) - (j * 2 ^ d : Nat)).natAbs = ((n : Int) - (roundHalfEven n d * 2 ^ d : Nat)).natAbs →
      j ≠ roundHalfEven n d → roundHalfEven n d % 2 = 0) := by
  have h := roundHalfEven_cases n d
  simp only at h
  generalize roundHalfEven n d = r at h
  have hp : 0 < 2 ^ d := by positivity
  rcases lt_trichotomy j r with hj | hj | hj
  · obtain ⟨e, rfl⟩ : ∃ e, r = j + 1 + e := ⟨r - j - 1, by omega⟩
    have e1 : (j + 1 + e) * 2 ^ d = j * 2 ^ d + 2 ^ d + e * 2 ^ d := by ring
    generalize j * 2 ^ d = a at *
    generalize e * 2 ^ d = b at *
    generalize 2 ^ d = c at *
    refine ⟨by omega, fun h1 _ => ?_⟩
    rcases h with ⟨h2, h3, h4⟩ | ⟨h2, h3, h4⟩ <;> apply h4 <;> omega
  · subst hj; exact ⟨le_refl _, fun _ h => absurd rfl h⟩
  · obtain ⟨e, rfl⟩ : ∃ e, j = r + 1 + e := ⟨j - r - 1, by omega⟩
    have e1 : (r + 1 + e) * 2 ^ d = r * 2 ^ d + 2 ^ d + e * 2 ^ d := by ring
    generalize r * 2 ^ d = a at *
    generalize e * 2 ^ d = b at *
    generalize 2 ^ d = c at *
    refine ⟨by omega, fun h1 _ => ?_⟩
    rcases h with ⟨h2, h3, h4⟩ | ⟨h2, h3, h4⟩ <;> apply h4 <;> omega

/-- The rounded significand of a normal result, 24 bits or the carry out of them. -/
theorem roundHalfEven_range {n d : Nat} (h1 : 2 ^ (d+23) ≤ n) (h2 : n < 2 ^ (d+24)) :
    2 ^ 23 ≤ roundHalfEven n d ∧ roundHalfEven n d ≤ 2 ^ 24 := by
  have a : 2 ^ 23 ≤ n / 2 ^ d := by
    rw [Nat.le_div_iff_mul_le (by positivity), ← Nat.pow_add, Nat.add_comm]; exact h1
  have b : n / 2 ^ d < 2 ^ 24 := by
    rw [Nat.div_lt_iff_lt_mul (by positivity), ← Nat.pow_add, Nat.add_comm]; exact h2
  unfold roundHalfEven; split <;> omega

/-- Either the unit is the smallest subnormal, or the number has exactly 24 bits above the dropped ones. -/
theorem dropBits_cases (n q : Nat) (hn : 0 < n) :
    (dropBits n q = q ∧ n < 2 ^ (q+24)) ∨
    (q < dropBits n q ∧ 2 ^ (dropBits n q + 23) ≤ n ∧ n < 2 ^ (dropBits n q + 24)) := by
  have h1 := Nat.log2_self_le (n := n) (by omega)
  have h2 := Nat.lt_log2_self (n := n)
  unfold dropBits
  rcases Nat.lt_or_ge q (Nat.log2 n - 23) with h | h
  · right
    rw [Nat.max_eq_left h.le]
    refine ⟨h, ?_, ?_⟩
    · rwa [show n.log2 - 23 + 23 = n.log2 by omega]
    · rwa [show n.log2 - 23 + 24 = n.log2 + 1 by omega]
  · left
    rw [Nat.max_eq_right h]
    exact ⟨rfl, lt_of_lt_of_le h2 (Nat.pow_le_pow_right (by omega) (by omega))⟩

/-- A rounded significand never needs more than the carry out of 24 bits. -/
theorem roundHalfEven_le {n d : Nat} (h2 : n < 2 ^ (d+24)) : roundHalfEven n d ≤ 2 ^ 24 := by
  have b : n / 2 ^ d < 2 ^ 24 := by
    rw [Nat.div_lt_iff_lt_mul (by positivity), ← Nat.pow_add, Nat.add_comm]; exact h2
  unfold roundHalfEven; split <;> omega

theorem lt_dropBits (n q : Nat) (hn : 0 < n) : n < 2 ^ (dropBits n q + 24) := by
  rcases dropBits_cases n q hn with ⟨a, b⟩ | ⟨a, b, c⟩
  · rw [a]; exact b
  · exact c

/-- Below half a unit beyond the largest finite number the rounded pattern is finite. -/
theorem round_below_infinity {n q : Nat} (hn : 0 < n) (h : n < (2 ^ 25-1) * 2 ^ (252+q)) :
    (dropBits n q - q) * 2 ^ 23 + roundHalfEven n (dropBits n q) < fpInfBits := by
  have hr := roundHalfEven_le (lt_dropBits n q hn)
  rcases dropBits_cases n q hn with ⟨a, b⟩ | ⟨a, b, c⟩
  · rw [a] at hr ⊢; simp only [fpInfBits]; omega
  · have h3 : 2 ^ (dropBits n q + 23) < 2 ^ (277+q) := by
      refine lt_of_le_of_lt b (lt_trans h ?_)
      have : 2 ^ (277+q) = 2 ^ 25 * 2 ^ (252+q) := by rw [← Nat.pow_add]; congr 1; omega
      rw [this]; exact Nat.mul_lt_mul_of_pos_right (by omega) (by positivity)
    have h4 := (Nat.pow_lt_pow_iff_right (a := 2) (by omega)).1 h3
    rcases Nat.lt_or_ge (dropBits n q) (253+q) with h5 | h5
    · simp only [fpInfBits]; omega
    · have h6 : dropBits n q = 253 + q := by omega
      have : roundHalfEven n (dropBits n q) < 2 ^ 24 := by
        rw [h6]
        have e : n < (2 ^ 24-1) * 2 ^ (253+q) + 2 ^ (252+q) := by
          have : 2 ^ (253+q) = 2 * 2 ^ (252+q) := by rw [← Nat.pow_succ']; congr 1; omega
          rw [this]; omega
        have e2 : 2 ^ (253+q) = 2 * 2 ^ (252+q) := by rw [← Nat.pow_succ']; congr 1; omega
        have hh := roundHalfEven_cases n (253+q)
        simp only at hh
        by_contra hc
        have hc : roundHalfEven n (253+q) = 2 ^ 24 := by rw [h6] at hr; omega
        rw [hc] at hh
        omega
      simp only [fpInfBits]; omega

/-- From half a unit beyond the largest finite number on the pattern reaches infinity. -/
theorem round_reaches_infinity {n q : Nat} (h : (2 ^ 25-1) * 2 ^ (252+q) ≤ n) :
    fpInfBits ≤ (dropBits n q - q) * 2 ^ 23 + roundHalfEven n (dropBits n q) := by
  have hp : 0 < 2 ^ (252+q) := by positivity
  have hn : 0 < n := by omega
  have e276 : 2 ^ (276+q) = 2 ^ 24 * 2 ^ (252+q) := by rw [← Nat.pow_add]; congr 1; omega
  rcases dropBits_cases n q hn with ⟨a, b⟩ | ⟨a, b, c⟩
  · exfalso
    have : 2 ^ (q+24) ≤ 2 ^ (276+q) := Nat.pow_le_pow_right (by omega) (by omega)
    omega
  · have h3 : 2 ^ (276+q) < 2 ^ (dropBits n q + 24) := by omega
    have h4 := (Nat.pow_lt_pow_iff_right (a := 2) (by omega)).1 h3
    have hr := roundHalfEven_range b c
    rcases Nat.lt_or_ge (253 + q) (dropBits n q) with h5 | h5
    · simp only [fpInfBits]; omega
    · have h6 : dropBits n q = 253 + q := by omega
      have : 2 ^ 24 ≤ roundHalfEven n (dropBits n q) := by
        rw [h6]
        have e2 : 2 ^ (253+q) = 2 * 2 ^ (252+q) := by rw [← Nat.pow_succ']; congr 1; omega
        have hh := roundHalfEven_cases n (253+q)
        simp only at hh
        by_contra hc
        have hc : roundHalfEven n (253+q) ≤ 2 ^ 24 - 1 := by omega
        have h7 := Nat.mul_le_mul_right (2 ^ (253+q)) hc
        rw [e2] at hh h7
        rcases Nat.lt_or_ge (roundHalfEven n (253+q)) (2 ^ 24-1) with h8 | h8
        · have h9 := Nat.mul_le_mul_right (2 * 2 ^ (252+q)) (show roundHalfEven n (253+q) + 1 ≤ 2 ^ 24 - 1 by omega)
          have : (roundHalfEven n (253+q) + 1) * (2 * 2 ^ (252+q)) =
              roundHalfEven n (253+q) * (2 * 2 ^ (252+q)) + (2 * 2 ^ (252+q)) := by ring
          omega
        · have : roundHalfEven n (253+q) = 2 ^ 24-1 := by omega
          rw [this] at hh
          omega
      simp only [fpInfBits]; omega

/-- A magnitude is a 24-bit significand times a power of two. -/
theorem fpMag_form (x : Word) : ∃ sig e, sig < 2 ^ 24 ∧ fpMag x = sig * 2 ^ e := by
  have := fpFrac_eq x
  unfold fpMag
  split
  · exact ⟨fpFrac x, 0, by omega, by simp⟩
  · exact ⟨2 ^ 23 + fpFrac x, fpExp x - 1, by omega, rfl⟩

/-- The magnitude is the absolute value. -/
theorem fpValue_natAbs (x : Word) : (fpValue x).natAbs = fpMag x := by unfold fpValue; split <;> simp

/-- A sign change changes the sign alone. -/
theorem fpNegate_fields (x : Word) :
    fpExp (fpNegate x) = fpExp x ∧ fpFrac (fpNegate x) = fpFrac x ∧ fpSign (fpNegate x) = !fpSign x := by
  refine ⟨?_, ?_, ?_⟩
  · unfold fpExp fpNegate
    congr 1
    apply BitVec.eq_of_getLsbD_eq; intro k hk
    simp only [BitVec.getLsbD_extractLsb', BitVec.getLsbD_xor]
    interval_cases k <;> simp
  · unfold fpFrac fpNegate
    congr 1
    apply BitVec.eq_of_getLsbD_eq; intro k hk
    simp only [BitVec.getLsbD_extractLsb', BitVec.getLsbD_xor]
    interval_cases k <;> simp
  · simp [fpSign, fpNegate]

/-- A sign change negates the value. -/
theorem fpValue_negate (x : Word) : fpValue (fpNegate x) = - fpValue x := by
  obtain ⟨a, b, c⟩ := fpNegate_fields x
  have : fpMag (fpNegate x) = fpMag x := by unfold fpMag; rw [a, b]
  unfold fpValue; rw [this, c]; cases fpSign x <;> simp

/-- A word is its three fields. -/
theorem fpPack_fields (x : Word) : fpPack (fpSign x) (fpExp x * 2 ^ 23 + fpFrac x) = x := by
  have h1 := fpExp_eq x
  have h2 := fpFrac_eq x
  have h4 := x.isLt
  have h3 : (fpSign x).toNat = x.toNat / 2 ^ 31 := by
    rw [fpSign, BitVec.getLsbD, Nat.testBit_eq_decide_div_mod_eq]
    rcases (show x.toNat / 2 ^ 31 = 0 ∨ x.toNat / 2 ^ 31 = 1 by omega) with h | h <;> rw [h] <;> rfl
  apply BitVec.eq_of_toNat_eq
  rw [fpPack_toNat _ _ (by omega), h3]
  omega

/-- The one negative zero. -/
theorem eq_negativeZero_iff (x : Word) : x = 0x80000000#32 ↔ fpSign x = true ∧ fpValue x = 0 := by
  refine ⟨by rintro rfl; decide, fun ⟨hs, hv⟩ => ?_⟩
  have hm := fpValue_natAbs x
  rw [hv, fpMag] at hm
  split at hm
  · rename_i he
    rw [← fpPack_fields x, hs, he, ← hm]; rfl
  · have : 0 < 2 ^ (fpExp x - 1) := by positivity
    have := Nat.mul_pos (show 0 < 2 ^ 23 + fpFrac x by omega) this
    exact absurd hm (by simp only [Int.natAbs_zero]; omega)

/-- An exact sum of zero is −0 for −0 + −0 and +0 else (43_paired_single.md R133). -/
theorem fpAddFinite_zero {a b : Word} (h : fpValue a + fpValue b = 0) :
    fpAddFinite a b = if a = 0x80000000#32 ∧ b = 0x80000000#32 then 0x80000000#32 else 0x00000000#32 := by
  rw [fpAddFinite, if_pos h]
  simp only [eq_negativeZero_iff]
  cases ha : fpSign a <;> cases hb : fpSign b <;> simp
  · decide
  · decide
  · decide
  · have va : fpValue a = -(fpMag a : Int) := by rw [fpValue, if_pos ha]
    have vb : fpValue b = -(fpMag b : Int) := by rw [fpValue, if_pos hb]
    rw [if_pos ⟨by omega, by omega⟩]; decide

end Sys2Proof.Machine
end

