-- ==== Sys2Proof/Laws/Memory.lean ====
section
/-! SUPPORT. The sparse lists behind memory and pixels: read after write, canonical form, key bounds. -/

namespace Sys2Proof.Machine

section Cells

variable {α : Type} {z : α} {l : List (Nat × α)} {a b n : Nat} {v : α}

/-- A key below every key of a list reads as the unlisted value. -/
theorem cellRead_of_lt_all (h : ∀ c ∈ l, a < c.1) : cellRead z l a = z := by
  induction l with
  | nil => rfl
  | cons c rest ih =>
    have hc := h c (by simp)
    rw [cellRead, if_neg (by omega)]
    exact ih fun d hd => h d (by simp [hd])

/-- At or beyond the bound nothing is listed. -/
theorem cellRead_of_below (h : cellsBelow n l) (ha : n ≤ a) : cellRead z l a = z := by
  induction l with
  | nil => rfl
  | cons c rest ih =>
    have hc := h c (by simp)
    rw [cellRead, if_neg (by omega)]
    exact ih fun d hd => h d (by simp [hd])

variable [DecidableEq α]

/-- A write leaves every other key alone, in any list. -/
theorem cellRead_write_ne (h : b ≠ a) : cellRead z (cellWrite z l a v) b = cellRead z l b := by
  induction l with
  | nil => simp only [cellWrite]; split <;> simp [cellRead, h]
  | cons c rest ih =>
    obtain ⟨k, x⟩ := c
    simp only [cellWrite]
    split
    · split <;> simp [cellRead, h]
    · split
      · subst_vars
        split <;> simp [cellRead, h]
      · simp [cellRead, ih]

/-- A key of the list after a write is an old key or the key written. -/
theorem mem_cellWrite {c : Nat × α} (h : c ∈ cellWrite z l a v) : c ∈ l ∨ (c = (a, v) ∧ v ≠ z) := by
  induction l with
  | nil =>
    simp only [cellWrite] at h
    split at h
    · simp at h
    · exact .inr ⟨by simpa using h, ‹_›⟩
  | cons d rest ih =>
    obtain ⟨k, x⟩ := d
    simp only [cellWrite] at h
    split at h
    · split at h
      · exact .inl h
      · rcases List.mem_cons.1 h with h | h
        · exact .inr ⟨h, ‹_›⟩
        · exact .inl h
    · split at h
      · split at h
        · exact .inl (List.mem_cons_of_mem _ h)
        · rcases List.mem_cons.1 h with h | h
          · exact .inr ⟨h, ‹_›⟩
          · exact .inl (List.mem_cons_of_mem _ h)
      · rcases List.mem_cons.1 h with h | h
        · exact .inl (by simp [h])
        · exact (ih h).imp (List.mem_cons_of_mem _) id

/-- A write keeps the canonical form. -/
theorem cellWrite_ok (h : cellsOk z l) : cellsOk z (cellWrite z l a v) := by
  refine ⟨?_, fun c hc => ?_⟩
  · obtain ⟨hp, -⟩ := h
    induction l with
    | nil => simp only [cellWrite]; split <;> simp
    | cons d rest ih =>
      obtain ⟨k, x⟩ := d
      obtain ⟨hk, hrest⟩ := List.pairwise_cons.1 hp
      simp only [cellWrite]
      split
      · split
        · exact hp
        · refine List.pairwise_cons.2 ⟨fun c hc => ?_, hp⟩
          rcases List.mem_cons.1 hc with rfl | hc
          · assumption
          · exact Nat.lt_trans ‹a < k› (hk c hc)
      · split
        · subst_vars
          split
          · exact hrest
          · exact List.pairwise_cons.2 ⟨hk, hrest⟩
        · refine List.pairwise_cons.2 ⟨fun c hc => ?_, ih hrest⟩
          rcases mem_cellWrite hc with hc | ⟨rfl, -⟩
          · exact hk c hc
          · show k < a
            omega
  · rcases mem_cellWrite hc with hc | ⟨rfl, hv⟩
    · exact h.2 c hc
    · exact hv

/-- In a canonical list a write is read back. -/
theorem cellRead_write_same (h : cellsOk z l) : cellRead z (cellWrite z l a v) a = v := by
  obtain ⟨hp, -⟩ := h
  induction l with
  | nil => simp only [cellWrite]; split <;> simp [cellRead, *]
  | cons d rest ih =>
    obtain ⟨k, x⟩ := d
    obtain ⟨hk, hrest⟩ := List.pairwise_cons.1 hp
    simp only [cellWrite]
    split
    · split
      · subst_vars
        refine cellRead_of_lt_all fun c hc => ?_
        rcases List.mem_cons.1 hc with rfl | hc
        · assumption
        · exact Nat.lt_trans ‹a < k› (hk c hc)
      · simp [cellRead]
    · split
      · subst_vars
        split
        · subst_vars; exact cellRead_of_lt_all hk
        · simp [cellRead]
      · rw [cellRead, if_neg ‹_›]; exact ih hrest

/-- A write below a bound keeps every key below it. -/
theorem cellWrite_below (h : cellsBelow n l) (ha : a < n) : cellsBelow n (cellWrite z l a v) := by
  intro c hc
  rcases mem_cellWrite hc with hc | ⟨rfl, -⟩
  · exact h c hc
  · exact ha

end Cells

variable {m : Memory} {p q n : Nat} {v : Byte}

theorem Memory.read_nil : Memory.read [] p = unlistedByte := rfl

theorem Memory.wf_nil : Memory.wf [] := ⟨.nil, by simp⟩

theorem Memory.read_write_same (h : m.wf) : (m.write p v).read p = v := cellRead_write_same h

theorem Memory.read_write_ne (h : q ≠ p) : (m.write p v).read q = m.read q := cellRead_write_ne h

theorem Memory.write_wf (h : m.wf) : (m.write p v).wf := cellWrite_ok h

theorem Memory.write_below (h : cellsBelow n m) (hp : p < n) : cellsBelow n (m.write p v) :=
  cellWrite_below h hp

/-- Storing bytes keeps the canonical form. -/
theorem Memory.writeBytes_wf {bs : List Byte} (h : m.wf) : (m.writeBytes p bs).wf := by
  induction bs generalizing m p with
  | nil => exact h
  | cons b rest ih => exact ih (Memory.write_wf h)

/-- Storing bytes below a bound keeps every offset below it. -/
theorem Memory.writeBytes_below {bs : List Byte} (h : cellsBelow n m) (hp : p + bs.length ≤ n) :
    cellsBelow n (m.writeBytes p bs) := by
  induction bs generalizing m p with
  | nil => exact h
  | cons b rest ih =>
    rw [List.length_cons] at hp
    exact ih (Memory.write_below h (by omega)) (by omega)

/-- Bytes outside the range stored to are left alone. -/
theorem Memory.read_writeBytes_outside {bs : List Byte} (h : q < p ∨ p + bs.length ≤ q) :
    (m.writeBytes p bs).read q = m.read q := by
  induction bs generalizing m p with
  | nil => rfl
  | cons b rest ih =>
    rw [List.length_cons] at h
    rw [Memory.writeBytes, ih (by omega), Memory.read_write_ne (by omega)]

/-- A byte stored is read back. -/
theorem Memory.read_writeBytes_inside {bs : List Byte} {k : Nat} (h : m.wf) (hk : k < bs.length) :
    (m.writeBytes p bs).read (p + k) = bs[k] := by
  induction bs generalizing m p k with
  | nil => simp at hk
  | cons b rest ih =>
    cases k with
    | zero =>
      rw [Memory.writeBytes, Memory.read_writeBytes_outside (by omega)]
      exact Memory.read_write_same h
    | succ j =>
      have hj : j < rest.length := by simpa using hk
      have := ih (m := m.write p b) (p := p + 1) (Memory.write_wf h) hj
      rw [Memory.writeBytes, show p + (j + 1) = p + 1 + j by omega, this]
      rfl

variable {px : Pixels} {i j : Nat} {w : Word}

theorem Pixels.read_write_same (h : px.wf) : (px.write i w).read i = w := cellRead_write_same h

theorem Pixels.read_write_ne (h : j ≠ i) : (px.write i w).read j = px.read j := cellRead_write_ne h

theorem Pixels.write_wf (h : px.wf) : (px.write i w).wf := cellWrite_ok h

theorem Pixels.write_below (h : cellsBelow n px) (hi : i < n) : cellsBelow n (px.write i w) :=
  cellWrite_below h hi

end Sys2Proof.Machine
end

