-- ==== Sys2Proof/Laws/State.lean ====
section
/-! SUPPORT. Each field after each update of the state, true by rfl, so that no proof unfolds a record update. -/

namespace Sys2Proof.Machine.State

variable (s : State)

/-! ### setPc -/

@[simp] theorem setPc_pc (v : Word) : (s.setPc v).pc = v := rfl
@[simp] theorem setPc_gpr (v : Word) : (s.setPc v).gpr = s.gpr := rfl
@[simp] theorem setPc_fpr (v : Word) : (s.setPc v).fpr = s.fpr := rfl
@[simp] theorem setPc_spr (v : Word) : (s.setPc v).spr = s.spr := rfl
@[simp] theorem setPc_running (v : Word) : (s.setPc v).running = s.running := rfl
@[simp] theorem setPc_interruptsEnabled (v : Word) : (s.setPc v).interruptsEnabled = s.interruptsEnabled := rfl
@[simp] theorem setPc_kernelMode (v : Word) : (s.setPc v).kernelMode = s.kernelMode := rfl
@[simp] theorem setPc_cycleCount (v : Word) : (s.setPc v).cycleCount = s.cycleCount := rfl
@[simp] theorem setPc_mem (v : Word) : (s.setPc v).mem = s.mem := rfl
@[simp] theorem setPc_pixels (v : Word) : (s.setPc v).pixels = s.pixels := rfl
@[simp] theorem setPc_config (v : Word) : (s.setPc v).config = s.config := rfl
@[simp] theorem setPc_events (v : Word) : (s.setPc v).events = s.events := rfl
@[simp] theorem setPc_inputReads (v : Word) : (s.setPc v).inputReads = s.inputReads := rfl
@[simp] theorem setPc_audioPolls (v : Word) : (s.setPc v).audioPolls = s.audioPolls := rfl

/-! ### writeGpr -/

@[simp] theorem writeGpr_pc (r : Idx5) (v : Word) : (s.writeGpr r v).pc = s.pc := rfl
@[simp] theorem writeGpr_gpr (r : Idx5) (v : Word) : (s.writeGpr r v).gpr = s.gpr.set r v := rfl
@[simp] theorem writeGpr_fpr (r : Idx5) (v : Word) : (s.writeGpr r v).fpr = s.fpr := rfl
@[simp] theorem writeGpr_spr (r : Idx5) (v : Word) : (s.writeGpr r v).spr = s.spr := rfl
@[simp] theorem writeGpr_running (r : Idx5) (v : Word) : (s.writeGpr r v).running = s.running := rfl
@[simp] theorem writeGpr_interruptsEnabled (r : Idx5) (v : Word) : (s.writeGpr r v).interruptsEnabled = s.interruptsEnabled := rfl
@[simp] theorem writeGpr_kernelMode (r : Idx5) (v : Word) : (s.writeGpr r v).kernelMode = s.kernelMode := rfl
@[simp] theorem writeGpr_cycleCount (r : Idx5) (v : Word) : (s.writeGpr r v).cycleCount = s.cycleCount := rfl
@[simp] theorem writeGpr_mem (r : Idx5) (v : Word) : (s.writeGpr r v).mem = s.mem := rfl
@[simp] theorem writeGpr_pixels (r : Idx5) (v : Word) : (s.writeGpr r v).pixels = s.pixels := rfl
@[simp] theorem writeGpr_config (r : Idx5) (v : Word) : (s.writeGpr r v).config = s.config := rfl
@[simp] theorem writeGpr_events (r : Idx5) (v : Word) : (s.writeGpr r v).events = s.events := rfl
@[simp] theorem writeGpr_inputReads (r : Idx5) (v : Word) : (s.writeGpr r v).inputReads = s.inputReads := rfl
@[simp] theorem writeGpr_audioPolls (r : Idx5) (v : Word) : (s.writeGpr r v).audioPolls = s.audioPolls := rfl

/-! ### writeFpr -/

@[simp] theorem writeFpr_pc (r : Idx5) (v : Lanes) : (s.writeFpr r v).pc = s.pc := rfl
@[simp] theorem writeFpr_gpr (r : Idx5) (v : Lanes) : (s.writeFpr r v).gpr = s.gpr := rfl
@[simp] theorem writeFpr_fpr (r : Idx5) (v : Lanes) : (s.writeFpr r v).fpr = s.fpr.set r v := rfl
@[simp] theorem writeFpr_spr (r : Idx5) (v : Lanes) : (s.writeFpr r v).spr = s.spr := rfl
@[simp] theorem writeFpr_running (r : Idx5) (v : Lanes) : (s.writeFpr r v).running = s.running := rfl
@[simp] theorem writeFpr_interruptsEnabled (r : Idx5) (v : Lanes) : (s.writeFpr r v).interruptsEnabled = s.interruptsEnabled := rfl
@[simp] theorem writeFpr_kernelMode (r : Idx5) (v : Lanes) : (s.writeFpr r v).kernelMode = s.kernelMode := rfl
@[simp] theorem writeFpr_cycleCount (r : Idx5) (v : Lanes) : (s.writeFpr r v).cycleCount = s.cycleCount := rfl
@[simp] theorem writeFpr_mem (r : Idx5) (v : Lanes) : (s.writeFpr r v).mem = s.mem := rfl
@[simp] theorem writeFpr_pixels (r : Idx5) (v : Lanes) : (s.writeFpr r v).pixels = s.pixels := rfl
@[simp] theorem writeFpr_config (r : Idx5) (v : Lanes) : (s.writeFpr r v).config = s.config := rfl
@[simp] theorem writeFpr_events (r : Idx5) (v : Lanes) : (s.writeFpr r v).events = s.events := rfl
@[simp] theorem writeFpr_inputReads (r : Idx5) (v : Lanes) : (s.writeFpr r v).inputReads = s.inputReads := rfl
@[simp] theorem writeFpr_audioPolls (r : Idx5) (v : Lanes) : (s.writeFpr r v).audioPolls = s.audioPolls := rfl

/-! ### writeSpr -/

@[simp] theorem writeSpr_pc (n : SprIdx) (v : Word) : (s.writeSpr n v).pc = s.pc := rfl
@[simp] theorem writeSpr_gpr (n : SprIdx) (v : Word) : (s.writeSpr n v).gpr = s.gpr := rfl
@[simp] theorem writeSpr_fpr (n : SprIdx) (v : Word) : (s.writeSpr n v).fpr = s.fpr := rfl
@[simp] theorem writeSpr_spr (n : SprIdx) (v : Word) : (s.writeSpr n v).spr = s.spr.set n v := rfl
@[simp] theorem writeSpr_running (n : SprIdx) (v : Word) : (s.writeSpr n v).running = s.running := rfl
@[simp] theorem writeSpr_interruptsEnabled (n : SprIdx) (v : Word) : (s.writeSpr n v).interruptsEnabled = s.interruptsEnabled := rfl
@[simp] theorem writeSpr_kernelMode (n : SprIdx) (v : Word) : (s.writeSpr n v).kernelMode = s.kernelMode := rfl
@[simp] theorem writeSpr_cycleCount (n : SprIdx) (v : Word) : (s.writeSpr n v).cycleCount = s.cycleCount := rfl
@[simp] theorem writeSpr_mem (n : SprIdx) (v : Word) : (s.writeSpr n v).mem = s.mem := rfl
@[simp] theorem writeSpr_pixels (n : SprIdx) (v : Word) : (s.writeSpr n v).pixels = s.pixels := rfl
@[simp] theorem writeSpr_config (n : SprIdx) (v : Word) : (s.writeSpr n v).config = s.config := rfl
@[simp] theorem writeSpr_events (n : SprIdx) (v : Word) : (s.writeSpr n v).events = s.events := rfl
@[simp] theorem writeSpr_inputReads (n : SprIdx) (v : Word) : (s.writeSpr n v).inputReads = s.inputReads := rfl
@[simp] theorem writeSpr_audioPolls (n : SprIdx) (v : Word) : (s.writeSpr n v).audioPolls = s.audioPolls := rfl

/-! ### setRunning -/

@[simp] theorem setRunning_pc (v : Bool) : (s.setRunning v).pc = s.pc := rfl
@[simp] theorem setRunning_gpr (v : Bool) : (s.setRunning v).gpr = s.gpr := rfl
@[simp] theorem setRunning_fpr (v : Bool) : (s.setRunning v).fpr = s.fpr := rfl
@[simp] theorem setRunning_spr (v : Bool) : (s.setRunning v).spr = s.spr := rfl
@[simp] theorem setRunning_running (v : Bool) : (s.setRunning v).running = v := rfl
@[simp] theorem setRunning_interruptsEnabled (v : Bool) : (s.setRunning v).interruptsEnabled = s.interruptsEnabled := rfl
@[simp] theorem setRunning_kernelMode (v : Bool) : (s.setRunning v).kernelMode = s.kernelMode := rfl
@[simp] theorem setRunning_cycleCount (v : Bool) : (s.setRunning v).cycleCount = s.cycleCount := rfl
@[simp] theorem setRunning_mem (v : Bool) : (s.setRunning v).mem = s.mem := rfl
@[simp] theorem setRunning_pixels (v : Bool) : (s.setRunning v).pixels = s.pixels := rfl
@[simp] theorem setRunning_config (v : Bool) : (s.setRunning v).config = s.config := rfl
@[simp] theorem setRunning_events (v : Bool) : (s.setRunning v).events = s.events := rfl
@[simp] theorem setRunning_inputReads (v : Bool) : (s.setRunning v).inputReads = s.inputReads := rfl
@[simp] theorem setRunning_audioPolls (v : Bool) : (s.setRunning v).audioPolls = s.audioPolls := rfl

/-! ### setInterrupts -/

@[simp] theorem setInterrupts_pc (v : Bool) : (s.setInterrupts v).pc = s.pc := rfl
@[simp] theorem setInterrupts_gpr (v : Bool) : (s.setInterrupts v).gpr = s.gpr := rfl
@[simp] theorem setInterrupts_fpr (v : Bool) : (s.setInterrupts v).fpr = s.fpr := rfl
@[simp] theorem setInterrupts_spr (v : Bool) : (s.setInterrupts v).spr = s.spr := rfl
@[simp] theorem setInterrupts_running (v : Bool) : (s.setInterrupts v).running = s.running := rfl
@[simp] theorem setInterrupts_interruptsEnabled (v : Bool) : (s.setInterrupts v).interruptsEnabled = v := rfl
@[simp] theorem setInterrupts_kernelMode (v : Bool) : (s.setInterrupts v).kernelMode = s.kernelMode := rfl
@[simp] theorem setInterrupts_cycleCount (v : Bool) : (s.setInterrupts v).cycleCount = s.cycleCount := rfl
@[simp] theorem setInterrupts_mem (v : Bool) : (s.setInterrupts v).mem = s.mem := rfl
@[simp] theorem setInterrupts_pixels (v : Bool) : (s.setInterrupts v).pixels = s.pixels := rfl
@[simp] theorem setInterrupts_config (v : Bool) : (s.setInterrupts v).config = s.config := rfl
@[simp] theorem setInterrupts_events (v : Bool) : (s.setInterrupts v).events = s.events := rfl
@[simp] theorem setInterrupts_inputReads (v : Bool) : (s.setInterrupts v).inputReads = s.inputReads := rfl
@[simp] theorem setInterrupts_audioPolls (v : Bool) : (s.setInterrupts v).audioPolls = s.audioPolls := rfl

/-! ### setKernel -/

@[simp] theorem setKernel_pc (v : Bool) : (s.setKernel v).pc = s.pc := rfl
@[simp] theorem setKernel_gpr (v : Bool) : (s.setKernel v).gpr = s.gpr := rfl
@[simp] theorem setKernel_fpr (v : Bool) : (s.setKernel v).fpr = s.fpr := rfl
@[simp] theorem setKernel_spr (v : Bool) : (s.setKernel v).spr = s.spr := rfl
@[simp] theorem setKernel_running (v : Bool) : (s.setKernel v).running = s.running := rfl
@[simp] theorem setKernel_interruptsEnabled (v : Bool) : (s.setKernel v).interruptsEnabled = s.interruptsEnabled := rfl
@[simp] theorem setKernel_kernelMode (v : Bool) : (s.setKernel v).kernelMode = v := rfl
@[simp] theorem setKernel_cycleCount (v : Bool) : (s.setKernel v).cycleCount = s.cycleCount := rfl
@[simp] theorem setKernel_mem (v : Bool) : (s.setKernel v).mem = s.mem := rfl
@[simp] theorem setKernel_pixels (v : Bool) : (s.setKernel v).pixels = s.pixels := rfl
@[simp] theorem setKernel_config (v : Bool) : (s.setKernel v).config = s.config := rfl
@[simp] theorem setKernel_events (v : Bool) : (s.setKernel v).events = s.events := rfl
@[simp] theorem setKernel_inputReads (v : Bool) : (s.setKernel v).inputReads = s.inputReads := rfl
@[simp] theorem setKernel_audioPolls (v : Bool) : (s.setKernel v).audioPolls = s.audioPolls := rfl

/-! ### count -/

@[simp] theorem count_pc : s.count.pc = s.pc := rfl
@[simp] theorem count_gpr : s.count.gpr = s.gpr := rfl
@[simp] theorem count_fpr : s.count.fpr = s.fpr := rfl
@[simp] theorem count_spr : s.count.spr = s.spr := rfl
@[simp] theorem count_running : s.count.running = s.running := rfl
@[simp] theorem count_interruptsEnabled : s.count.interruptsEnabled = s.interruptsEnabled := rfl
@[simp] theorem count_kernelMode : s.count.kernelMode = s.kernelMode := rfl
@[simp] theorem count_cycleCount : s.count.cycleCount = s.cycleCount + 1 := rfl
@[simp] theorem count_mem : s.count.mem = s.mem := rfl
@[simp] theorem count_pixels : s.count.pixels = s.pixels := rfl
@[simp] theorem count_config : s.count.config = s.config := rfl
@[simp] theorem count_events : s.count.events = s.events := rfl
@[simp] theorem count_inputReads : s.count.inputReads = s.inputReads := rfl
@[simp] theorem count_audioPolls : s.count.audioPolls = s.audioPolls := rfl

/-! ### setMem -/

@[simp] theorem setMem_pc (m : Memory) : (s.setMem m).pc = s.pc := rfl
@[simp] theorem setMem_gpr (m : Memory) : (s.setMem m).gpr = s.gpr := rfl
@[simp] theorem setMem_fpr (m : Memory) : (s.setMem m).fpr = s.fpr := rfl
@[simp] theorem setMem_spr (m : Memory) : (s.setMem m).spr = s.spr := rfl
@[simp] theorem setMem_running (m : Memory) : (s.setMem m).running = s.running := rfl
@[simp] theorem setMem_interruptsEnabled (m : Memory) : (s.setMem m).interruptsEnabled = s.interruptsEnabled := rfl
@[simp] theorem setMem_kernelMode (m : Memory) : (s.setMem m).kernelMode = s.kernelMode := rfl
@[simp] theorem setMem_cycleCount (m : Memory) : (s.setMem m).cycleCount = s.cycleCount := rfl
@[simp] theorem setMem_mem (m : Memory) : (s.setMem m).mem = m := rfl
@[simp] theorem setMem_pixels (m : Memory) : (s.setMem m).pixels = s.pixels := rfl
@[simp] theorem setMem_config (m : Memory) : (s.setMem m).config = s.config := rfl
@[simp] theorem setMem_events (m : Memory) : (s.setMem m).events = s.events := rfl
@[simp] theorem setMem_inputReads (m : Memory) : (s.setMem m).inputReads = s.inputReads := rfl
@[simp] theorem setMem_audioPolls (m : Memory) : (s.setMem m).audioPolls = s.audioPolls := rfl

/-! ### setPixels -/

@[simp] theorem setPixels_pc (px : Pixels) : (s.setPixels px).pc = s.pc := rfl
@[simp] theorem setPixels_gpr (px : Pixels) : (s.setPixels px).gpr = s.gpr := rfl
@[simp] theorem setPixels_fpr (px : Pixels) : (s.setPixels px).fpr = s.fpr := rfl
@[simp] theorem setPixels_spr (px : Pixels) : (s.setPixels px).spr = s.spr := rfl
@[simp] theorem setPixels_running (px : Pixels) : (s.setPixels px).running = s.running := rfl
@[simp] theorem setPixels_interruptsEnabled (px : Pixels) : (s.setPixels px).interruptsEnabled = s.interruptsEnabled := rfl
@[simp] theorem setPixels_kernelMode (px : Pixels) : (s.setPixels px).kernelMode = s.kernelMode := rfl
@[simp] theorem setPixels_cycleCount (px : Pixels) : (s.setPixels px).cycleCount = s.cycleCount := rfl
@[simp] theorem setPixels_mem (px : Pixels) : (s.setPixels px).mem = s.mem := rfl
@[simp] theorem setPixels_pixels (px : Pixels) : (s.setPixels px).pixels = px := rfl
@[simp] theorem setPixels_config (px : Pixels) : (s.setPixels px).config = s.config := rfl
@[simp] theorem setPixels_events (px : Pixels) : (s.setPixels px).events = s.events := rfl
@[simp] theorem setPixels_inputReads (px : Pixels) : (s.setPixels px).inputReads = s.inputReads := rfl
@[simp] theorem setPixels_audioPolls (px : Pixels) : (s.setPixels px).audioPolls = s.audioPolls := rfl

/-! ### emit -/

@[simp] theorem emit_pc (e : Event) : (s.emit e).pc = s.pc := rfl
@[simp] theorem emit_gpr (e : Event) : (s.emit e).gpr = s.gpr := rfl
@[simp] theorem emit_fpr (e : Event) : (s.emit e).fpr = s.fpr := rfl
@[simp] theorem emit_spr (e : Event) : (s.emit e).spr = s.spr := rfl
@[simp] theorem emit_running (e : Event) : (s.emit e).running = s.running := rfl
@[simp] theorem emit_interruptsEnabled (e : Event) : (s.emit e).interruptsEnabled = s.interruptsEnabled := rfl
@[simp] theorem emit_kernelMode (e : Event) : (s.emit e).kernelMode = s.kernelMode := rfl
@[simp] theorem emit_cycleCount (e : Event) : (s.emit e).cycleCount = s.cycleCount := rfl
@[simp] theorem emit_mem (e : Event) : (s.emit e).mem = s.mem := rfl
@[simp] theorem emit_pixels (e : Event) : (s.emit e).pixels = s.pixels := rfl
@[simp] theorem emit_config (e : Event) : (s.emit e).config = s.config := rfl
@[simp] theorem emit_events (e : Event) : (s.emit e).events = s.events ++ [e] := rfl
@[simp] theorem emit_inputReads (e : Event) : (s.emit e).inputReads = s.inputReads := rfl
@[simp] theorem emit_audioPolls (e : Event) : (s.emit e).audioPolls = s.audioPolls := rfl

/-! ### countInput -/

@[simp] theorem countInput_pc : s.countInput.pc = s.pc := rfl
@[simp] theorem countInput_gpr : s.countInput.gpr = s.gpr := rfl
@[simp] theorem countInput_fpr : s.countInput.fpr = s.fpr := rfl
@[simp] theorem countInput_spr : s.countInput.spr = s.spr := rfl
@[simp] theorem countInput_running : s.countInput.running = s.running := rfl
@[simp] theorem countInput_interruptsEnabled : s.countInput.interruptsEnabled = s.interruptsEnabled := rfl
@[simp] theorem countInput_kernelMode : s.countInput.kernelMode = s.kernelMode := rfl
@[simp] theorem countInput_cycleCount : s.countInput.cycleCount = s.cycleCount := rfl
@[simp] theorem countInput_mem : s.countInput.mem = s.mem := rfl
@[simp] theorem countInput_pixels : s.countInput.pixels = s.pixels := rfl
@[simp] theorem countInput_config : s.countInput.config = s.config := rfl
@[simp] theorem countInput_events : s.countInput.events = s.events := rfl
@[simp] theorem countInput_inputReads : s.countInput.inputReads = s.inputReads + 1 := rfl
@[simp] theorem countInput_audioPolls : s.countInput.audioPolls = s.audioPolls := rfl

/-! ### countAudio -/

@[simp] theorem countAudio_pc : s.countAudio.pc = s.pc := rfl
@[simp] theorem countAudio_gpr : s.countAudio.gpr = s.gpr := rfl
@[simp] theorem countAudio_fpr : s.countAudio.fpr = s.fpr := rfl
@[simp] theorem countAudio_spr : s.countAudio.spr = s.spr := rfl
@[simp] theorem countAudio_running : s.countAudio.running = s.running := rfl
@[simp] theorem countAudio_interruptsEnabled : s.countAudio.interruptsEnabled = s.interruptsEnabled := rfl
@[simp] theorem countAudio_kernelMode : s.countAudio.kernelMode = s.kernelMode := rfl
@[simp] theorem countAudio_cycleCount : s.countAudio.cycleCount = s.cycleCount := rfl
@[simp] theorem countAudio_mem : s.countAudio.mem = s.mem := rfl
@[simp] theorem countAudio_pixels : s.countAudio.pixels = s.pixels := rfl
@[simp] theorem countAudio_config : s.countAudio.config = s.config := rfl
@[simp] theorem countAudio_events : s.countAudio.events = s.events := rfl
@[simp] theorem countAudio_inputReads : s.countAudio.inputReads = s.inputReads := rfl
@[simp] theorem countAudio_audioPolls : s.countAudio.audioPolls = s.audioPolls + 1 := rfl

end Sys2Proof.Machine.State
end

