-- ==== Sys2Proof/Laws/Ops.lean ====
section
/-! SUPPORT. One lemma for each shared operation that says once everything it can do, and the read-after-write
laws of the registers, the bytes of a word and the words of memory. -/

namespace Sys2Proof.Machine

/-! ## Registers -/

section Registers

variable {s : State} {r k : Idx5} {n m : SprIdx} {v : Word} {w : Lanes}

theorem State.readGpr_writeGpr : (s.writeGpr r v).readGpr k = if k = r then v else s.readGpr k := by
  simp only [State.readGpr, State.writeGpr_gpr, Vector.get_eq_getElem, Vector.getElem_set]
  simp [Fin.ext_iff, eq_comm]

theorem State.readFpr_writeFpr : (s.writeFpr r w).readFpr k = if k = r then w else s.readFpr k := by
  simp only [State.readFpr, State.writeFpr_fpr, Vector.get_eq_getElem, Vector.getElem_set]
  simp [Fin.ext_iff, eq_comm]

theorem State.readSpr_writeSpr : (s.writeSpr n v).readSpr m = if m = n then v else s.readSpr m := by
  simp only [State.readSpr, State.writeSpr_spr, Vector.get_eq_getElem, Vector.getElem_set]
  simp [Fin.ext_iff, eq_comm]

/-- Registers depend on their own field alone. -/
theorem State.readGpr_congr {t : State} (h : t.gpr = s.gpr) : t.readGpr r = s.readGpr r := by
  rw [State.readGpr, State.readGpr, h]

theorem State.readFpr_congr {t : State} (h : t.fpr = s.fpr) : t.readFpr r = s.readFpr r := by
  rw [State.readFpr, State.readFpr, h]

theorem State.readSpr_congr {t : State} (h : t.spr = s.spr) : t.readSpr n = s.readSpr n := by
  rw [State.readSpr, State.readSpr, h]

end Registers

/-! ## Words of memory -/

/-- The bytes of a store, by offset. -/
theorem Memory.read_putWord {m : Memory} {p q : Nat} {v : Word} (h : m.wf) :
    (m.putWord p v).read q = if p ≤ q ∧ q < p + 4 then byteOfWord v (q - p) else m.read q := by
  by_cases hq : p ≤ q ∧ q < p + 4
  · obtain ⟨k, rfl⟩ : ∃ k, q = p + k := ⟨q - p, by omega⟩
    have hk : k < 4 := by omega
    rw [if_pos hq, Memory.putWord, Memory.read_writeBytes_inside h (by simpa using hk), Nat.add_sub_cancel_left]
    match k, hk with
    | 0, _ => rfl
    | 1, _ => rfl
    | 2, _ => rfl
    | 3, _ => rfl
  · rw [if_neg hq, Memory.putWord, Memory.read_writeBytes_outside]
    simp only [List.length_cons, List.length_nil]
    omega

/-- A store leaves every byte outside its four alone, in any memory. -/
theorem Memory.read_putWord_outside {m : Memory} {p q : Nat} {v : Word} (h : q < p ∨ p + 4 ≤ q) :
    (m.putWord p v).read q = m.read q :=
  Memory.read_writeBytes_outside (by simpa using h)

theorem Memory.putWord_wf {m : Memory} {p : Nat} {v : Word} (h : m.wf) : (m.putWord p v).wf :=
  Memory.writeBytes_wf h

theorem Memory.putWord_below {m : Memory} {p n : Nat} {v : Word} (h : cellsBelow n m) (hp : p + 4 ≤ n) :
    cellsBelow n (m.putWord p v) :=
  Memory.writeBytes_below h (by simpa using hp)

/-- A word stored is read back (20_memory.md R52). -/
theorem Memory.wordAt_putWord {m : Memory} {p : Nat} {v : Word} (h : m.wf) : (m.putWord p v).wordAt p = v := by
  simp only [Memory.wordAt, Memory.read_putWord h]
  have h1 : p + 1 - p = 1 := by omega
  have h2 : p + 2 - p = 2 := by omega
  have h3 : p + 3 - p = 3 := by omega
  rw [if_pos (by omega), if_pos (by omega), if_pos (by omega), if_pos (by omega), Nat.sub_self, h1, h2, h3]
  exact wordOfBytes_bytes v

/-- A word whose bytes a store does not reach reads as before. -/
theorem Memory.wordAt_putWord_apart {m : Memory} {p q : Nat} {v : Word} (h : q + 4 ≤ p ∨ p + 4 ≤ q) :
    (m.putWord p v).wordAt q = m.wordAt q := by
  simp only [Memory.wordAt]
  rw [Memory.read_putWord_outside (by omega), Memory.read_putWord_outside (by omega),
    Memory.read_putWord_outside (by omega), Memory.read_putWord_outside (by omega)]

/-! ## The AddressSpace -/

section AddressSpace

variable {s : State} {a v : Word} {c : Config}

/-- Everything a word read can do (20_memory.md R46 to R48). -/
theorem readWord_cases :
    (a = s.config.inputAddr ∧ readWord a s = (Config.inputDraw s.inputReads, s.countInput)) ∨
    (a ≠ s.config.inputAddr ∧ translateAddr s.config a + 4 ≤ s.config.capacity ∧
      readWord a s = (s.mem.wordAt (translateAddr s.config a), s)) ∨
    (a ≠ s.config.inputAddr ∧ s.config.capacity < translateAddr s.config a + 4 ∧
      readWord a s = (0, s.emit (.outOfBounds a))) := by
  unfold readWord inBounds
  by_cases h : a = s.config.inputAddr
  · exact .inl ⟨h, if_pos h⟩
  · by_cases hb : translateAddr s.config a + 4 ≤ s.config.capacity
    · exact .inr (.inl ⟨h, hb, by rw [if_neg h, if_pos (by simpa using hb)]⟩)
    · exact .inr (.inr ⟨h, by omega, by rw [if_neg h, if_neg (by simpa using hb)]⟩)

/-- What a word read leaves alone, whatever it reads. -/
structure ReadFrame (s t : State) : Prop where
  pc : t.pc = s.pc
  gpr : t.gpr = s.gpr
  fpr : t.fpr = s.fpr
  spr : t.spr = s.spr
  running : t.running = s.running
  interruptsEnabled : t.interruptsEnabled = s.interruptsEnabled
  kernelMode : t.kernelMode = s.kernelMode
  cycleCount : t.cycleCount = s.cycleCount
  mem : t.mem = s.mem
  pixels : t.pixels = s.pixels
  config : t.config = s.config
  audioPolls : t.audioPolls = s.audioPolls

/-- A word read changes nothing but the model's own record of draws and events (20_memory.md R46). -/
theorem readWord_frame (a : Word) (s : State) : ReadFrame s (readWord a s).2 := by
  rcases @readWord_cases s a with ⟨-, h⟩ | ⟨-, -, h⟩ | ⟨-, -, h⟩ <;> rw [h] <;> constructor <;> rfl

theorem ReadFrame.refl (s : State) : ReadFrame s s := by constructor <;> rfl

theorem ReadFrame.trans {s t u : State} (h : ReadFrame s t) (k : ReadFrame t u) : ReadFrame s u where
  pc := k.pc.trans h.pc
  gpr := k.gpr.trans h.gpr
  fpr := k.fpr.trans h.fpr
  spr := k.spr.trans h.spr
  running := k.running.trans h.running
  interruptsEnabled := k.interruptsEnabled.trans h.interruptsEnabled
  kernelMode := k.kernelMode.trans h.kernelMode
  cycleCount := k.cycleCount.trans h.cycleCount
  mem := k.mem.trans h.mem
  pixels := k.pixels.trans h.pixels
  config := k.config.trans h.config
  audioPolls := k.audioPolls.trans h.audioPolls

/-- The framebuffer mirror, case by case (20_memory.md R50). -/
theorem mirrorPixel_cases :
    (∃ i, pixelIndex s.config a = some i ∧ mirrorPixel a v s = s.setPixels (s.pixels.write i v)) ∨
    (pixelIndex s.config a = none ∧ mirrorPixel a v s = s) := by
  unfold mirrorPixel
  cases pixelIndex s.config a with
  | none => exact .inr ⟨rfl, rfl⟩
  | some i => exact .inl ⟨i, rfl, rfl⟩

/-- A pixel index is in range (20_memory.md R50). -/
theorem pixelIndex_lt {i : Nat} (h : pixelIndex c a = some i) : i < c.pixelCount := by
  unfold pixelIndex at h
  split at h
  · obtain rfl := Option.some.inj h
    exact (‹_ ∧ _ ∧ _›).2.2
  · cases h

/-- Everything a word write can do (20_memory.md R49, R50). -/
theorem writeWord_cases :
    (s.config.capacity < translateAddr s.config a + 4 ∧ writeWord a v s = s.emit (.outOfBounds a)) ∨
    (translateAddr s.config a + 4 ≤ s.config.capacity ∧ ∃ i, pixelIndex s.config a = some i ∧
      writeWord a v s = (s.setMem (s.mem.putWord (translateAddr s.config a) v)).setPixels (s.pixels.write i v)) ∨
    (translateAddr s.config a + 4 ≤ s.config.capacity ∧ pixelIndex s.config a = none ∧
      writeWord a v s = s.setMem (s.mem.putWord (translateAddr s.config a) v)) := by
  unfold writeWord inBounds
  by_cases hb : translateAddr s.config a + 4 ≤ s.config.capacity
  · rw [if_pos (by simpa using hb)]
    rcases @mirrorPixel_cases (s.setMem (s.mem.putWord (translateAddr s.config a) v)) a v with ⟨i, hi, h⟩ | ⟨hi, h⟩
    · exact .inr (.inl ⟨hb, i, hi, h⟩)
    · exact .inr (.inr ⟨hb, hi, h⟩)
  · exact .inl ⟨by omega, if_neg (by simpa using hb)⟩

/-- What a word write leaves alone, wherever it goes. -/
structure WriteFrame (s t : State) : Prop where
  pc : t.pc = s.pc
  gpr : t.gpr = s.gpr
  fpr : t.fpr = s.fpr
  spr : t.spr = s.spr
  running : t.running = s.running
  interruptsEnabled : t.interruptsEnabled = s.interruptsEnabled
  kernelMode : t.kernelMode = s.kernelMode
  cycleCount : t.cycleCount = s.cycleCount
  config : t.config = s.config

theorem WriteFrame.refl (s : State) : WriteFrame s s := by constructor <;> rfl

theorem WriteFrame.trans {s t u : State} (h : WriteFrame s t) (k : WriteFrame t u) : WriteFrame s u where
  pc := k.pc.trans h.pc
  gpr := k.gpr.trans h.gpr
  fpr := k.fpr.trans h.fpr
  spr := k.spr.trans h.spr
  running := k.running.trans h.running
  interruptsEnabled := k.interruptsEnabled.trans h.interruptsEnabled
  kernelMode := k.kernelMode.trans h.kernelMode
  cycleCount := k.cycleCount.trans h.cycleCount
  config := k.config.trans h.config

theorem ReadFrame.toWrite {s t : State} (h : ReadFrame s t) : WriteFrame s t where
  pc := h.pc
  gpr := h.gpr
  fpr := h.fpr
  spr := h.spr
  running := h.running
  interruptsEnabled := h.interruptsEnabled
  kernelMode := h.kernelMode
  cycleCount := h.cycleCount
  config := h.config

/-- A word write leaves every pixel but the one its address mirrors into. -/
theorem writeWord_pixelAt_ne {s : State} {a v : Word} {j : Nat} (h : pixelIndex s.config a ≠ some j) :
    (writeWord a v s).pixelAt j = s.pixelAt j := by
  rcases @writeWord_cases s a v with ⟨-, e⟩ | ⟨-, i, hi, e⟩ | ⟨-, -, e⟩ <;> rw [e]
  · rfl
  · exact Pixels.read_write_ne (by rintro rfl; exact h hi)
  · rfl

/-- A word write changes memory, pixels and events only. -/
theorem writeWord_frame (a v : Word) (s : State) : WriteFrame s (writeWord a v s) := by
  rcases @writeWord_cases s a v with ⟨-, h⟩ | ⟨-, i, -, h⟩ | ⟨-, -, h⟩ <;> rw [h] <;> constructor <;> rfl

/-- Memory and pixels in their canonical form and within their sizes. -/
structure StorageOk (s : State) : Prop where
  memOk : s.mem.wf
  memBelow : cellsBelow s.config.capacity s.mem
  pixelsOk : s.pixels.wf
  pixelsBelow : cellsBelow s.config.pixelCount s.pixels

/-- The storage form depends on three fields alone. -/
theorem StorageOk.congr {s t : State} (h : StorageOk s) (hm : t.mem = s.mem) (hp : t.pixels = s.pixels)
    (hc : t.config = s.config) : StorageOk t := by
  constructor
  · rw [hm]; exact h.memOk
  · rw [hm, hc]; exact h.memBelow
  · rw [hp]; exact h.pixelsOk
  · rw [hp, hc]; exact h.pixelsBelow

theorem readWord_storageOk (h : StorageOk s) : StorageOk (readWord a s).2 :=
  h.congr (readWord_frame a s).mem (readWord_frame a s).pixels (readWord_frame a s).config

/-- A word write keeps the storage form. -/
theorem writeWord_storageOk (h : StorageOk s) : StorageOk (writeWord a v s) := by
  rcases @writeWord_cases s a v with ⟨-, hw⟩ | ⟨hb, i, hi, hw⟩ | ⟨hb, -, hw⟩ <;> rw [hw]
  · exact h.congr rfl rfl rfl
  · exact ⟨Memory.putWord_wf h.memOk, Memory.putWord_below h.memBelow hb, Pixels.write_wf h.pixelsOk,
      Pixels.write_below h.pixelsBelow (pixelIndex_lt hi)⟩
  · exact ⟨Memory.putWord_wf h.memOk, Memory.putWord_below h.memBelow hb, h.pixelsOk, h.pixelsBelow⟩

end AddressSpace

/-! ## The InterruptController -/

/-- Everything a raise can do (60_exceptions.md R156, R157). -/
theorem raise_cases (id : Word) (s : State) :
    (s.interruptsEnabled = false ∧ raise id s = s) ∨
    (s.interruptsEnabled = true ∧
      raise id s = (((s.writeLr s.pc).setPc (vectorFor s.config id)).setInterrupts false).setKernel true) := by
  unfold raise
  cases h : s.interruptsEnabled with
  | false => exact .inl ⟨rfl, by simp⟩
  | true => exact .inr ⟨rfl, by simp⟩

/-- What a raise leaves alone, taken or lost. -/
structure RaiseFrame (s t : State) : Prop where
  gpr : t.gpr = s.gpr
  fpr : t.fpr = s.fpr
  spr : ∀ n, n ≠ lrIdx → t.readSpr n = s.readSpr n
  running : t.running = s.running
  cycleCount : t.cycleCount = s.cycleCount
  mem : t.mem = s.mem
  pixels : t.pixels = s.pixels
  config : t.config = s.config
  events : t.events = s.events
  inputReads : t.inputReads = s.inputReads
  audioPolls : t.audioPolls = s.audioPolls

theorem raise_frame (id : Word) (s : State) : RaiseFrame s (raise id s) := by
  rcases raise_cases id s with ⟨-, h⟩ | ⟨-, h⟩ <;> rw [h]
  · constructor <;> intros <;> rfl
  · constructor
    case spr => intro n hn; exact (State.readSpr_writeSpr (s := s)).trans (if_neg hn)
    all_goals rfl

/-- A handler's address is word-aligned under an admitted configuration (10_state.md R21). -/
theorem vectorFor_aligned {c : Config} (h : configOk c = true) (id : Word) : wordAligned (vectorFor c id) = true := by
  simp only [configOk, Bool.and_eq_true] at h
  obtain ⟨⟨⟨-, hv⟩, hd⟩, -⟩ := h
  unfold vectorFor
  cases hf : c.vectors.find? (fun e => e.1 == id) with
  | none => exact hd
  | some e => exact List.all_eq_true.1 hv e (List.mem_of_find?_eq_some hf)

end Sys2Proof.Machine
end

