-- ==== Sys2Proof/Laws/Coprocessor.lean ====
section
/-! SUPPORT. What the coprocessor's operations can do: their frames and the storage form, once for each. -/

namespace Sys2Proof.Machine

theorem readCoproc_frame (r : CoprocReg) (s : State) : ReadFrame s (readCoproc r s).2 := readWord_frame _ s

theorem writeCoproc_frame (r : CoprocReg) (v : Word) (s : State) : WriteFrame s (writeCoproc r v s) :=
  writeWord_frame _ v s

/-- A copy changes memory, pixels and the model's record of draws and events only. -/
theorem copyWords_frame (n : Nat) (src dst : Word) (s : State) : WriteFrame s (copyWords n src dst s) := by
  induction n generalizing src dst s with
  | zero => exact WriteFrame.refl s
  | succ n ih => exact ((readWord_frame src s).toWrite.trans (writeWord_frame dst _ _)).trans (ih _ _ _)

theorem copyWords_storageOk {n : Nat} {src dst : Word} {s : State} (h : StorageOk s) :
    StorageOk (copyWords n src dst s) := by
  induction n generalizing src dst s with
  | zero => exact h
  | succ n ih => exact ih (writeWord_storageOk (readWord_storageOk h))

theorem dmaCopy_frame (pa : Word) (s : State) : WriteFrame s (dmaCopy pa s) :=
  (((readWord_frame pa s).trans (readWord_frame _ _)).trans (readWord_frame _ _)).toWrite.trans
    (copyWords_frame _ _ _ _)

theorem dmaCopy_storageOk {pa : Word} {s : State} (h : StorageOk s) : StorageOk (dmaCopy pa s) :=
  copyWords_storageOk (readWord_storageOk (readWord_storageOk (readWord_storageOk h)))

/-- Reading a block changes nothing but the model's record of draws and events. -/
theorem readBytes_frame (n : Nat) (a : Word) (s : State) : ReadFrame s (readBytes n a s).2 := by
  induction n generalizing a s with
  | zero => exact ReadFrame.refl s
  | succ n ih => exact (readWord_frame a s).trans (ih _ _)

theorem emit_frame (e : Event) (s : State) : ReadFrame s (s.emit e) := by constructor <;> rfl

theorem stageAudio_frame (a n : Word) (s : State) : ReadFrame s (stageAudio a n s) :=
  (readBytes_frame _ a s).trans (emit_frame _ _)

theorem countAudio_frame (s : State) : WriteFrame s s.countAudio := by constructor <;> rfl

theorem commandTrivial_frame (s : State) : WriteFrame s (commandTrivial s) := writeCoproc_frame _ _ s

theorem commandUnknown_frame (s : State) : WriteFrame s (commandUnknown s) := writeCoproc_frame _ _ s

theorem commandCopy_frame (s : State) : WriteFrame s (commandCopy s) :=
  ((readCoproc_frame _ s).toWrite.trans (dmaCopy_frame _ _)).trans (writeCoproc_frame _ _ _)

/-- Whether or not the block fits, only the response and the model's record change. -/
theorem audioReply_frame (a n : Word) (s : State) : WriteFrame s (audioReply a n s) := by
  unfold audioReply
  split
  · exact ((countAudio_frame s).trans (stageAudio_frame _ _ _).toWrite).trans (writeCoproc_frame _ _ _)
  · exact (countAudio_frame s).trans (writeCoproc_frame _ _ _)

theorem commandAudio_frame (s : State) : WriteFrame s (commandAudio s) :=
  (((readCoproc_frame .paramAddr s).trans (readWord_frame _ _)).trans (readWord_frame _ _)).toWrite.trans
    (audioReply_frame _ _ _)

/-- No command touches a register, a status bit or the counter. -/
theorem handleCommand_frame (c : Word) (s : State) : WriteFrame s (handleCommand c s) := by
  unfold handleCommand
  split
  · exact commandTrivial_frame s
  · split
    · exact commandCopy_frame s
    · split
      · exact commandAudio_frame s
      · exact commandUnknown_frame s

theorem writeCoproc_storageOk {r : CoprocReg} {v : Word} {s : State} (h : StorageOk s) :
    StorageOk (writeCoproc r v s) := writeWord_storageOk h

theorem ReadFrame.storageOk {s t : State} (f : ReadFrame s t) (h : StorageOk s) : StorageOk t :=
  h.congr f.mem f.pixels f.config

theorem commandCopy_storageOk {s : State} (h : StorageOk s) : StorageOk (commandCopy s) :=
  writeCoproc_storageOk (dmaCopy_storageOk ((readCoproc_frame _ s).storageOk h))

theorem audioReply_storageOk {a n : Word} {s : State} (h : StorageOk s) : StorageOk (audioReply a n s) := by
  have hc : StorageOk s.countAudio := h.congr rfl rfl rfl
  unfold audioReply
  split
  · exact writeCoproc_storageOk ((stageAudio_frame _ _ _).storageOk hc)
  · exact writeCoproc_storageOk hc

theorem commandAudio_storageOk {s : State} (h : StorageOk s) : StorageOk (commandAudio s) :=
  audioReply_storageOk (readWord_storageOk (readWord_storageOk ((readCoproc_frame _ s).storageOk h)))

theorem handleCommand_storageOk {c : Word} {s : State} (h : StorageOk s) : StorageOk (handleCommand c s) := by
  unfold handleCommand
  split
  · exact writeCoproc_storageOk h
  · split
    · exact commandCopy_storageOk h
    · split
      · exact commandAudio_storageOk h
      · exact writeCoproc_storageOk h

/-- Everything a poll can do (60_exceptions.md R166, R167, R174): nothing but the read of the command register,
or a command, its completion writes and a raise. -/
theorem coprocessorPoll_cases (s : State) :
    ((readCoproc .command s).1 = 0 ∧ coprocessorPoll s = (readCoproc .command s).2) ∨
    ((readCoproc .command s).1 ≠ 0 ∧
      coprocessorPoll s = completeCommand (handleCommand (readCoproc .command s).1 (readCoproc .command s).2)) := by
  simp only [coprocessorPoll]
  by_cases h : (readCoproc .command s).1 = 0
  · exact .inl ⟨h, if_pos h⟩
  · exact .inr ⟨h, if_neg h⟩

/-- A poll is some memory work of the coprocessor and then at most a raise of the coprocessor's interrupt. -/
theorem coprocessorPoll_split (s : State) :
    ∃ u, WriteFrame s u ∧ (StorageOk s → StorageOk u) ∧
      (coprocessorPoll s = u ∨ coprocessorPoll s = raise s.config.coprocIrq u) := by
  rcases coprocessorPoll_cases s with ⟨-, h⟩ | ⟨-, h⟩
  · exact ⟨_, (readCoproc_frame .command s).toWrite, (readCoproc_frame .command s).storageOk, .inl h⟩
  · have f := ((readCoproc_frame .command s).toWrite.trans (handleCommand_frame (readCoproc .command s).1 _))
    refine ⟨_, (f.trans (writeCoproc_frame .status 1 _)).trans (writeCoproc_frame .command 0 _), fun hs =>
      writeCoproc_storageOk (writeCoproc_storageOk (handleCommand_storageOk
        ((readCoproc_frame .command s).storageOk hs))), .inr ?_⟩
    rw [h, completeCommand, f.config]

/-- While interrupts are disabled a poll takes no interrupt (60_exceptions.md R156). -/
theorem coprocessorPoll_disabled {s : State} (h : s.interruptsEnabled = false) :
    (coprocessorPoll s).pc = s.pc ∧ (coprocessorPoll s).lr = s.lr ∧
    (coprocessorPoll s).interruptsEnabled = false ∧ (coprocessorPoll s).kernelMode = s.kernelMode := by
  obtain ⟨u, f, -, hp⟩ := coprocessorPoll_split s
  have hu : u.interruptsEnabled = false := f.interruptsEnabled.trans h
  have e : coprocessorPoll s = u := by
    rcases hp with hp | hp
    · exact hp
    · rw [hp, raise, hu, if_neg (by decide)]
  rw [e]
  exact ⟨f.pc, State.readSpr_congr f.spr, hu, f.kernelMode⟩

/-- What a poll leaves alone. -/
structure PollFrame (s t : State) : Prop where
  gpr : t.gpr = s.gpr
  fpr : t.fpr = s.fpr
  spr : ∀ n, n ≠ lrIdx → t.readSpr n = s.readSpr n
  running : t.running = s.running
  cycleCount : t.cycleCount = s.cycleCount
  config : t.config = s.config

theorem coprocessorPoll_frame (s : State) : PollFrame s (coprocessorPoll s) := by
  obtain ⟨u, f, -, h | h⟩ := coprocessorPoll_split s <;> rw [h]
  · exact ⟨f.gpr, f.fpr, fun n _ => State.readSpr_congr f.spr, f.running, f.cycleCount, f.config⟩
  · have r := raise_frame s.config.coprocIrq u
    exact ⟨r.gpr.trans f.gpr, r.fpr.trans f.fpr, fun n hn => (r.spr n hn).trans (State.readSpr_congr f.spr),
      r.running.trans f.running, r.cycleCount.trans f.cycleCount, r.config.trans f.config⟩

theorem coprocessorPoll_storageOk {s : State} (h : StorageOk s) : StorageOk (coprocessorPoll s) := by
  obtain ⟨u, -, hu, hp | hp⟩ := coprocessorPoll_split s <;> rw [hp]
  · exact hu h
  · have r := raise_frame s.config.coprocIrq u
    exact (hu h).congr r.mem r.pixels r.config

end Sys2Proof.Machine
end

