-- ==== Sys2Proof/Laws/Decode.lean ====
section
/-! SUPPORT. The decoder inverted once: what it says of a word that it gives an instruction, and what it says that
it gives none. -/

namespace Sys2Proof

theorem opcd_toNat (w : Word) : (opcd w).toNat = w.toNat / 2 ^ 26 := by
  have := w.isLt
  rw [opcd, toNat_field]
  omega

theorem xo10_toNat (w : Word) : (xo10 w).toNat = w.toNat / 2 % 2 ^ 10 := by
  rw [xo10, toNat_field]
  simp

theorem xo5_toNat (w : Word) : (xo5 w).toNat = w.toNat / 2 % 2 ^ 5 := by
  rw [xo5, toNat_field]
  simp

theorem field5_val (w : Word) (lo : Nat) : (field5 w lo).val = w.toNat / 2 ^ lo % 32 := by
  show (w.extractLsb' lo 5).toNat = _
  rw [toNat_field]
  norm_num

theorem crfField_val (w : Word) : (crfField w).val = w.toNat / 2 ^ 23 % 8 := by
  show (w.extractLsb' 23 3).toNat = _
  rw [toNat_field]
  norm_num

theorem imm16_toNat (w : Word) : (imm16 w).toNat = w.toNat % 2 ^ 16 := by
  rw [imm16, toNat_field]
  simp

/-- What a word has to hold to decode to an instruction: the row's selector and the fields (R83). -/
def DecodesAs (w : Word) : Instr → Prop
  | .addi x y z => (opcd w).toNat = 14 ∧ x = field5 w 21 ∧ y = field5 w 16 ∧ z = imm16 w
  | .addis x y z => (opcd w).toNat = 15 ∧ x = field5 w 21 ∧ y = field5 w 16 ∧ z = imm16 w
  | .andi x y z => (opcd w).toNat = 28 ∧ x = field5 w 21 ∧ y = field5 w 16 ∧ z = imm16 w
  | .ori x y z => (opcd w).toNat = 24 ∧ x = field5 w 21 ∧ y = field5 w 16 ∧ z = imm16 w
  | .lwz x y z => (opcd w).toNat = 32 ∧ x = field5 w 21 ∧ y = field5 w 16 ∧ z = imm16 w
  | .stw x y z => (opcd w).toNat = 36 ∧ x = field5 w 21 ∧ y = field5 w 16 ∧ z = imm16 w
  | .add x y z => ((opcd w).toNat = 31 ∧ (xo10 w).toNat = 266) ∧ x = field5 w 21 ∧ y = field5 w 16 ∧
      z = field5 w 11
  | .subf x y z => ((opcd w).toNat = 31 ∧ (xo10 w).toNat = 40) ∧ x = field5 w 21 ∧ y = field5 w 16 ∧
      z = field5 w 11
  | .mullw x y z => ((opcd w).toNat = 31 ∧ (xo10 w).toNat = 235) ∧ x = field5 w 21 ∧ y = field5 w 16 ∧
      z = field5 w 11
  | .cmp f y z => ((opcd w).toNat = 31 ∧ (xo10 w).toNat = 0) ∧ f = crfField w ∧ y = field5 w 16 ∧ z = field5 w 11
  | .b d aa lk => (opcd w).toNat = 18 ∧ d = liDisp w ∧ aa = w.getLsbD 1 ∧ lk = w.getLsbD 0
  | .bc bo bi d aa lk => (opcd w).toNat = 16 ∧ bo = w.extractLsb' 21 5 ∧ bi = field5 w 16 ∧ d = bdDisp w ∧
      aa = w.getLsbD 1 ∧ lk = w.getLsbD 0
  | .psAdd x y z => ((opcd w).toNat = 4 ∧ (xo5 w).toNat = 21) ∧ x = field5 w 21 ∧ y = field5 w 16 ∧ z = field5 w 11
  | .psSub x y z => ((opcd w).toNat = 4 ∧ (xo5 w).toNat = 20) ∧ x = field5 w 21 ∧ y = field5 w 16 ∧ z = field5 w 11
  | .psMul x y z => ((opcd w).toNat = 4 ∧ (xo5 w).toNat = 25) ∧ x = field5 w 21 ∧ y = field5 w 16 ∧ z = field5 w 6
  | .sc => (opcd w).toNat = 17
  | .rfi => (opcd w).toNat = 19 ∧ (xo10 w).toNat = 50
  | .isync => (opcd w).toNat = 19 ∧ (xo10 w).toNat = 150
  | .sync => (opcd w).toNat = 31 ∧ (xo10 w).toNat = 598
  | .eieio => (opcd w).toNat = 31 ∧ (xo10 w).toNat = 854

/-- An instruction that comes out of the decoder has its row's selector and the fields of its format. -/
theorem decode_ok {w : Word} {i : Instr} (h : decode w = .ok i) : DecodesAs w i := by
  unfold decode at h
  split at h
  case h_1 ho => unfold decode4 at h; split at h <;> rename_i hx <;> cases h <;> exact ⟨⟨ho, hx⟩, rfl, rfl, rfl⟩
  case h_7 ho => unfold decode19 at h; split at h <;> rename_i hx <;> cases h <;> exact ⟨ho, hx⟩
  case h_10 ho =>
    unfold decode31 at h; split at h <;> rename_i hx <;> cases h
    · exact ⟨⟨ho, hx⟩, rfl, rfl, rfl⟩
    · exact ⟨⟨ho, hx⟩, rfl, rfl, rfl⟩
    · exact ⟨⟨ho, hx⟩, rfl, rfl, rfl⟩
    · exact ⟨⟨ho, hx⟩, rfl, rfl, rfl⟩
    · exact ⟨ho, hx⟩
    · exact ⟨ho, hx⟩
  case h_5 ho => cases h; exact ho
  case h_4 ho => cases h; exact ⟨ho, rfl, rfl, rfl, rfl, rfl⟩
  case h_13 ho => cases h
  all_goals (rename_i ho; cases h; exact ⟨ho, rfl, rfl, rfl⟩)

/-- A word with an instruction's selector and fields decodes to it. -/
theorem decode_of_decodesAs {w : Word} {i : Instr} (h : DecodesAs w i) : decode w = .ok i := by
  cases i with
  | addi _ _ _ => obtain ⟨ho, rfl, rfl, rfl⟩ := h; simp only [decode, ho]
  | addis _ _ _ => obtain ⟨ho, rfl, rfl, rfl⟩ := h; simp only [decode, ho]
  | andi _ _ _ => obtain ⟨ho, rfl, rfl, rfl⟩ := h; simp only [decode, ho]
  | ori _ _ _ => obtain ⟨ho, rfl, rfl, rfl⟩ := h; simp only [decode, ho]
  | lwz _ _ _ => obtain ⟨ho, rfl, rfl, rfl⟩ := h; simp only [decode, ho]
  | stw _ _ _ => obtain ⟨ho, rfl, rfl, rfl⟩ := h; simp only [decode, ho]
  | add _ _ _ => obtain ⟨⟨ho, hx⟩, rfl, rfl, rfl⟩ := h; simp only [decode, ho, decode31, hx]
  | subf _ _ _ => obtain ⟨⟨ho, hx⟩, rfl, rfl, rfl⟩ := h; simp only [decode, ho, decode31, hx]
  | mullw _ _ _ => obtain ⟨⟨ho, hx⟩, rfl, rfl, rfl⟩ := h; simp only [decode, ho, decode31, hx]
  | cmp _ _ _ => obtain ⟨⟨ho, hx⟩, rfl, rfl, rfl⟩ := h; simp only [decode, ho, decode31, hx]
  | b _ _ _ => obtain ⟨ho, rfl, rfl, rfl⟩ := h; simp only [decode, ho]
  | bc _ _ _ _ _ => obtain ⟨ho, rfl, rfl, rfl, rfl, rfl⟩ := h; simp only [decode, ho]
  | psAdd _ _ _ => obtain ⟨⟨ho, hx⟩, rfl, rfl, rfl⟩ := h; simp only [decode, ho, decode4, hx]
  | psSub _ _ _ => obtain ⟨⟨ho, hx⟩, rfl, rfl, rfl⟩ := h; simp only [decode, ho, decode4, hx]
  | psMul _ _ _ => obtain ⟨⟨ho, hx⟩, rfl, rfl, rfl⟩ := h; simp only [decode, ho, decode4, hx]
  | sc => simp only [decode, show (opcd w).toNat = 17 from h]
  | rfi => simp only [decode, h.1, decode19, h.2]
  | sync => simp only [decode, h.1, decode31, h.2]
  | isync => simp only [decode, h.1, decode19, h.2]
  | eieio => simp only [decode, h.1, decode31, h.2]

/-! ## A row of the opcode table gives its selectors -/

theorem opcd_of_row {w : Word} {n : Nat} (h : w &&& 0xFC000000#32 = BitVec.ofNat 32 (n * 2 ^ 26)) (hn : n < 64) :
    (opcd w).toNat = n := by
  rw [and_opcdMask] at h
  have := congrArg BitVec.toNat h
  have := w.isLt
  rw [opcd_toNat]
  simp only [BitVec.toNat_ofNat] at *
  omega

theorem xo10_of_row {w : Word} {n k : Nat}
    (h : w &&& 0xFC0007FE#32 = BitVec.ofNat 32 (n * 2 ^ 26 + k * 2)) (hn : n < 64) (hk : k < 1024) :
    (opcd w).toNat = n ∧ (xo10 w).toNat = k := by
  rw [and_xo10Mask] at h
  have := congrArg BitVec.toNat h
  have := w.isLt
  rw [opcd_toNat, xo10_toNat]
  simp only [BitVec.toNat_ofNat] at *
  omega

theorem xo5_of_row {w : Word} {n k : Nat}
    (h : w &&& 0xFC00003E#32 = BitVec.ofNat 32 (n * 2 ^ 26 + k * 2)) (hn : n < 64) (hk : k < 32) :
    (opcd w).toNat = n ∧ (xo5 w).toNat = k := by
  rw [and_xo5Mask] at h
  have := congrArg BitVec.toNat h
  have := w.isLt
  rw [opcd_toNat, xo5_toNat]
  simp only [BitVec.toNat_ofNat] at *
  omega

/-! ## Words the decoder rejects -/

/-- The primary opcodes of the map (R79). -/
def knownPrimaries : List Nat := [4, 14, 15, 16, 17, 18, 19, 24, 28, 31, 32, 36]

/-- A selector that no map of R80 to R82 lists under the word's primary opcode. -/
def SelectorUnknown (w : Word) : Prop :=
  ((opcd w).toNat = 31 ∧ (xo10 w).toNat ∉ [0, 40, 235, 266, 598, 854]) ∨
  ((opcd w).toNat = 19 ∧ (xo10 w).toNat ∉ [50, 150]) ∨
  ((opcd w).toNat = 4 ∧ (xo5 w).toNat ∉ [20, 21, 25])

/-- A word the decoder rejects, and by which name (R85). -/
theorem decode_error {w : Word} {e : Illegal} (h : decode w = .error e) :
    (e = .unknownOpcode ∧ (opcd w).toNat ∉ knownPrimaries) ∨
    (e = .unknownExtendedOpcode ∧ SelectorUnknown w) := by
  unfold decode at h
  split at h
  case h_1 ho =>
    unfold decode4 at h
    split at h <;> cases h
    exact .inr ⟨rfl, .inr (.inr ⟨ho, by simp_all⟩)⟩
  case h_7 ho =>
    unfold decode19 at h
    split at h <;> cases h
    exact .inr ⟨rfl, .inr (.inl ⟨ho, by simp_all⟩)⟩
  case h_10 ho =>
    unfold decode31 at h
    split at h <;> cases h
    exact .inr ⟨rfl, .inl ⟨ho, by simp_all⟩⟩
  case h_13 =>
    cases h
    exact .inl ⟨rfl, by simp_all [knownPrimaries]⟩
  all_goals cases h

end Sys2Proof
end

