-- ==== Sys2Proof/Laws/Layout.lean ====
section
/-! SUPPORT. Word accesses at addresses whose physical place is known, the five coprocessor registers among them, and
the writes that end every command. -/

namespace Sys2Proof.Machine

variable {s : State} {a v : Word} {p : Nat}

/-- A read at a known place is the word there and changes nothing. -/
theorem readWord_at (h : ReadsAt s.config a p) : readWord a s = (s.mem.wordAt p, s) := by
  obtain ⟨ha, hp, hb⟩ := h
  unfold readWord inBounds
  rw [if_neg ha, hp, if_pos (by simpa using hb)]

/-- A write at a known place, memory and the model's record. -/
theorem writeWord_at (h : LiesAt s.config a p) :
    (writeWord a v s).mem = s.mem.putWord p v ∧ (writeWord a v s).events = s.events ∧
    (writeWord a v s).inputReads = s.inputReads ∧ (writeWord a v s).audioPolls = s.audioPolls := by
  obtain ⟨hp, hb⟩ := h
  rcases @writeWord_cases s a v with ⟨hc, -⟩ | ⟨-, i, -, e⟩ | ⟨-, -, e⟩
  · omega
  · rw [e, ← hp]; exact ⟨rfl, rfl, rfl, rfl⟩
  · rw [e, ← hp]; exact ⟨rfl, rfl, rfl, rfl⟩

/-- A register's place among the five. -/
def coprocIndex : CoprocReg → Nat
  | .command => 0
  | .response => 1
  | .paramAddr => 2
  | .resultAddr => 3
  | .status => 4

theorem coprocAddr_at {c : Config} (h : CoprocAt c p) (r : CoprocReg) :
    ReadsAt c (coprocAddr c r) (p + 4 * coprocIndex r) := by
  have := h (coprocIndex r) (by cases r <;> decide)
  cases r <;> exact this

theorem readCoproc_at (h : CoprocAt s.config p) (r : CoprocReg) :
    readCoproc r s = (s.mem.wordAt (p + 4 * coprocIndex r), s) := readWord_at (coprocAddr_at h r)

theorem writeCoproc_at (h : CoprocAt s.config p) (r : CoprocReg) (v : Word) :
    (writeCoproc r v s).mem = s.mem.putWord (p + 4 * coprocIndex r) v ∧
    (writeCoproc r v s).events = s.events ∧ (writeCoproc r v s).inputReads = s.inputReads ∧
    (writeCoproc r v s).audioPolls = s.audioPolls := writeWord_at (coprocAddr_at h r).2

/-- Memory after the completion of a command. -/
theorem completeCommand_at (h : CoprocAt s.config p) :
    (completeCommand s).mem = (s.mem.putWord (p + 16) 1).putWord p 0 ∧ (completeCommand s).events = s.events ∧
    (completeCommand s).inputReads = s.inputReads ∧ (completeCommand s).audioPolls = s.audioPolls := by
  have h1 := writeCoproc_at h .status 1
  have h2 := writeCoproc_at (s := writeCoproc .status 1 s)
    (by rw [(writeCoproc_frame .status 1 s).config]; exact h) .command 0
  have r := raise_frame s.config.coprocIrq (writeCoproc .command 0 (writeCoproc .status 1 s))
  refine ⟨?_, ?_, ?_, ?_⟩
  · exact r.mem.trans (h2.1.trans (by rw [h1.1]; rfl))
  · exact r.events.trans (h2.2.1.trans h1.2.1)
  · exact r.inputReads.trans (h2.2.2.1.trans h1.2.2.1)
  · exact r.audioPolls.trans (h2.2.2.2.trans h1.2.2.2)

/-- A poll by the word at the command register's place. -/
theorem coprocessorPoll_at (h : CoprocAt s.config p) :
    coprocessorPoll s =
      if s.mem.wordAt p = 0 then s else completeCommand (handleCommand (s.mem.wordAt p) s) := by
  simp only [coprocessorPoll, readCoproc_at h, coprocIndex, Nat.mul_zero, Nat.add_zero]

/-! ## The canonical form of memory alone -/

theorem writeWord_memOk (h : s.mem.wf) : (writeWord a v s).mem.wf := by
  rcases @writeWord_cases s a v with ⟨-, e⟩ | ⟨-, i, -, e⟩ | ⟨-, -, e⟩ <;> rw [e]
  · exact h
  · exact Memory.putWord_wf h
  · exact Memory.putWord_wf h

theorem copyWords_memOk {n : Nat} {src dst : Word} {s : State} (h : s.mem.wf) : (copyWords n src dst s).mem.wf := by
  induction n generalizing src dst s with
  | zero => exact h
  | succ n ih => exact ih (writeWord_memOk (by rw [(readWord_frame src s).mem]; exact h))

theorem dmaCopy_memOk {pa : Word} (h : s.mem.wf) : (dmaCopy pa s).mem.wf := by
  have f := ((readWord_frame pa s).trans (readWord_frame (pa + 4) _)).trans (readWord_frame (pa + 8) _)
  simp only [dmaCopy]
  apply copyWords_memOk
  rw [f.mem]
  exact h

end Sys2Proof.Machine
end

