-- ==== Sys2Proof/Laws/PerInstr.lean ====
section
/-! SUPPORT. Statements made per instruction: the encoder puts each instruction under the match and mask of its
row of spec/opcode_table.json. -/

namespace Sys2Proof.Laws.EncodesUnderItsRow

/-- An instruction's word matches its row. -/
def Statement (i : Instr) : Prop := encode i &&& i.tableRow.1 = i.tableRow.2

theorem match_opcd {w m : Word} (h : w.toNat / 2 ^ 26 * 2 ^ 26 = m.toNat) : w &&& 0xFC000000#32 = m := by
  rw [and_opcdMask, h]
  simp

theorem match_xo10 {w m : Word} (h : w.toNat / 2 ^ 26 * 2 ^ 26 + w.toNat / 2 % 2 ^ 10 * 2 = m.toNat) :
    w &&& 0xFC0007FE#32 = m := by
  rw [and_xo10Mask, h]
  simp

theorem match_xo5 {w m : Word} (h : w.toNat / 2 ^ 26 * 2 ^ 26 + w.toNat / 2 % 2 ^ 5 * 2 = m.toNat) :
    w &&& 0xFC00003E#32 = m := by
  rw [and_xo5Mask, h]
  simp

theorem addi (rD rA : Idx5) (simm : BitVec 16) : Statement (.addi rD rA simm) := by
  have h1 := rD.isLt
  have h2 := rA.isLt
  have h3 := simm.isLt
  refine match_opcd ?_
  rw [encode, encD_toNat]
  simp [Instr.tableRow]
  omega

theorem addis (rD rA : Idx5) (simm : BitVec 16) : Statement (.addis rD rA simm) := by
  have h1 := rD.isLt
  have h2 := rA.isLt
  have h3 := simm.isLt
  refine match_opcd ?_
  rw [encode, encD_toNat]
  simp [Instr.tableRow]
  omega

theorem add (rD rA rB : Idx5) : Statement (.add rD rA rB) := by
  have h1 := rD.isLt
  have h2 := rA.isLt
  have h3 := rB.isLt
  refine match_xo10 ?_
  rw [encode, encXO_toNat]
  simp [Instr.tableRow]
  omega

theorem subf (rD rA rB : Idx5) : Statement (.subf rD rA rB) := by
  have h1 := rD.isLt
  have h2 := rA.isLt
  have h3 := rB.isLt
  refine match_xo10 ?_
  rw [encode, encXO_toNat]
  simp [Instr.tableRow]
  omega

theorem mullw (rD rA rB : Idx5) : Statement (.mullw rD rA rB) := by
  have h1 := rD.isLt
  have h2 := rA.isLt
  have h3 := rB.isLt
  refine match_xo10 ?_
  rw [encode, encXO_toNat]
  simp [Instr.tableRow]
  omega

theorem andi (rS rA : Idx5) (uimm : BitVec 16) : Statement (.andi rS rA uimm) := by
  have h1 := rS.isLt
  have h2 := rA.isLt
  have h3 := uimm.isLt
  refine match_opcd ?_
  rw [encode, encD_toNat]
  simp [Instr.tableRow]
  omega

theorem ori (rS rA : Idx5) (uimm : BitVec 16) : Statement (.ori rS rA uimm) := by
  have h1 := rS.isLt
  have h2 := rA.isLt
  have h3 := uimm.isLt
  refine match_opcd ?_
  rw [encode, encD_toNat]
  simp [Instr.tableRow]
  omega

theorem cmp (crfD : CrField) (rA rB : Idx5) : Statement (.cmp crfD rA rB) := by
  have h1 := crfD.isLt
  have h2 := rA.isLt
  have h3 := rB.isLt
  refine match_xo10 ?_
  rw [encode_cmp_toNat]
  simp [Instr.tableRow]
  omega

theorem b (disp : Word) (aa lk : Bool) : Statement (.b disp aa lk) := by
  have h1 := aa.toNat_lt
  have h2 := lk.toNat_lt
  refine match_opcd ?_
  rw [encode_b_toNat]
  simp [Instr.tableRow]
  omega

theorem bc (bo : BitVec 5) (bi : Idx5) (disp : Word) (aa lk : Bool) : Statement (.bc bo bi disp aa lk) := by
  have h1 := aa.toNat_lt
  have h2 := lk.toNat_lt
  have h3 := bo.isLt
  have h4 := bi.isLt
  refine match_opcd ?_
  rw [encode_bc_toNat]
  simp [Instr.tableRow]
  omega

theorem lwz (rD rA : Idx5) (d : BitVec 16) : Statement (.lwz rD rA d) := by
  have h1 := rD.isLt
  have h2 := rA.isLt
  have h3 := d.isLt
  refine match_opcd ?_
  rw [encode, encD_toNat]
  simp [Instr.tableRow]
  omega

theorem stw (rS rA : Idx5) (d : BitVec 16) : Statement (.stw rS rA d) := by
  have h1 := rS.isLt
  have h2 := rA.isLt
  have h3 := d.isLt
  refine match_opcd ?_
  rw [encode, encD_toNat]
  simp [Instr.tableRow]
  omega

theorem psAdd (frD frA frB : Idx5) : Statement (.psAdd frD frA frB) := by
  have h1 := frD.isLt
  have h2 := frA.isLt
  have h3 := frB.isLt
  refine match_xo5 ?_
  rw [encode, encA_toNat]
  simp [Instr.tableRow]
  omega

theorem psSub (frD frA frB : Idx5) : Statement (.psSub frD frA frB) := by
  have h1 := frD.isLt
  have h2 := frA.isLt
  have h3 := frB.isLt
  refine match_xo5 ?_
  rw [encode, encA_toNat]
  simp [Instr.tableRow]
  omega

theorem psMul (frD frA frC : Idx5) : Statement (.psMul frD frA frC) := by
  have h1 := frD.isLt
  have h2 := frA.isLt
  have h3 := frC.isLt
  refine match_xo5 ?_
  rw [encode, encA_toNat]
  simp [Instr.tableRow]
  omega

theorem sc : Statement .sc := by unfold Statement; decide

theorem rfi : Statement .rfi := by unfold Statement; decide

theorem sync : Statement .sync := by unfold Statement; decide

theorem isync : Statement .isync := by unfold Statement; decide

theorem eieio : Statement .eieio := by unfold Statement; decide

end Sys2Proof.Laws.EncodesUnderItsRow
end

