-- ==== Sys2Proof/Laws/Step.lean ====
section
/-! SUPPORT. Every instruction completes, and everything a step can do, once. -/

namespace Sys2Proof.Machine

/-- The next state of an instruction. -/
def execNext (i : Instr) (s : State) : State :=
  match exec i s with
  | .next t => t
  | .fault _ => s
  | .refused _ => s

/-- Every instruction answers a next state in every state: no instruction faults or is refused. -/
theorem exec_completes (i : Instr) (s : State) : exec i s = .next (execNext i s) := by
  cases i <;> rfl

/-- What no instruction changes. -/
theorem exec_frame (i : Instr) (s : State) :
    (execNext i s).running = s.running ∧ (execNext i s).cycleCount = s.cycleCount ∧
    (execNext i s).config = s.config ∧ (execNext i s).audioPolls = s.audioPolls := by
  cases i
  case lwz rD rA d =>
    have f := readWord_frame (s.effectiveAddr rA d) s
    exact ⟨f.running, f.cycleCount, f.config, f.audioPolls⟩
  case stw rS rA d =>
    have f := writeWord_frame (s.effectiveAddr rA d) (s.readGpr rS) s
    refine ⟨f.running, f.cycleCount, f.config, ?_⟩
    show (writeWord (s.effectiveAddr rA d) (s.readGpr rS) s).audioPolls = _
    rcases @writeWord_cases s (s.effectiveAddr rA d) (s.readGpr rS) with ⟨-, h⟩ | ⟨-, i, -, h⟩ | ⟨-, -, h⟩ <;>
      rw [h] <;> rfl
  case sc =>
    have f := raise_frame s.config.syscallIrq s.advance
    exact ⟨f.running, f.cycleCount, f.config, f.audioPolls⟩
  case b _ _ lk => cases lk <;> exact ⟨rfl, rfl, rfl, rfl⟩
  case bc _ _ _ _ lk => cases lk <;> exact ⟨rfl, rfl, rfl, rfl⟩
  all_goals exact ⟨rfl, rfl, rfl, rfl⟩

/-- Interrupts and the mode after an instruction: `rfi` enables, `sc` may take its interrupt, nothing else. -/
theorem exec_status (i : Instr) (s : State) :
    ((execNext i s).kernelMode = s.kernelMode ∧ ((execNext i s).interruptsEnabled = s.interruptsEnabled ∨
      (i = .rfi ∧ (execNext i s).interruptsEnabled = true))) ∨
    (i = .sc ∧ s.interruptsEnabled = true ∧ execNext i s = raise s.config.syscallIrq s.advance) := by
  cases i
  case lwz rD rA d =>
    have f := readWord_frame (s.effectiveAddr rA d) s
    exact .inl ⟨f.kernelMode, .inl f.interruptsEnabled⟩
  case stw rS rA d =>
    have f := writeWord_frame (s.effectiveAddr rA d) (s.readGpr rS) s
    exact .inl ⟨f.kernelMode, .inl f.interruptsEnabled⟩
  case sc =>
    rcases raise_cases s.config.syscallIrq s.advance with ⟨-, e⟩ | ⟨h, -⟩
    · have hk : execNext .sc s = s.advance := e
      rw [hk]
      exact .inl ⟨rfl, .inl rfl⟩
    · exact .inr ⟨rfl, h, rfl⟩
  case b _ _ lk => cases lk <;> exact .inl ⟨rfl, .inl rfl⟩
  case bc _ _ _ _ lk => cases lk <;> exact .inl ⟨rfl, .inl rfl⟩
  case rfi => exact .inl ⟨rfl, .inr ⟨rfl, rfl⟩⟩
  all_goals exact .inl ⟨rfl, .inl rfl⟩

/-- Everything a step can do (30_encoding.md R89 to R95). -/
theorem step_cases (s : State) :
    (configOk s.config = false ∧ step s = .refused .badConfiguration) ∨
    (configOk s.config = true ∧ s.running = false ∧ step s = .fault .halted) ∨
    (configOk s.config = true ∧ s.running = true ∧ ∃ why, decode (fetch s).1 = .error why ∧
      step s = .next (halt why (fetch s).1 (fetch s).2)) ∨
    (configOk s.config = true ∧ s.running = true ∧ ∃ i, decode (fetch s).1 = .ok i ∧
      step s = .next (finishStep (execNext i (fetch s).2))) := by
  unfold step
  cases hc : configOk s.config with
  | false => exact .inl ⟨rfl, rfl⟩
  | true =>
    cases hr : s.running with
    | false => exact .inr (.inl ⟨rfl, rfl, rfl⟩)
    | true =>
      cases hd : decode (fetch s).1 with
      | error why => exact .inr (.inr (.inl ⟨rfl, rfl, why, rfl, by simp [runCycle, runDecoded, hd]⟩))
      | ok i =>
        exact .inr (.inr (.inr ⟨rfl, rfl, i, rfl, by simp [runCycle, runDecoded, hd, exec_completes]⟩))

/-- A step that answers a next state halted on an illegal word or ran the instruction it fetched. -/
theorem step_next {s t : State} (h : step s = .next t) :
    (∃ why, decode (fetch s).1 = .error why ∧ t = halt why (fetch s).1 (fetch s).2) ∨
    (∃ i, decode (fetch s).1 = .ok i ∧ t = finishStep (execNext i (fetch s).2)) := by
  rcases step_cases s with ⟨-, e⟩ | ⟨-, -, e⟩ | ⟨-, -, why, hd, e⟩ | ⟨-, -, i, hd, e⟩ <;> rw [e] at h
  · cases h
  · cases h
  · exact .inl ⟨why, hd, by cases h; rfl⟩
  · exact .inr ⟨i, hd, by cases h; rfl⟩

theorem fetch_frame (s : State) : ReadFrame s (fetch s).2 := readWord_frame _ s

/-- What a halt leaves alone: everything but `running` and the events. -/
theorem halt_frame (why : Illegal) (w : Word) (s : State) :
    (halt why w s).pc = s.pc ∧ (halt why w s).gpr = s.gpr ∧ (halt why w s).fpr = s.fpr ∧
    (halt why w s).spr = s.spr ∧ (halt why w s).interruptsEnabled = s.interruptsEnabled ∧
    (halt why w s).kernelMode = s.kernelMode ∧ (halt why w s).cycleCount = s.cycleCount ∧
    (halt why w s).mem = s.mem ∧ (halt why w s).pixels = s.pixels ∧ (halt why w s).config = s.config :=
  ⟨rfl, rfl, rfl, rfl, rfl, rfl, rfl, rfl, rfl, rfl⟩

/-- What the count and the poll leave alone. -/
theorem finishStep_frame (s : State) : PollFrame s.count (finishStep s) := coprocessorPoll_frame _

/-! ## Runs -/

theorem run_next {M : Host.Core} {n : Nat} {s t : M.State} (h : M.step s = .next t) :
    M.run (n + 1) s = M.run n t := by
  simp only [Host.Core.run, h]

theorem run_fault {M : Host.Core} {n : Nat} {s : M.State} {f : M.Fault} (h : M.step s = .fault f) :
    M.run (n + 1) s = .fault f := by
  simp only [Host.Core.run, h]

end Sys2Proof.Machine
end

