-- ==== Sys2Proof/Tests/Slice0.lean ====
section
/-! SUPPORT. The model's own tests: well-formedness, words written out from the formats of spec/30_encoding.md, one
step on small states with the expected results of spec/95_test_vectors.md, and for each obligation with hypotheses a
state and operands that meet them. -/

namespace Sys2Proof.Tests

open Sys2Proof.Machine

/-! ## Well-formed and ill-formed terms (30_encoding.md R75) -/

theorem test_wf_misaligned_b : Instr.wf (.b 2 false false) = false := by decide
theorem test_wf_misaligned_bc : Instr.wf (.bc 20 0 1 false false) = false := by decide
theorem test_wf_b_too_far_forward : Instr.wf (.b 0x02000000 false false) = false := by decide
theorem test_wf_b_too_far_backward : Instr.wf (.b 0xFDFFFFFC false false) = false := by decide
theorem test_wf_bc_too_far_forward : Instr.wf (.bc 20 0 0x8000 false false) = false := by decide
theorem test_wf_bc_too_far_backward : Instr.wf (.bc 20 0 0xFFFF7FFC false false) = false := by decide

/-! ## Each constructor's word, field by field from the formats of 30_encoding.md R72 -/

theorem test_decode_addi : decode (0b001110_00011_00100_1000000000000001#32) = .ok (.addi 3 4 0x8001) := by decide
theorem test_decode_addis : decode (0b001111_00110_00000_1000000000000000#32) = .ok (.addis 6 0 0x8000) := by decide
theorem test_decode_add : decode (0b011111_00011_00100_00101_0100001010_0#32) = .ok (.add 3 4 5) := by decide
theorem test_decode_subf : decode (0b011111_00011_00100_00101_0000101000_1#32) = .ok (.subf 3 4 5) := by decide
theorem test_decode_mullw : decode (0b011111_00011_00100_00101_0011101011_0#32) = .ok (.mullw 3 4 5) := by decide
theorem test_decode_andi : decode (0b011100_00100_00011_1111000000001111#32) = .ok (.andi 4 3 0xF00F) := by decide
theorem test_decode_ori : decode (0b011000_00100_00011_1111000000001111#32) = .ok (.ori 4 3 0xF00F) := by decide
theorem test_decode_cmp : decode (0b011111_101_0_1_00100_00101_0000000000_1#32) = .ok (.cmp 5 4 5) := by decide
theorem test_decode_b :
    decode (0b010010_111111111111111111111101_1_0#32) = .ok (.b 0xFFFFFFF4 true false) := by decide
theorem test_decode_bc :
    decode (0b010000_01100_11110_11111111111101_0_1#32) = .ok (.bc 12 30 0xFFFFFFF4 false true) := by decide
theorem test_decode_lwz : decode (0b100000_01000_00110_0000000100000000#32) = .ok (.lwz 8 6 0x100) := by decide
theorem test_decode_stw : decode (0b100100_00111_00110_1111111111111110#32) = .ok (.stw 7 6 0xFFFE) := by decide
theorem test_decode_psAdd : decode (0b000100_00001_00010_00011_11111_10101_1#32) = .ok (.psAdd 1 2 3) := by decide
theorem test_decode_psSub : decode (0b000100_00001_00010_00011_00000_10100_0#32) = .ok (.psSub 1 2 3) := by decide
theorem test_decode_psMul : decode (0b000100_00001_00010_00011_00100_11001_0#32) = .ok (.psMul 1 2 4) := by decide
theorem test_decode_sc : decode (0b010001_00000000000000000000000010#32) = .ok .sc := by decide
theorem test_decode_rfi : decode (0b010011_000000000000000_0000110010_0#32) = .ok .rfi := by decide
theorem test_decode_isync : decode (0b010011_000000000000000_0010010110_0#32) = .ok .isync := by decide
theorem test_decode_sync : decode (0b011111_000000000000000_1001010110_0#32) = .ok .sync := by decide
theorem test_decode_eieio : decode (0b011111_111111111111111_1101010110_1#32) = .ok .eieio := by decide
/-- Vectors B21, P-12, Y7, Y8 and Y9 of 95_test_vectors.md L2. -/
theorem test_decode_illegal :
    decode 0x4E800020 = .error .unknownExtendedOpcode ∧ decode 0x1000002C = .error .unknownExtendedOpcode ∧
    decode 0x7C6802A6 = .error .unknownExtendedOpcode ∧ decode 0x04000000 = .error .unknownOpcode ∧
    decode 0x7C000002 = .error .unknownExtendedOpcode := by decide
theorem test_decodeTableWord : decodeTableWord 32 0x7C642A14 = some (.add 3 4 5) ∧ decodeTableWord 32 0 = none := by
  decide
theorem test_decodeBytes :
    decodeBytes [0x38, 0x20, 0xFF, 0xFF, 0x01] = .instr (.addi 1 0 0xFFFF) [0x01] ∧
    decodeBytes [0x38, 0x20, 0xFF] = .truncated := by decide

/-! ## One step -/

/-- Reset, changed by `f`, with the word `w` at pc `pc`. -/
def start (pc : Word) (w : Nat) (f : State → State) : State := ((f State.reset).setPc pc).withFetchWord 32 w

/-- The next state of a step, where there is one. -/
def nextOf (s : State) : Option State :=
  match step s with
  | .next t => some t
  | .fault _ => none
  | .refused _ => none

/-- What `view` shows of the state after one step. -/
def after {α : Type} (s : State) (view : State → α) : Option α := (nextOf s).map view

theorem step_exists {s : State} {P : State → Bool} (h : (nextOf s).any P = true) :
    ∃ t, step s = .next t ∧ P t = true := by
  unfold nextOf at h
  cases e : step s with
  | next t => rw [e] at h; exact ⟨t, rfl, h⟩
  | fault f => rw [e] at h; cases h
  | refused r => rw [e] at h; cases h

/-- A word stored at a physical offset. -/
def poke (p : Nat) (v : Word) (s : State) : State := s.setMem (s.mem.putWord p v)

def base : Word := 0x80000000

/-! ### Integer: vectors I1 to I28 of 95_test_vectors.md L2.1 -/

theorem test_addi_wraps : after (start base 0x38630001 (fun s => s.writeGpr 3 0x7FFFFFFF))
    (fun t => (t.readGpr 3, t.cr, t.pc)) = some (0x80000000, 0, 0x80000004) := by decide
theorem test_addi_literal_zero :
    after (start base 0x38200001 (fun s => s.writeGpr 0 5)) (fun t => t.readGpr 1) = some 1 := by decide
theorem test_addis_literal_zero :
    after (start base 0x3CC08000 (fun s => s.writeGpr 0 7)) (fun t => t.readGpr 6) = some 0x80000000 := by decide
theorem test_addis_negative :
    after (start base 0x3C63FFFF (fun s => s.writeGpr 3 1)) (fun t => t.readGpr 3) = some 0xFFFF0001 := by decide
theorem test_add_record_form : after (start base 0x7C642A15 (fun s => (s.writeGpr 4 2).writeGpr 5 3))
    (fun t => (t.readGpr 3, t.cr)) = some (5, 0) := by decide
theorem test_add_same_register :
    after (start base 0x7C842214 (fun s => s.writeGpr 4 0x40000000)) (fun t => t.readGpr 4) = some 0x80000000 := by
  decide
theorem test_subf_order :
    after (start base 0x7C642850 (fun s => s.writeGpr 4 1)) (fun t => t.readGpr 3) = some 0xFFFFFFFF := by decide
theorem test_mullw_low_word : after (start base 0x7C6429D6 (fun s => (s.writeGpr 4 0xFFFFFFFD).writeGpr 5 7))
    (fun t => t.readGpr 3) = some 0xFFFFFFEB := by decide
theorem test_andi_keeps_cr : after (start base 0x7001FFFF (fun s => s.writeGpr 0 0xFFFFFFFF))
    (fun t => (t.readGpr 1, t.cr)) = some (0x0000FFFF, 0) := by decide
theorem test_ori_upper_half :
    after (start base 0x6083FFFF (fun s => s.writeGpr 4 0xFFFF0000)) (fun t => t.readGpr 3) = some 0xFFFFFFFF := by
  decide
theorem test_cmp_signed : after (start base 0x7C042800 (fun s => (s.writeGpr 4 0x80000000).writeGpr 5 0x7FFFFFFF))
    (fun t => t.cr) = some 0x80000000 := by decide
theorem test_cmp_last_field :
    after (start base 0x7F842800 (fun s => ((s.writeGpr 4 5).writeGpr 5 3).writeCr 0xFFFFFFFF))
    (fun t => t.cr) = some 0xFFFFFFF4 := by decide

/-! ### Branches: vectors B2 to B18 of L2.2 -/

theorem test_bl : after (start base 0x48000009 id) (fun t => (t.lr, t.pc)) = some (0x80000004, 0x80000008) := by
  decide
theorem test_ba_negative : after (start base 0x4A000002 id) (fun t => (t.lr, t.pc)) = some (0, 0xFE000000) := by
  decide
theorem test_bc_links_untaken : after (start 0x80000100 0x40820009 (fun s => s.writeCr 0x20000000))
    (fun t => (t.lr, t.pc)) = some (0x80000104, 0x80000104) := by decide
theorem test_bc_last_field : after (start 0x80000100 0x419CFFF8 (fun s => s.writeCr 0x00000008))
    (fun t => (t.lr, t.pc)) = some (0, 0x800000F8) := by decide

/-! ### Loads and stores: vectors M3, M5, M6 and M8 of L2.3 -/

theorem test_lwz_misaligned :
    after (start base 0x81260102 (fun s => (poke 0x100 0x11223344 s).writeGpr 6 0x80000000))
    (fun t => t.readGpr 9) = some 0x33440000 := by decide
theorem test_lwz_out_of_bounds :
    after (start base 0x8064FFFE (fun s => (s.writeGpr 4 0x02000000).writeGpr 3 9))
    (fun t => (t.readGpr 3, t.events, t.running)) = some (0, [.outOfBounds 0x01FFFFFE], true) := by decide
theorem test_stw_pixel :
    after (start base 0x90830004 (fun s => (s.writeGpr 3 0x81000000).writeGpr 4 0xFF0000FF))
    (fun t => (t.byteAt 0x01000004, t.byteAt 0x01000005, t.pixels)) = some (0xFF, 0x00, [(1, 0xFF0000FF)]) := by
  decide
theorem test_stw_out_of_bounds :
    after (start base 0x9064FFFE (fun s => (s.writeGpr 4 0x02000000).writeGpr 3 0xAABBCCDD))
    (fun t => (t.byteAt 0x01FFFFFE, t.byteAt 0x01FFFFFF, t.events)) = some (0, 0, [.outOfBounds 0x01FFFFFE]) := by
  decide

/-! ### Paired single: vectors P-1 to P-10 of L2.4 -/

/-- Two registers of two lanes, f2 and `r`. -/
def lanes (a b : Lanes) (r : Idx5) (s : State) : State := (s.writeFpr 2 a).writeFpr r b

theorem test_psAdd_overflow :
    after (start base 0x1022182A (lanes ⟨0x7F7FFFFF, 0x80000000⟩ ⟨0x7F7FFFFF, 0x80000000⟩ 3))
    (fun t => t.readFpr 1) = some ⟨0x7F800000, 0x80000000⟩ := by decide +kernel
theorem test_psAdd_tie :
    after (start base 0x1022182A (lanes ⟨0x3F800000, 0x3F800000⟩ ⟨0x33800000, 0x33800001⟩ 3))
    (fun t => t.readFpr 1) = some ⟨0x3F800000, 0x3F800001⟩ := by decide +kernel
theorem test_psSub : after (start base 0x10221828 (lanes ⟨0x3F800000, 0x40000000⟩ ⟨0x3F000000, 0xC0000000⟩ 3))
    (fun t => t.readFpr 1) = some ⟨0x3F000000, 0x40800000⟩ := by decide +kernel
theorem test_psMul_subnormal :
    after (start base 0x10220132 (lanes ⟨0x00800000, 0x00000003⟩ ⟨0x3F000000, 0x3F000000⟩ 4))
    (fun t => t.readFpr 1) = some ⟨0x00400000, 0x00000002⟩ := by decide +kernel
theorem test_psMul_ignores_frB :
    after (start base 0x10221932 (lanes ⟨0x40400000, 0xBF800000⟩ ⟨0x3F000000, 0x00000000⟩ 4))
    (fun t => t.readFpr 1) = some ⟨0x3FC00000, 0x80000000⟩ := by decide +kernel

/-! ### System: vectors Y1, Y2, Y4 and Y6 of L2.5 -/

theorem test_sc_enabled : after (start 0x80000014 0x47FFFFFF (fun s => s.setInterrupts true))
    (fun t => (t.lr, t.pc, t.interruptsEnabled, t.kernelMode)) = some (0x80000018, 0x80000C00, false, true) := by
  decide
theorem test_sc_disabled : after (start 0x80000014 0x44000002 id)
    (fun t => (t.lr, t.pc, t.interruptsEnabled, t.kernelMode)) = some (0, 0x80000018, false, false) := by decide
theorem test_rfi : after (start base 0x4C000064 (fun s => (s.writeLr 0x80000024).setKernel true))
    (fun t => (t.lr, t.pc, t.interruptsEnabled, t.kernelMode)) = some (0x80000024, 0x80000024, true, true) := by decide
theorem test_sync : after (start base 0x7C0004AC id) (fun t => (t.pc, t.cycleCount)) = some (0x80000004, 1) := by
  decide
theorem test_isync : after (start base 0x4C00012C id) (fun t => (t.pc, t.cycleCount)) = some (0x80000004, 1) := by
  decide
theorem test_eieio : after (start base 0x7C0006AC id) (fun t => (t.pc, t.cycleCount)) = some (0x80000004, 1) := by
  decide

/-! ### The coprocessor: vectors K1, K3, K5, K10 and K11 of L2.6, in the step of `stw r12, 0(r10)` -/

/-- The start state of L2.6: the command in r12. -/
def command (c : Word) (enabled : Bool) (f : State → State) : State :=
  start 0x80000100 0x918A0000 (fun s => (((f s).writeGpr 10 0xCD000000).writeGpr 12 c).setInterrupts enabled)

/-- command, response, paramAddr, resultAddr and status (20_memory.md R63, R64). -/
def coprocRegs (s : State) : List Word := [0, 4, 8, 12, 16].map (fun k => s.mem.wordAt (0x01810000 + k))

/-- paramAddr 0x80000200 and a parameter block there. -/
def params (x y z : Word) (s : State) : State :=
  poke 0x01810008 0x80000200 (poke 0x200 x (poke 0x204 y (poke 0x208 z s)))

/-- Words 1, 2, 3, … at physical 0x300. -/
def data (n : Nat) (s : State) : State :=
  (List.range n).foldr (fun k t => poke (0x300 + 4 * k) (BitVec.ofNat 32 (k + 1)) t) s

theorem test_command_1 : after (command 1 true id)
    (fun t => (coprocRegs t, t.lr, t.pc, t.interruptsEnabled, t.kernelMode)) =
    some ([0, 0, 0, 0, 1], 0x80000104, 0x80000500, false, true) := by decide
theorem test_command_1_disabled : after (command 1 false id) (fun t => (coprocRegs t, t.lr, t.pc, t.kernelMode)) =
    some ([0, 0, 0, 0, 1], 0, 0x80000104, false) := by decide
theorem test_command_unknown : after (command 0x103 true id) (fun t => (coprocRegs t, t.running)) =
    some ([0, 0xFF, 0, 0, 1], true) := by decide
theorem test_command_3_overlap :
    after (command 3 true (fun s => data 3 (params 0x80000300 0x80000304 12 s)))
    (fun t => [0x300, 0x304, 0x308, 0x30C].map t.mem.wordAt) = some [1, 1, 1, 1] := by decide +kernel
theorem test_command_3_over_registers :
    after (command 3 true (fun s => data 5 (params 0x80000300 0xCD000000 20 s))) coprocRegs =
    some [0, 0, 3, 4, 1] := by decide +kernel

/-! ## Witnesses: for each obligation with hypotheses, a case that meets them -/

/-- DecodeOfEncode at the extremes of both displacements. -/
theorem test_witness_DecodeOfEncode :
    Instr.wf (.b 0x01FFFFFC true true) ∧ Instr.wf (.b 0xFE000000 false false) ∧
    Instr.wf (.bc 31 31 0x7FFC true true) ∧ Instr.wf (.bc 0 0 0xFFFF8000 false false) := by decide
theorem test_witness_DecodedInstructionsAreWellFormed : decode 0x48000102 = .ok (.b 0x100 true false) := by decide
theorem test_witness_DecodeFollowsTheOpcodeTable :
    decode 0x7C642A15 = .ok (.add 3 4 5) ∧
    (0x7C642A15 : Word) &&& (Instr.add 0 0 0).tableRow.1 = (Instr.add 0 0 0).tableRow.2 := by decide
theorem test_witness_IgnoredBitsNeverMatter :
    decode 0x7C042800 = .ok (.cmp 0 4 5) ∧
    (0x7C042800 ^^^ 0x7C642801 : Word) &&& ~~~(Instr.cmp 0 4 5).ignoredBits = 0 := by decide
theorem test_witness_BranchDisplacementsOfWords :
    decode 0x49FFFFFC = .ok (.b 0x01FFFFFC false false) ∧ decode 0x4A000000 = .ok (.b 0xFE000000 false false) ∧
    decode 0x42807FFC = .ok (.bc 20 0 0x7FFC false false) ∧
    decode 0x42808000 = .ok (.bc 20 0 0xFFFF8000 false false) := by decide

theorem reset_configOk : configOk State.reset.config = true := by decide

/-- IllegalWordsHalt, one state for each clause; StepEnabledExactlyWhenRunning has the first one's hypothesis. -/
theorem test_witness_IllegalWordsHalt :
    configOk State.reset.config = true ∧ State.reset.running = true ∧
    (let w := (readWord State.reset.pc State.reset).1
     bitsOf w 26 6 ∉ [4, 14, 15, 16, 17, 18, 19, 24, 28, 31, 32, 36]) ∧
    (let s := start base 0x7C642E14 id
     let w := (readWord s.pc s).1
     s.running = true ∧ bitsOf w 26 6 = 31 ∧ bitsOf w 1 10 ∉ [0, 40, 235, 266, 598, 854]) ∧
    (let s := start base 0x4E800020 id
     let w := (readWord s.pc s).1
     bitsOf w 26 6 = 19 ∧ bitsOf w 1 10 ∉ [50, 150]) ∧
    (let s := start base 0x1000002C id
     let w := (readWord s.pc s).1
     bitsOf w 26 6 = 4 ∧ bitsOf w 1 5 ∉ [20, 21, 25]) := by decide
theorem test_witness_IllegalWordsHalt_halted :
    ∃ t, step State.reset = .next t ∧ (!t.running) = true := step_exists (by decide)
theorem test_witness_TheOnlyStops :
    configOk { Config.reference with fbWidth := 0 } = false ∧
    configOk (State.reset.setRunning false).config = true ∧ (State.reset.setRunning false).running = false := by decide
theorem test_witness_StepRunsTheDecodedInstruction :
    (let s := start base 0x38200001 id
     configOk s.config = true ∧ s.running = true ∧ decode (readWord s.pc s).1 = .ok (.addi 1 0 1)) ∧
    ReadsAt Config.reference 0x01FFFFFC 0x01FFFFFC ∧ ReadsAt Config.reference 0x80000000 0 := by decide

/-- The smallest admitted machine: four bytes, no region, one pixel. -/
def tiny : Config :=
  { Config.reference with
    capacity := 4, ram := ⟨0, 0, 0⟩, hwreg := ⟨0, 0, 0⟩, coproc := ⟨0, 0, 0⟩, fbWidth := 1, fbHeight := 1 }

/-- BootState and BootedStatesMeetTheInvariant: an image as long as the buffer, and the empty one. -/
theorem test_witness_BootState :
    (∃ s, boot tiny [1, 2, 3, 4] = .ok s) ∧ (∃ s, boot Config.reference [] = .ok s) := ⟨⟨_, rfl⟩, ⟨_, rfl⟩⟩
theorem test_witness_BootRefusals :
    configOk { tiny with capacity := 3 } = false ∧ configOk tiny = true ∧ tiny.capacity < [1, 2, 3, 4, 5].length := by
  decide

/-- A state with memory, pixels and a link that meets the invariant; `sc` runs in it with interrupts on. -/
def invState : State :=
  (start base 0x44000002 (fun s => (s.writeLr 0x80000024).setInterrupts true)).setPixels [(1, 0xFF0000FF)]

/-- StepKeepsTheInvariant, RunsStaySafe and, by its step, ConfigurationNeverChanges and
OtherSpecialRegistersNeverChange (register 1). -/
theorem test_witness_StepKeepsTheInvariant : invState.Inv ∧ ∃ t, step invState = .next t ∧ t.kernelMode = true :=
  ⟨by constructor <;> decide, step_exists (by decide)⟩
theorem test_witness_CycleCountCountsExecutedInstructions :
    (∃ t, step { start base 0x60000000 id with cycleCount := 0xFFFFFFFFFFFFFFFF } = .next t ∧
      (t.running && t.cycleCount == 0) = true) ∧
    ∃ t, step State.reset = .next t ∧ (!t.running) = true := ⟨step_exists (by decide), step_exists (by decide)⟩
theorem test_witness_KernelModeIsNeverLeft :
    (∃ t, step (start base 0x4C000064 (fun s => s.setKernel true)) = .next t ∧ t.kernelMode = true) ∧
    invState.kernelMode = false ∧ ∃ t, step invState = .next t ∧ t.kernelMode = true :=
  ⟨step_exists (by decide), by decide, step_exists (by decide)⟩
theorem test_witness_OnlyReturnEnablesInterrupts :
    (start base 0x4C000064 id).interruptsEnabled = false ∧
    ∃ t, step (start base 0x4C000064 id) = .next t ∧ t.interruptsEnabled = true :=
  ⟨by decide, step_exists (by decide)⟩
theorem test_witness_OnlyCompareWritesCr :
    ∃ t, step (start base 0x7C042000 id) = .next t ∧ (t.readSpr 0 != (start base 0x7C042000 id).readSpr 0) = true :=
  step_exists (by decide)
theorem test_witness_GeneralRegistersChangeOnlyAtTheDestination :
    ∃ t, step (start base 0x38200001 id) = .next t ∧ (t.readGpr 1 != (start base 0x38200001 id).readGpr 1) = true :=
  step_exists (by decide)
theorem test_witness_ZeroLanesStayZero :
    (∀ r, (start base 0x10221828 id).readFpr r = ⟨0, 0⟩) ∧
    ∃ t, step (start base 0x10221828 id) = .next t ∧ (t.pc == 0x80000004) = true :=
  ⟨by decide +kernel, step_exists (by decide +kernel)⟩
theorem test_witness_NothingReadsModeCountPixelsOrLog :
    AgreeExcept [.mode] State.reset (State.reset.setKernel true) ∧
    AgreeExcept [.count] State.reset State.reset.count ∧
    AgreeExcept [.pixels] State.reset (State.reset.setPixels [(0, 7)]) ∧
    AgreeExcept [.log] State.reset (State.reset.emit (.outOfBounds 0)) :=
  ⟨⟨by constructor <;> rfl, by decide, fun _ => rfl, fun _ => rfl, fun _ => rfl⟩,
    ⟨by constructor <;> rfl, fun _ => rfl, by decide, fun _ => rfl, fun _ => rfl⟩,
    ⟨by constructor <;> rfl, fun _ => rfl, fun _ => rfl, by decide, fun _ => rfl⟩,
    ⟨by constructor <;> rfl, fun _ => rfl, fun _ => rfl, fun _ => rfl, by decide⟩⟩
/-- RaiseRule and SystemCallRule. -/
theorem test_witness_RaiseRule :
    State.reset.interruptsEnabled = false ∧ (State.reset.setInterrupts true).interruptsEnabled = true := by decide
theorem test_witness_VectorLookup :
    Config.reference.vectors = [((0 : Word), (0x80000C00 : Word))] ++ (1, 0x80000500) :: [] ∧
    (∀ e ∈ [((0 : Word), (0x80000C00 : Word))], e.1 ≠ 1) ∧ ∀ e ∈ Config.reference.vectors, e.1 ≠ 9 :=
  ⟨rfl, by simp, by simp [Config.reference]⟩
/-- The words of SystemCallRule, ReturnFromInterruptRule and SyncRules, ignored bits set. -/
theorem test_witness_SystemRules :
    (0x47FFFFFF : Word) &&& 0xFC000000 = 0x44000000 ∧ (0x4FFFF865 : Word) &&& 0xFC0007FE = 0x4C000064 ∧
    (0x7FFFFCAD : Word) &&& 0xFC0007FE = 0x7C0004AC ∧ (0x4FFFF92D : Word) &&& 0xFC0007FE = 0x4C00012C ∧
    (0x7FFFFEAD : Word) &&& 0xFC0007FE = 0x7C0006AC ∧
    decode (readWord base (start base 0x7FFFFCAD id)).1 = .ok .sync := by decide

/-- TranslateRule and TranslateStaysInTheBuffer: the first and the last address of each region, and the address after
it. -/
theorem test_witness_TranslateRule :
    translateAddr Config.reference 0x80000000 = 0 ∧ translateAddr Config.reference 0x817FFFFF = 0x017FFFFF ∧
    translateAddr Config.reference 0x81800000 = 0x01800000 ∧ translateAddr Config.reference 0xCC000000 = 0x01800000 ∧
    translateAddr Config.reference 0xCC00FFFF = 0x0180FFFF ∧ translateAddr Config.reference 0xCC010000 = 0x10000 ∧
    translateAddr Config.reference 0xCD000000 = 0x01810000 ∧ translateAddr Config.reference 0xCD000FFF = 0x01810FFF ∧
    translateAddr Config.reference 0xCD001000 = 0x01001000 ∧ configOk Config.reference = true := by decide

/-- ReadWordRule and LoadWordRule: the input register, the last word in bounds and the first out of bounds. -/
theorem test_witness_ReadWordRule :
    (0xCC006400 : Word) = Config.reference.inputAddr ∧
    ((0x01FFFFFC : Word) ≠ Config.reference.inputAddr ∧ translateAddr Config.reference 0x01FFFFFC + 4 ≤ 0x02000000) ∧
    ((0x01FFFFFD : Word) ≠ Config.reference.inputAddr ∧ 0x02000000 < translateAddr Config.reference 0x01FFFFFD + 4) := by
  decide

/-- WriteWordRule, StoreWordRule and ReadAfterWrite: the ends of the buffer, the first and the last address of the
framebuffer window, and the first after it. -/
theorem test_witness_WriteWordRule :
    State.reset.mem.wf ∧ State.reset.pixels.wf ∧ pixelIndex Config.reference 0x81000000 = some 0 ∧
    pixelIndex Config.reference 0x8112BFFF = some 307199 ∧ pixelIndex Config.reference 0x8112C000 = none ∧
    0x02000000 < translateAddr Config.reference 0x01FFFFFD + 4 ∧
    translateAddr Config.reference 0x01FFFFFC + 4 ≤ 0x02000000 := by decide
/-- The words of the instruction rules, ignored bits set, and the link and absolute bits of the branches. -/
theorem test_witness_InstructionRows :
    (0x38630001 : Word) &&& 0xFC000000 = 0x38000000 ∧ (0x3C63FFFF : Word) &&& 0xFC000000 = 0x3C000000 ∧
    (0x7C642A15 : Word) &&& 0xFC0007FE = 0x7C000214 ∧ (0x7C642851 : Word) &&& 0xFC0007FE = 0x7C000050 ∧
    (0x7C6429D7 : Word) &&& 0xFC0007FE = 0x7C0001D6 ∧ (0x7001FFFF : Word) &&& 0xFC000000 = 0x70000000 ∧
    (0x6083FFFF : Word) &&& 0xFC000000 = 0x60000000 ∧ (0x7FE42801 : Word) &&& 0xFC0007FE = 0x7C000000 ∧
    (0x4BFFFFFF : Word) &&& 0xFC000000 = 0x48000000 ∧ (0x43FFFFFF : Word) &&& 0xFC000000 = 0x40000000 ∧
    (0x83FFFFFF : Word) &&& 0xFC000000 = 0x80000000 ∧ (0x93FFFFFF : Word) &&& 0xFC000000 = 0x90000000 ∧
    (0x10221FEB : Word) &&& 0xFC00003E = 0x1000002A ∧ (0x10221FE9 : Word) &&& 0xFC00003E = 0x10000028 ∧
    (0x1022FFF3 : Word) &&& 0xFC00003E = 0x10000032 ∧ (0x7C642E14 : Word) &&& 0xFC0007FE = 0x7C000614 := by decide

/-- BO 16 taken always, BO 8 on a bit that is 1, BO 0 on a bit that is 0; BO 8 on a bit that is 0 is not taken. -/
theorem test_witness_ConditionalBranchRule :
    (16 : BitVec 5).getLsbD 4 = true ∧
    ((8 : BitVec 5).getLsbD 3 = true ∧ (0x80000001 : Word).getLsbD (31 - (0 : Idx5).val) = true ∧
      (0x80000001 : Word).getLsbD (31 - (31 : Idx5).val) = true) ∧
    ((0 : BitVec 5).getLsbD 3 = false ∧ (0 : Word).getLsbD (31 - (31 : Idx5).val) = false) ∧
    branchTaken 8 false = false ∧ branchTaken 0 true = false := by decide

/-- Largest finite numbers, just below and at the threshold of overflow, and a tie. -/
theorem test_witness_FiniteResultsAreRoundedToNearestEven :
    fpIsFinite 0x7F7FFFFF = true ∧ fpIsFinite 0x73000000 = true ∧ fpIsFinite 0x72FFFFFF = true ∧
    fadd32 0x7F7FFFFF 0x73000000 = 0x7F800000 ∧ fadd32 0x7F7FFFFF 0x72FFFFFF = 0x7F7FFFFF ∧
    fadd32 0x3F800000 0x33800000 = 0x3F800000 := by decide +kernel
theorem test_witness_NanResults :
    fpIsNaN 0x7F800001 = true ∧ fpIsNaN 0xFFFFFFFF = true ∧ (fpIsInf 0x7F800000 = true ∧ fpSign 0x7F800000 = false) ∧
    (fpIsInf 0xFF800000 = true ∧ fpSign 0xFF800000 = true) ∧ fpIsZero 0x80000000 = true := by decide
theorem test_witness_SignsOfZerosAndProducts :
    fpIsFinite 0x80000000 = true ∧ fpIsNaN (fmul32 0x80000000 0x3F800000) = false ∧
    (fpIsFinite 0x7F7FFFFF = true ∧ fpValue 0x7F7FFFFF + fpValue 0xFF7FFFFF = 0 ∧
      fpValue 0x80000000 + fpValue 0x80000000 = 0 ∧ fpValue 0x80000000 - fpValue 0x00000000 = 0 ∧
      fpValue 0x00000001 - fpValue 0x00000001 = 0) ∧
    (fpIsInf 0x7F800000 = true ∧ fpIsFinite 0x00000000 = true) ∧
    (fpIsInf 0xFF800000 = true ∧ fpSign 0xFF800000 = fpSign 0xFF800000 ∧ fpSign 0xFF800000 ≠ fpSign 0x7F800000) ∧
    (fpIsNaN 0x00000001 = false ∧ fpIsZero 0x00000001 = false) := by decide +kernel

/-! ### The coprocessor -/

/-- The command already in its register, as from a boot image. -/
def pending (c : Word) (f : State → State) : State := poke 0x01810000 c (f State.reset)

theorem reference_coprocAt : CoprocAt Config.reference 0x01810000 := by decide

/-- One state for each command clause of the poll, and for each clause of its completion. The free space of command 5
is a free value: a block of 0 bytes fits whatever it is, and a longer one fits or does not. -/
theorem test_witness_PollRule :
    (readWord 0xCD000000 State.reset).1 = 0 ∧ (readWord 0xCD000000 (pending 2 id)).1 = 2 ∧
    (readWord 0xCD000000 (pending 4 id)).1 = 4 ∧ (readWord 0xCD000000 (pending 5 id)).1 = 5 ∧
    (readWord 0xCD000000 (pending 0xFFFFFFFF id)).1 ∉ [0, 1, 2, 3, 4, 5] ∧
    (readWord (0x80000204) (pending 5 (params 0x80000300 0 0))).1 = 0 := by decide
theorem test_witness_CommandCompletion :
    (pending 5 id).mem.wf ∧ CoprocAt (pending 5 id).config 0x01810000 ∧ (pending 5 id).mem.wordAt 0x01810000 = 5 ∧
    (pending 6 id).mem.wordAt 0x01810000 ≠ 0 ∧ (pending 5 id).interruptsEnabled = false ∧
    (pending 1 (fun s => s.setInterrupts true)).interruptsEnabled = true := by decide
theorem test_witness_PlainCommandsTouchNothingElse :
    (pending 6 id).mem.wf ∧ CoprocAt (pending 6 id).config 0x01810000 ∧ (pending 6 id).mem.wordAt 0x01810000 = 6 ∧
    (pending 2 id).mem.wordAt 0x01810000 = 2 := by decide
/-- The pixel clause with no register mirrored, and with all three in the framebuffer window: pixels 0, 1 and 4. -/
theorem test_witness_PlainCommandsTouchNothingElse_pixels :
    (pixelIndex Config.reference 0xCD000000 = none ∧ pixelIndex Config.reference 0xCD000004 = none ∧
      pixelIndex Config.reference 0xCD000010 = none) ∧
    CoprocAt { Config.reference with coprocRegBase := 0x81000000 } 0x01000000 ∧
    pixelIndex Config.reference 0x81000000 = some 0 ∧ pixelIndex Config.reference 0x81000004 = some 1 ∧
    pixelIndex Config.reference 0x81000010 = some 4 := by decide

/-- A copy of 16 bytes from 0x300 to 0x400. -/
def copyState : State := pending 3 (fun s => data 4 (params 0x80000300 0x80000400 16 s))

theorem test_witness_DmaCopiesTheBlock :
    copyState.mem.wf ∧ CoprocAt copyState.config 0x01810000 ∧ copyState.mem.wordAt 0x01810000 = 3 ∧
    WordsReadAt copyState.config (copyState.mem.wordAt 0x01810008) 0x200 3 ∧
    (copyState.mem.wordAt 0x208).toNat / 4 = 4 ∧
    WordsReadAt copyState.config (copyState.mem.wordAt 0x200) 0x300 4 ∧
    WordsLieAt copyState.config (copyState.mem.wordAt 0x204) 0x400 4 ∧ 0x300 + 4 * 4 ≤ 0x400 ∧
    0x400 + 4 * 4 ≤ 0x01810000 := by decide

/-- A copy of 16 bytes down from 0x304 to 0x300: the destination starts below the source, which it overlaps. -/
def copyDownState : State := pending 4 (fun s => data 5 (params 0x80000304 0x80000300 16 s))

theorem test_witness_DmaCopiesTheBlock_down :
    copyDownState.mem.wf ∧ CoprocAt copyDownState.config 0x01810000 ∧ copyDownState.mem.wordAt 0x01810000 = 4 ∧
    WordsReadAt copyDownState.config (copyDownState.mem.wordAt 0x01810008) 0x200 3 ∧
    (copyDownState.mem.wordAt 0x208).toNat / 4 = 4 ∧
    WordsReadAt copyDownState.config (copyDownState.mem.wordAt 0x200) 0x304 4 ∧
    WordsLieAt copyDownState.config (copyDownState.mem.wordAt 0x204) 0x300 4 ∧ 0x300 ≤ 0x304 ∧
    0x300 + 4 * 4 ≤ 0x01810000 := by decide

/-- Vector K10: 12 bytes from 0x300 to 0x304. -/
def overlapState : State := pending 4 (fun s => data 3 (params 0x80000300 0x80000304 12 s))

theorem test_witness_DmaOverlapRepeatsTheFirstWords :
    overlapState.mem.wf ∧ CoprocAt overlapState.config 0x01810000 ∧ overlapState.mem.wordAt 0x01810000 = 4 ∧
    WordsReadAt overlapState.config (overlapState.mem.wordAt 0x01810008) 0x200 3 ∧
    (overlapState.mem.wordAt 0x208).toNat / 4 = 3 ∧
    WordsReadAt overlapState.config (overlapState.mem.wordAt 0x200) 0x300 3 ∧
    WordsLieAt overlapState.config (overlapState.mem.wordAt 0x204) (0x300 + 4 * 1) 3 ∧
    0x300 + 4 * 1 + 4 * 3 ≤ 0x01810000 := by decide

/-- Vectors K13 and K14: 6 bytes at 0x300. Whether they fit is a free value, so one of the two clauses applies. -/
def audioState : State := pending 5 (fun s => data 2 (params 0x80000300 6 0 s))

theorem test_witness_AudioCommand :
    (audioState.mem.wf ∧ CoprocAt audioState.config 0x01810000 ∧ audioState.mem.wordAt 0x01810000 = 5 ∧
    WordsReadAt audioState.config (audioState.mem.wordAt 0x01810008) 0x200 2 ∧
    (audioState.mem.wordAt 0x204).toNat = 6 ∧
    WordsReadAt audioState.config (audioState.mem.wordAt 0x200) 0x300 ((6 + 3) / 4)) ∧
    (6 ≤ (Config.audioFreeDraw audioState.audioPolls).toNat ∨
      (Config.audioFreeDraw audioState.audioPolls).toNat < 6) := ⟨by decide, (Nat.lt_or_ge _ _).symm⟩

/-- The first clause of AudioCommand: an empty block fits whatever space the sink reports. -/
theorem test_witness_AudioCommand_empty :
    let s := pending 5 (fun s => data 2 (params 0x80000300 0 0 s))
    (s.mem.wf ∧ CoprocAt s.config 0x01810000 ∧ s.mem.wordAt 0x01810000 = 5 ∧
    WordsReadAt s.config (s.mem.wordAt 0x01810008) 0x200 2 ∧ (s.mem.wordAt 0x204).toNat = 0) ∧
    0 ≤ (Config.audioFreeDraw s.audioPolls).toNat := ⟨by decide, Nat.zero_le _⟩

/-! ### Interrupts within a step -/

/-- Vector K15: `sc` with a command already pending. -/
def contendedState (c : Word) : State := start 0x80000100 0x44000002 (fun s => (pending c id).setInterrupts s.running)

/-- SystemCallBeatsTheCoprocessor: the step of `sc`, with the registers on consecutive words of the buffer; below, with
registers that wrap round its end. -/
theorem test_witness_SystemCallBeatsTheCoprocessor :
    (∃ t, step (contendedState 2) = .next t ∧ (t.pc == 0x80000C00) = true) ∧
    decode (readWord (contendedState 2).pc (contendedState 2)).1 = .ok .sc ∧
    (contendedState 2).interruptsEnabled = true ∧
    (contendedState 2).mem.wf ∧ CoprocAt (contendedState 2).config 0x01810000 ∧
    (contendedState 2).mem.wordAt 0x01810000 = 2 ∧ (contendedState 5).mem.wordAt 0x01810000 = 5 ∧
    (contendedState 6).mem.wordAt 0x01810000 = 6 := ⟨step_exists (by decide), by decide⟩
theorem test_witness_SystemCallBeatsTheCoprocessor_elsewhere :
    let s := { contendedState 2 with config := { Config.reference with coprocRegBase := 0x01FFFFF0 } }
    (∃ t, step s = .next t ∧ (t.pc == 0x80000C00) = true) ∧
    decode (readWord s.pc s).1 = .ok .sc ∧ s.interruptsEnabled = true ∧
    inBounds s.config (translateAddr s.config (s.config.coprocRegBase + 16)) = true ∧
    translateAddr s.config (s.config.coprocRegBase + 16) = 0 := ⟨step_exists (by decide), by decide⟩
theorem test_witness_SystemCallBeatsTheCoprocessor_others :
    (∃ u, exec .rfi State.reset = .next u ∧ u.interruptsEnabled = true) ∧ Instr.rfi ≠ .sc ∧
    (∃ u, exec .sync State.reset = .next u ∧ u.interruptsEnabled = State.reset.interruptsEnabled) ∧
    Instr.sync ≠ .sc := ⟨⟨_, rfl, rfl⟩, by decide, ⟨_, rfl, rfl⟩, by decide⟩
theorem test_witness_PollInterruptSavesTheNextInstruction :
    (∃ t, step (command 1 true id) = .next t ∧ (t.readSpr 8 == 0x80000104) = true) ∧
    decode (readWord (command 1 true id).pc (command 1 true id)).1 = .ok (.stw 12 10 0) ∧
    (∃ u, exec (.stw 12 10 0) (readWord (command 1 true id).pc (command 1 true id)).2 = .next u ∧
      u.interruptsEnabled = true ∧ u.mem.wordAt 0x01810000 ≠ 0) ∧
    CoprocAt (command 1 true id).config 0x01810000 :=
  ⟨step_exists (by decide), by decide, ⟨_, rfl, by decide, by decide⟩, by decide⟩
theorem test_witness_NoInterruptWhileDisabled :
    (∃ t, step (command 1 false id) = .next t ∧ (t.pc == 0x80000104) = true) ∧
    decode (readWord (command 1 false id).pc (command 1 false id)).1 = .ok (.stw 12 10 0) ∧
    (∃ u, exec (.stw 12 10 0) (readWord (command 1 false id).pc (command 1 false id)).2 = .next u) ∧
    (command 1 false id).interruptsEnabled = false := ⟨step_exists (by decide), by decide, ⟨_, rfl⟩, by decide⟩

end Sys2Proof.Tests
end

section
/-! The admitted configurations, read as propositions about the parameters (00_scope.md R7). -/

namespace Sys2Proof.Machine

theorem wordAligned_iff {a : Word} : wordAligned a = true ↔ a.toNat % 4 = 0 := beq_iff_eq

/-- R44's inequality holds over the naturals with both sides moved clear of the subtraction. -/
theorem regionOk_iff {n : Nat} {r : Region} :
    regionOk n r = true ↔ (r.physicalBase : Int) + ((r.virtualEnd : Int) - r.virtualStart) ≤ n := by
  rw [regionOk, decide_eq_true_iff]
  omega

/-- A power of two is its own rounding down, so the test of CAPACITY is the one of 20_memory.md R41. -/
theorem eq_two_pow_log2_and_four_le_iff {n : Nat} :
    (n = 2 ^ Nat.log2 n ∧ 4 ≤ n) ↔ ∃ k, 2 ≤ k ∧ n = 2 ^ k := by
  constructor
  · rintro ⟨hn, h4⟩
    exact ⟨Nat.log2 n, (Nat.le_log2 (by omega)).2 h4, hn⟩
  · rintro ⟨k, hk, rfl⟩
    exact ⟨by rw [Nat.log2_two_pow], Nat.pow_le_pow_right (by decide : 0 < 2) hk⟩

/-- The check of a configuration, part by part, in the words of the spec's constraints. -/
theorem configOk_iff {c : Config} :
    configOk c = true ↔
      (∃ k, 2 ≤ k ∧ c.capacity = 2 ^ k) ∧
      (∀ r ∈ c.regions, (r.physicalBase : Int) + ((r.virtualEnd : Int) - r.virtualStart) ≤ c.capacity) ∧
      c.fbStart ≤ c.fbEnd ∧ 0 < c.fbWidth ∧ 0 < c.fbHeight ∧
      c.coprocRegBase.toNat % 4 = 0 ∧ c.syscallIrq ≠ c.coprocIrq ∧
      (∀ e ∈ c.vectors, e.2.toNat % 4 = 0) ∧ c.defaultHandler.toNat % 4 = 0 ∧ c.entryPc.toNat % 4 = 0 := by
  simp only [configOk, Bool.and_eq_true, beq_iff_eq, bne_iff_ne, decide_eq_true_iff, List.all_eq_true,
    eq_two_pow_log2_and_four_le_iff, regionOk_iff, wordAligned_iff, and_assoc]

/-- Settles O14: the configuration check is the conjunction of the spec's constraints, the region table being
RAM, HWREG and COPROC. -/
theorem admittedConfigurations : Obligations.AdmittedConfigurations := fun _ => configOk_iff

end Sys2Proof.Machine
end

section
/-! The invariant under each operation of the state, under the instructions and under the poll (10_state.md R21,
R34, R35). -/

namespace Sys2Proof.Machine

/-! ### Multiples of 4 -/

/-- Alignment as two bits, for words that are made of bits. -/
theorem wordAligned_iff_getLsbD {a : Word} :
    wordAligned a = true ↔ a.getLsbD 0 = false ∧ a.getLsbD 1 = false := by
  simp only [wordAligned_iff, BitVec.getLsbD, Nat.testBit_eq_decide_div_mod_eq, decide_eq_false_iff_not]
  omega

theorem wordAligned_add {a b : Word} (ha : wordAligned a = true) (hb : wordAligned b = true) :
    wordAligned (a + b) = true := by
  rw [wordAligned_iff] at *
  rw [BitVec.toNat_add]
  omega

theorem wordAligned_mask (a : Word) : wordAligned (a &&& 0xFFFFFFFC#32) = true := by
  simp [wordAligned_iff_getLsbD]

/-- A displacement field with two zero bits below it, sign-extended (30_encoding.md R75). -/
theorem wordAligned_signExtend {n : Nat} (x : BitVec n) : wordAligned ((x ++ 0#2).signExtend 32) = true := by
  simp [wordAligned_iff_getLsbD, BitVec.getElem_signExtend, BitVec.getElem_append]

theorem wordAligned_liDisp (w : Word) : wordAligned (liDisp w) = true := wordAligned_signExtend _

theorem wordAligned_bdDisp (w : Word) : wordAligned (bdDisp w) = true := wordAligned_signExtend _

theorem wordAligned_next {pc : Word} (h : wordAligned pc = true) : wordAligned (pc + 4) = true :=
  wordAligned_add h (by decide)

theorem wordAligned_branchTarget {pc disp : Word} {aa : Bool} (hpc : wordAligned pc = true)
    (hd : wordAligned disp = true) : wordAligned (branchTarget pc disp aa) = true := by
  cases aa with
  | true => exact wordAligned_mask disp
  | false => exact wordAligned_add hpc hd

/-! ### The invariant under updates of the state -/

namespace State.Inv

variable {s t : State}

theorem storageOk (h : s.Inv) : StorageOk s := ⟨h.memOk, h.memBelow, h.pixelsOk, h.pixelsBelow⟩

/-- What moves only memory, pixels and the model's record keeps the invariant if it keeps the storage form. -/
theorem of_writeFrame (h : s.Inv) (f : WriteFrame s t) (hs : StorageOk t) : t.Inv where
  configOk := f.config ▸ h.configOk
  memOk := hs.memOk
  memBelow := hs.memBelow
  pixelsOk := hs.pixelsOk
  pixelsBelow := hs.pixelsBelow
  pcAligned := f.pc ▸ h.pcAligned
  lrAligned := by
    have e : t.lr = s.lr := State.readSpr_congr f.spr
    rw [e]
    exact h.lrAligned

theorem of_readFrame (h : s.Inv) (f : ReadFrame s t) : t.Inv :=
  h.of_writeFrame f.toWrite (f.storageOk h.storageOk)

theorem setPc {v : Word} (h : s.Inv) (hv : wordAligned v = true) : (s.setPc v).Inv := { h with pcAligned := hv }

theorem advance (h : s.Inv) : s.advance.Inv := h.setPc (wordAligned_next h.pcAligned)

theorem writeGpr {r : Idx5} {v : Word} (h : s.Inv) : (s.writeGpr r v).Inv := { h with }

theorem writeFpr {r : Idx5} {v : Lanes} (h : s.Inv) : (s.writeFpr r v).Inv := { h with }

theorem writeCr {v : Word} (h : s.Inv) : (s.writeCr v).Inv :=
  have e : (s.writeCr v).lr = s.lr := State.readSpr_writeSpr.trans (if_neg (by decide))
  { h with lrAligned := e ▸ h.lrAligned }

theorem writeLr {v : Word} (h : s.Inv) (hv : wordAligned v = true) : (s.writeLr v).Inv :=
  have e : (s.writeLr v).lr = v := State.readSpr_writeSpr.trans (if_pos rfl)
  { h with lrAligned := e.symm ▸ hv }

theorem setInterrupts {v : Bool} (h : s.Inv) : (s.setInterrupts v).Inv := { h with }

theorem setKernel {v : Bool} (h : s.Inv) : (s.setKernel v).Inv := { h with }

theorem count (h : s.Inv) : s.count.Inv := { h with }

theorem linkIf {lk : Bool} (h : s.Inv) : (s.linkIf lk).Inv := by
  cases lk with
  | true => exact h.writeLr (wordAligned_next h.pcAligned)
  | false => exact h

/-! ### The invariant under the operations of the machine -/

/-- LR takes an aligned pc, and pc the aligned address of a handler. -/
theorem raise {id : Word} (h : s.Inv) : (raise id s).Inv := by
  rcases raise_cases id s with ⟨-, e⟩ | ⟨-, e⟩ <;> rw [e]
  · exact h
  · exact (((h.writeLr h.pcAligned).setPc (vectorFor_aligned h.configOk id)).setInterrupts).setKernel

theorem halt {why : Illegal} {w : Word} (h : s.Inv) : (halt why w s).Inv := { h with }

theorem fetch (h : s.Inv) : (fetch s).2.Inv := h.of_readFrame (fetch_frame s)

theorem coprocessorPoll (h : s.Inv) : (coprocessorPoll s).Inv := by
  obtain ⟨u, f, hu, hp⟩ := coprocessorPoll_split s
  have hi : u.Inv := h.of_writeFrame f (hu h.storageOk)
  rcases hp with hp | hp <;> rw [hp]
  · exact hi
  · exact hi.raise

theorem finishStep (h : s.Inv) : (finishStep s).Inv := h.count.coprocessorPoll

/-- An instruction that some word decodes to keeps the invariant: its branch displacement is a multiple of 4. -/
theorem execNext {w : Word} {i : Instr} (h : s.Inv) (hd : decode w = .ok i) : (execNext i s).Inv := by
  cases i with
  | addi | addis | add | subf | mullw | andi | ori => exact h.writeGpr.advance
  | cmp => exact h.writeCr.advance
  | b _ aa lk =>
    obtain ⟨-, rfl, -, -⟩ := decode_ok hd
    exact h.linkIf.setPc (wordAligned_branchTarget h.pcAligned (wordAligned_liDisp w))
  | bc bo bi _ aa lk =>
    obtain ⟨-, -, -, rfl, -, -⟩ := decode_ok hd
    refine h.linkIf.setPc ?_
    split
    · exact wordAligned_branchTarget h.pcAligned (wordAligned_bdDisp w)
    · exact wordAligned_next h.pcAligned
  | lwz => exact (h.of_readFrame (readWord_frame _ s)).writeGpr.advance
  | stw => exact (h.of_writeFrame (writeWord_frame _ _ s) (writeWord_storageOk h.storageOk)).advance
  | psAdd | psSub | psMul => exact h.writeFpr.advance
  | sc => exact h.advance.raise
  | rfi => exact h.setInterrupts.setPc h.lrAligned
  | sync | isync | eieio => exact h.advance

end State.Inv

/-- Settles O17: fetch, instruction, count and poll keep the invariant one after the other, and so does a halt. -/
theorem stepKeepsTheInvariant : Obligations.StepKeepsTheInvariant := by
  intro s t h hst
  rcases step_next hst with ⟨why, -, rfl⟩ | ⟨i, hd, rfl⟩
  · exact h.fetch.halt
  · exact (h.fetch.execNext hd).finishStep

end Sys2Proof.Machine
end

section
/-! Reset and boot (10_state.md R39). -/

namespace Sys2Proof.Machine

/-- A boot that succeeds is reset with the image in the buffer from offset 0 on. -/
theorem boot_ok {c : Config} {image : List Byte} {s : State} (h : boot c image = .ok s) :
    s = (State.resetWith c).setMem (Memory.writeBytes [] 0 image) := by
  unfold boot at h
  split at h
  · cases h
  · split at h <;> cases h
    rfl

/-- An image in an empty buffer: its bytes, and zeros after them. -/
theorem Memory.read_image (image : List Byte) (k : Nat) :
    (Memory.writeBytes [] 0 image).read k = image.getD k 0 := by
  by_cases hk : k < image.length
  · rw [List.getD_eq_getElem _ _ hk]
    simpa using Memory.read_writeBytes_inside (p := 0) Memory.wf_nil hk
  · rw [List.getD_eq_default _ _ (by omega)]
    exact Memory.read_writeBytes_outside (by omega)

@[simp] theorem State.readGpr_resetWith (c : Config) (r : Idx5) : (State.resetWith c).readGpr r = 0 := by
  simp [State.readGpr, State.resetWith, Vector.get_eq_getElem]

@[simp] theorem State.readFpr_resetWith (c : Config) (r : Idx5) :
    (State.resetWith c).readFpr r = { ps0 := 0, ps1 := 0 } := by
  simp [State.readFpr, State.resetWith, Vector.get_eq_getElem]

@[simp] theorem State.readSpr_resetWith (c : Config) (n : SprIdx) : (State.resetWith c).readSpr n = 0 := by
  simp [State.readSpr, State.resetWith, Vector.get_eq_getElem]

/-- Settles O12: the registers are those of reset, and the buffer holds the image. -/
theorem bootState : Obligations.BootState := by
  intro c image s h
  obtain rfl := boot_ok h
  exact ⟨rfl, State.readGpr_resetWith c, State.readFpr_resetWith c, State.readSpr_resetWith c, rfl, rfl, rfl, rfl,
    Memory.read_image image, fun _ => rfl, rfl⟩

end Sys2Proof.Machine
end

section
/-! The counter, the interrupt enable and the configuration over a step (10_state.md R31, R33, R36). -/

namespace Sys2Proof.Machine

/-- Settles O19: a step that ran an instruction is still running and has counted it; a halt is neither. -/
theorem cycleCountCountsExecutedInstructions : Obligations.CycleCountCountsExecutedInstructions := by
  intro s t h
  have hf := fetch_frame s
  rcases step_cases s with ⟨-, e⟩ | ⟨-, -, e⟩ | ⟨-, -, why, -, e⟩ | ⟨-, hr, i, -, e⟩ <;> rw [e] at h <;> cases h
  · exact ⟨fun hrun => absurd hrun Bool.false_ne_true, fun _ => hf.cycleCount⟩
  · have hp := finishStep_frame (execNext i (fetch s).2)
    obtain ⟨hrun, hcount, -, -⟩ := exec_frame i (fetch s).2
    have running : (finishStep (execNext i (fetch s).2)).running = true :=
      hp.running.trans (hrun.trans (hf.running.trans hr))
    have counted : (finishStep (execNext i (fetch s).2)).cycleCount = s.cycleCount + 1 := by
      rw [hp.cycleCount, State.count_cycleCount, hcount, hf.cycleCount]
    exact ⟨fun _ => by rw [counted, BitVec.toNat_add]; rfl, fun hstop => by simp [running] at hstop⟩

/-- Settles O21: the poll enables nothing, and of the instructions only `rfi` does. -/
theorem onlyReturnEnablesInterrupts : Obligations.OnlyReturnEnablesInterrupts := by
  intro s t h hs ht
  have hf : (fetch s).2.interruptsEnabled = false := (fetch_frame s).interruptsEnabled.trans hs
  rcases step_next h with ⟨why, -, rfl⟩ | ⟨i, hd, rfl⟩
  · exact absurd ht (hf.symm ▸ Bool.false_ne_true)
  · have he : (execNext i (fetch s).2).interruptsEnabled = true := by
      by_contra hoff
      obtain ⟨-, -, hpoll, -⟩ := coprocessorPoll_disabled (s := (execNext i (fetch s).2).count) (by simpa using hoff)
      exact Bool.false_ne_true (hpoll.symm.trans ht)
    rcases exec_status i (fetch s).2 with ⟨-, hsame | ⟨rfl, -⟩⟩ | ⟨-, hon, -⟩
    · simp [hsame, hf] at he
    · exact hd
    · simp [hf] at hon

/-- Settles O26: fetch, instruction, count and poll leave the configuration, and so does a halt. -/
theorem configurationNeverChanges : Obligations.ConfigurationNeverChanges := by
  constructor
  · intro s t h
    rcases step_next h with ⟨why, -, rfl⟩ | ⟨i, -, rfl⟩
    · exact (fetch_frame s).config
    · obtain ⟨-, -, hc, -⟩ := exec_frame i (fetch s).2
      exact (finishStep_frame _).config.trans (hc.trans (fetch_frame s).config)
  · intro i s t h
    rw [exec_completes] at h
    cases h
    obtain ⟨-, -, hc, -⟩ := exec_frame i s
    exact hc

end Sys2Proof.Machine
end

section
/-! Which registers an instruction and a step can change (10_state.md R18, R23, R27, R29). -/

namespace Sys2Proof.Machine

/-- The paired-single registers an instruction writes. -/
def destFprs : Instr → List Idx5
  | .psAdd frD _ _ | .psSub frD _ _ | .psMul frD _ _ => [frD]
  | _ => []

/-- The special registers an instruction can write: CR by a compare, LR by a link or an interrupt taken. -/
def destSprs : Instr → List SprIdx
  | .cmp _ _ _ => [crIdx]
  | .b _ _ _ | .bc _ _ _ _ _ | .sc => [lrIdx]
  | _ => []

section RegistersKept

variable {s t u : State} {gs fs : List Idx5} {ns : List SprIdx}

theorem RegistersKept.trans (h : RegistersKept s t gs fs ns) (k : RegistersKept t u gs fs ns) :
    RegistersKept s u gs fs ns where
  gpr r hr := (k.gpr r hr).trans (h.gpr r hr)
  fpr r hr := (k.fpr r hr).trans (h.fpr r hr)
  spr n hn := (k.spr n hn).trans (h.spr n hn)

/-- The special registers excepted may be more. -/
theorem RegistersKept.mono {ms : List SprIdx} (h : RegistersKept s t gs fs ns) (hsub : ns ⊆ ms) :
    RegistersKept s t gs fs ms where
  gpr := h.gpr
  fpr := h.fpr
  spr n hn := h.spr n fun hmem => hn (hsub hmem)

theorem RegistersKept.setPc {v : Word} (h : RegistersKept s t gs fs ns) : RegistersKept s (t.setPc v) gs fs ns :=
  ⟨h.gpr, h.fpr, h.spr⟩

theorem WriteFrame.registersKept (f : WriteFrame s t) : RegistersKept s t gs fs ns where
  gpr _ _ := State.readGpr_congr f.gpr
  fpr _ _ := State.readFpr_congr f.fpr
  spr _ _ := State.readSpr_congr f.spr

/-- What touches no register but LR: an interrupt, taken or lost, and a poll. -/
theorem registersKept_of_lr (hg : t.gpr = s.gpr) (hf : t.fpr = s.fpr)
    (hs : ∀ n, n ≠ lrIdx → t.readSpr n = s.readSpr n) (hlr : lrIdx ∈ ns) : RegistersKept s t gs fs ns where
  gpr _ _ := State.readGpr_congr hg
  fpr _ _ := State.readFpr_congr hf
  spr n hn := hs n fun e => hn (e ▸ hlr)

theorem registersKept_writeGpr {r : Idx5} {v : Word} : RegistersKept s (s.writeGpr r v) [r] fs ns where
  gpr _ hk := State.readGpr_writeGpr.trans (if_neg (List.mem_singleton.not.1 hk))
  fpr _ _ := rfl
  spr _ _ := rfl

theorem registersKept_writeFpr {r : Idx5} {v : Lanes} : RegistersKept s (s.writeFpr r v) gs [r] ns where
  gpr _ _ := rfl
  fpr _ hk := State.readFpr_writeFpr.trans (if_neg (List.mem_singleton.not.1 hk))
  spr _ _ := rfl

theorem registersKept_writeSpr {n : SprIdx} {v : Word} : RegistersKept s (s.writeSpr n v) gs fs [n] where
  gpr _ _ := rfl
  fpr _ _ := rfl
  spr _ hm := State.readSpr_writeSpr.trans (if_neg (List.mem_singleton.not.1 hm))

theorem registersKept_linkIf {lk : Bool} : RegistersKept s (s.linkIf lk) gs fs [lrIdx] := by
  cases lk with
  | true => exact registersKept_writeSpr
  | false => exact (WriteFrame.refl s).registersKept

end RegistersKept

/-- An instruction changes no register but its destinations. -/
theorem exec_registersKept (i : Instr) (s : State) :
    RegistersKept s (execNext i s) (destGpr i).toList (destFprs i) (destSprs i) := by
  have same : RegistersKept s s [] [] [] := (WriteFrame.refl s).registersKept
  cases i with
  | addi | addis | add | subf | mullw | andi | ori => exact registersKept_writeGpr.setPc
  | cmp => exact registersKept_writeSpr.setPc
  | b | bc => exact registersKept_linkIf.setPc
  | lwz => exact ((readWord_frame _ s).toWrite.registersKept.trans registersKept_writeGpr).setPc
  | stw => exact (writeWord_frame _ _ s).registersKept.setPc
  | psAdd | psSub | psMul => exact registersKept_writeFpr.setPc
  | sc =>
    have advanced : RegistersKept s s.advance [] [] [lrIdx] := (WriteFrame.refl s).registersKept.setPc
    have f := raise_frame s.config.syscallIrq s.advance
    exact advanced.trans (registersKept_of_lr f.gpr f.fpr f.spr (List.mem_singleton_self _))
  | rfi => exact ⟨same.gpr, same.fpr, same.spr⟩
  | sync | isync | eieio => exact same.setPc

/-- A step changes no register but the destinations of the instruction it runs, and LR by an interrupt. -/
theorem step_registersKept {s t : State} (h : step s = .next t) :
    RegistersKept s t [] [] [] ∨
    ∃ i, decode (readWord s.pc s).1 = .ok i ∧
      RegistersKept s t (destGpr i).toList (destFprs i) (lrIdx :: destSprs i) := by
  rcases step_next h with ⟨why, -, rfl⟩ | ⟨i, hd, rfl⟩
  · have hf : RegistersKept s (fetch s).2 [] [] [] := (fetch_frame s).toWrite.registersKept
    exact .inl ⟨hf.gpr, hf.fpr, hf.spr⟩
  · have executed := (exec_registersKept i (fetch s).2).mono (List.subset_cons_self lrIdx _)
    have counted : RegistersKept (fetch s).2 (execNext i (fetch s).2).count (destGpr i).toList (destFprs i)
        (lrIdx :: destSprs i) := ⟨executed.gpr, executed.fpr, executed.spr⟩
    have p := finishStep_frame (execNext i (fetch s).2)
    exact .inr ⟨i, hd, ((fetch_frame s).toWrite.registersKept.trans counted).trans
      (registersKept_of_lr p.gpr p.fpr p.spr List.mem_cons_self)⟩

/-- A special register an instruction can write is LR, or it is CR and the instruction a compare. -/
theorem mem_destSprs {i : Instr} {n : SprIdx} (h : n ∈ destSprs i) :
    n = lrIdx ∨ (n = crIdx ∧ ∃ f a b, i = .cmp f a b) := by
  cases i with
  | cmp f a b => exact .inr ⟨List.mem_singleton.1 h, f, a, b, rfl⟩
  | b | bc | sc => exact .inl (List.mem_singleton.1 h)
  | _ => cases h

/-- A special register other than LR that a step changes is CR, and the instruction a compare. -/
theorem step_spr_changed {s t : State} {n : SprIdx} (h : step s = .next t) (hn : n ≠ lrIdx)
    (hc : t.readSpr n ≠ s.readSpr n) :
    n = crIdx ∧ ∃ f a b, decode (readWord s.pc s).1 = .ok (.cmp f a b) := by
  rcases step_registersKept h with k | ⟨i, hd, k⟩
  · exact absurd (k.spr n List.not_mem_nil) hc
  · have hmem : n ∈ destSprs i := by
      by_contra hout
      exact hc (k.spr n (List.not_mem_cons_of_ne_of_not_mem hn hout))
    rcases mem_destSprs hmem with rfl | ⟨rfl, f, a, b, rfl⟩
    · exact absurd rfl hn
    · exact ⟨rfl, f, a, b, hd⟩

/-- Settles O22: a step changes no special register but LR and CR. -/
theorem otherSpecialRegistersNeverChange : Obligations.OtherSpecialRegistersNeverChange := by
  intro s t n h hcr hlr
  by_contra hc
  exact hcr (step_spr_changed h hlr hc).1

/-- Settles O23: the instruction of a step that changes CR is a compare. -/
theorem onlyCompareWritesCr : Obligations.OnlyCompareWritesCr :=
  fun _ _ h hc => (step_spr_changed h (by decide) hc).2

/-- Settles O24: a general register that a step changes is the destination of the instruction. -/
theorem generalRegistersChangeOnlyAtTheDestination :
    Obligations.GeneralRegistersChangeOnlyAtTheDestination := by
  intro s t r h hc
  rcases step_registersKept h with k | ⟨i, hd, k⟩
  · exact absurd (k.gpr r List.not_mem_nil) hc
  · refine ⟨i, hd, ?_⟩
    by_contra hdest
    exact hc (k.gpr r (by simpa using hdest))

/-! ### Zero lanes -/

/-- Every lane of every paired-single register is +0.0. -/
def LanesZero (s : State) : Prop := ∀ r, s.readFpr r = { ps0 := 0, ps1 := 0 }

/-- Sum, difference and product of +0.0 and +0.0 are +0.0 (43_paired_single.md R133). -/
theorem fadd32_zero : fadd32 0 0 = 0 := by decide

theorem fsub32_zero : fsub32 0 0 = 0 := by decide

theorem fmul32_zero : fmul32 0 0 = 0 := by decide

/-- A lanewise operation that keeps +0.0 keeps all lanes +0.0. -/
theorem LanesZero.writeFpr_lanewise {s : State} {f : Word → Word → Word} {r a b : Idx5} (h : LanesZero s)
    (hf : f 0 0 = 0) : LanesZero (s.writeFpr r (lanewise f (s.readFpr a) (s.readFpr b))) := by
  intro k
  rw [State.readFpr_writeFpr, h a, h b, lanewise, hf]
  split
  · rfl
  · exact h k

theorem LanesZero.execNext {s : State} {i : Instr} (h : LanesZero s) : LanesZero (execNext i s) := by
  cases i with
  | psAdd frD frA frB => exact h.writeFpr_lanewise (f := fadd32) fadd32_zero
  | psSub frD frA frB => exact h.writeFpr_lanewise (f := fsub32) fsub32_zero
  | psMul frD frA frC => exact h.writeFpr_lanewise (f := fmul32) fmul32_zero
  | _ => exact fun r => ((exec_registersKept _ s).fpr r List.not_mem_nil).trans (h r)

/-- Settles O25: the instruction keeps zero lanes zero; fetch, poll and halt touch no lane. -/
theorem zeroLanesStayZero : Obligations.ZeroLanesStayZero := by
  intro s t h hst
  have hf : LanesZero (fetch s).2 := fun r => (State.readFpr_congr (fetch_frame s).fpr).trans (h r)
  rcases step_next hst with ⟨why, -, rfl⟩ | ⟨i, -, rfl⟩
  · exact hf
  · exact fun r => (State.readFpr_congr (finishStep_frame _).fpr).trans (hf.execNext r)

end Sys2Proof.Machine
end

section
/-! Address translation (20_memory.md R42 to R45). -/

namespace Sys2Proof.Machine

/-- A region's addresses, the end excluded (20_memory.md R42). -/
theorem regionHolds_iff {r : Region} {a : Word} :
    regionHolds r a = true ↔ r.virtualStart ≤ a.toNat ∧ a.toNat < r.virtualEnd := by
  rw [regionHolds, Bool.and_eq_true, decide_eq_true_iff, decide_eq_true_iff]

/-- The search of the region table, written out in the order of 20_memory.md R42. -/
theorem translateAddr_eq (c : Config) (a : Word) :
    translateAddr c a =
      if regionHolds c.ram a then c.ram.physicalBase + (a.toNat - c.ram.virtualStart)
      else if regionHolds c.hwreg a then c.hwreg.physicalBase + (a.toNat - c.hwreg.virtualStart)
      else if regionHolds c.coproc a then c.coproc.physicalBase + (a.toNat - c.coproc.virtualStart)
      else a.toNat &&& (c.capacity - 1) := by
  unfold translateAddr
  simp only [Config.regions, List.find?_cons, List.find?_nil]
  cases regionHolds c.ram a with
  | true => rfl
  | false =>
    cases regionHolds c.hwreg a with
    | true => rfl
    | false => cases regionHolds c.coproc a <;> rfl

/-- An admitted CAPACITY is a power of two, so the mask of the direct mapping is a remainder (20_memory.md R41, R43). -/
theorem mask_eq_mod_capacity {c : Config} (h : configOk c = true) (n : Nat) :
    n &&& (c.capacity - 1) = n % c.capacity := by
  obtain ⟨⟨k, -, hk⟩, -⟩ := configOk_iff.1 h
  rw [hk, Nat.and_two_pow_sub_one_eq_mod]

/-- A region that fits in the buffer places each of its addresses there (20_memory.md R44). -/
theorem regionPlace_lt_capacity {c : Config} {r : Region} {a : Word} (h : configOk c = true) (hr : r ∈ c.regions)
    (ha : regionHolds r a = true) : r.physicalBase + (a.toNat - r.virtualStart) < c.capacity := by
  obtain ⟨-, hfit, -⟩ := configOk_iff.1 h
  have fits := hfit r hr
  rw [regionHolds_iff] at ha
  omega

/-- Settles O33: each clause names the branch of the search it takes. -/
theorem translateRule : Obligations.TranslateRule := by
  intro c a inside
  rw [translateAddr_eq]
  simp only [regionHolds_iff]
  refine ⟨fun h1 => if_pos h1, fun h1 h2 => ?_, fun h1 h2 h3 => ?_, fun h1 h2 h3 => ?_⟩
  · rw [if_neg h1, if_pos h2]
  · rw [if_neg h1, if_neg h2, if_pos h3]
  · rw [if_neg h1, if_neg h2, if_neg h3]
    exact ⟨rfl, fun hok => mask_eq_mod_capacity hok a.toNat⟩

/-- Settles O34: a region lies in the buffer, and a remainder is below its modulus. -/
theorem translateStaysInTheBuffer : Obligations.TranslateStaysInTheBuffer := by
  intro c a h
  have hpos : 0 < c.capacity := by
    obtain ⟨⟨k, -, hk⟩, -⟩ := configOk_iff.1 h
    exact hk ▸ Nat.two_pow_pos k
  rw [translateAddr_eq]
  split_ifs with h1 h2 h3
  · exact regionPlace_lt_capacity h (by simp [Config.regions]) h1
  · exact regionPlace_lt_capacity h (by simp [Config.regions]) h2
  · exact regionPlace_lt_capacity h (by simp [Config.regions]) h3
  · rw [mask_eq_mod_capacity h]
    exact Nat.mod_lt _ hpos

end Sys2Proof.Machine
end

section
/-! Reading and writing words of the AddressSpace (20_memory.md R46 to R52). -/

namespace Sys2Proof.Machine

/-- A big-endian word as the number its four bytes write (20_memory.md R47). -/
theorem Memory.wordAt_toNat (m : Memory) (p : Nat) :
    (m.wordAt p).toNat = (m.read p).toNat * 2 ^ 24 + (m.read (p + 1)).toNat * 2 ^ 16 +
      (m.read (p + 2)).toNat * 2 ^ 8 + (m.read (p + 3)).toNat := by
  simp only [Memory.wordAt, wordOfBytes, toNat_append_add]
  omega

/-- Byte k of a word as a digit in base 256 (20_memory.md R49). -/
theorem byteOfWord_toNat (v : Word) (k : Nat) : (byteOfWord v k).toNat = v.toNat / 2 ^ (8 * (3 - k)) % 2 ^ 8 :=
  toNat_field v _ 8

/-- The pixel an address mirrors into, as 20_memory.md R50 states it. -/
theorem pixelIndex_eq_some_iff {c : Config} {a : Word} {j : Nat} :
    pixelIndex c a = some j ↔
      (c.fbStart ≤ a.toNat ∧ a.toNat < c.fbEnd ∧ (a.toNat - c.fbStart) / 4 < c.fbWidth * c.fbHeight) ∧
        j = (a.toNat - c.fbStart) / 4 := by
  rw [pixelIndex, Option.ite_none_right_eq_some, Option.some.injEq, eq_comm (b := j)]
  rfl

section Words

variable {s : State} {a v : Word}

/-- The input register is read before any translation (20_memory.md R48). -/
theorem readWord_inputAddr (h : a = s.config.inputAddr) :
    readWord a s = (Config.inputDraw s.inputReads, s.countInput) := by
  rcases @readWord_cases s a with ⟨-, e⟩ | ⟨hne, -⟩ | ⟨hne, -⟩
  · exact e
  · exact absurd h hne
  · exact absurd h hne

theorem readWord_outOfBounds (ha : a ≠ s.config.inputAddr) (hb : s.config.capacity < translateAddr s.config a + 4) :
    readWord a s = (0, s.emit (.outOfBounds a)) := by
  rcases @readWord_cases s a with ⟨h, -⟩ | ⟨-, h, -⟩ | ⟨-, -, e⟩
  · exact absurd h ha
  · omega
  · exact e

theorem writeWord_outOfBounds (hb : s.config.capacity < translateAddr s.config a + 4) :
    writeWord a v s = s.emit (.outOfBounds a) := by
  rcases @writeWord_cases s a v with ⟨-, e⟩ | ⟨h, -⟩ | ⟨h, -⟩
  · exact e
  · omega
  · omega

/-- The buffer after a write in bounds, byte by byte (20_memory.md R49). -/
theorem writeWord_byteAt {p q : Nat} (hm : s.mem.wf) (h : LiesAt s.config a p) :
    (writeWord a v s).byteAt q = if p ≤ q ∧ q < p + 4 then byteOfWord v (q - p) else s.byteAt q := by
  obtain ⟨hmem, -⟩ := writeWord_at (v := v) h
  rw [State.byteAt, hmem]
  exact Memory.read_putWord hm

/-- The four bytes a write in bounds stores, by their place in the word. -/
theorem writeWord_byteAt_toNat {p k : Nat} (hm : s.mem.wf) (h : LiesAt s.config a p) (hk : k < 4) :
    ((writeWord a v s).byteAt (p + k)).toNat = v.toNat / 2 ^ (8 * (3 - k)) % 2 ^ 8 := by
  rw [writeWord_byteAt hm h, if_pos (by omega), Nat.add_sub_cancel_left, byteOfWord_toNat]

/-- A write in bounds at an address of the framebuffer window sets that address's pixel (20_memory.md R50). -/
theorem writeWord_pixelAt_same {j : Nat} (hp : s.pixels.wf) (hb : translateAddr s.config a + 4 ≤ s.config.capacity)
    (hj : pixelIndex s.config a = some j) : (writeWord a v s).pixelAt j = v := by
  rcases @writeWord_cases s a v with ⟨hout, -⟩ | ⟨-, i, hi, e⟩ | ⟨-, hi, -⟩
  · omega
  · obtain rfl : i = j := Option.some.inj (hi.symm.trans hj)
    rw [e]
    exact Pixels.read_write_same hp
  · cases hi.symm.trans hj

/-- A word written in bounds is read back by the next read of its address (20_memory.md R52). -/
theorem readWord_writeWord_same {p : Nat} (hm : s.mem.wf) (h : ReadsAt s.config a p) :
    (readWord a (writeWord a v s)).1 = v := by
  obtain ⟨hmem, -⟩ := writeWord_at (v := v) h.2
  have still : ReadsAt (writeWord a v s).config a p := (writeWord_frame a v s).config ▸ h
  rw [readWord_at still, hmem]
  exact Memory.wordAt_putWord hm

end Words

theorem WriteFrame.statusKept {s t : State} (f : WriteFrame s t) : StatusKept s t :=
  ⟨f.running, f.interruptsEnabled, f.kernelMode, f.cycleCount⟩

/-- Settles O35: the three cases of a read, the word in bounds by its bytes. -/
theorem readWordRule : Obligations.ReadWordRule := by
  refine fun a s => ⟨readWord_inputAddr, fun ha hb => ?_, readWord_outOfBounds⟩
  rw [readWord_at ⟨ha, rfl, hb⟩]
  exact ⟨rfl, s.mem.wordAt_toNat _⟩

/-- Settles O36: the write out of bounds, and in bounds the bytes, the pixels and the frame. -/
theorem writeWordRule : Obligations.WriteWordRule := by
  intro a v s hm hp p i mirrored
  refine ⟨writeWord_outOfBounds, fun hb => ?_⟩
  have lies : LiesAt s.config a p := ⟨rfl, hb⟩
  have top : v.toNat / 2 ^ 24 % 2 ^ 8 = v.toNat / 2 ^ 24 := Nat.mod_eq_of_lt (by omega)
  have low : v.toNat / 2 ^ 0 % 2 ^ 8 = v.toNat % 2 ^ 8 := by rw [Nat.pow_zero, Nat.div_one]
  have outside : ∀ q, q < p ∨ p + 4 ≤ q → (writeWord a v s).byteAt q = s.byteAt q := fun q hq => by
    rw [writeWord_byteAt hm lies, if_neg (by omega)]
  obtain ⟨-, hevents, hinputs, haudio⟩ := writeWord_at (v := v) lies
  have f := writeWord_frame a v s
  exact ⟨(writeWord_byteAt_toNat (k := 0) hm lies (by decide)).trans top,
    writeWord_byteAt_toNat hm lies (by decide), writeWord_byteAt_toNat hm lies (by decide),
    (writeWord_byteAt_toNat hm lies (by decide)).trans low, outside,
    fun h => writeWord_pixelAt_same hp hb (pixelIndex_eq_some_iff.2 ⟨h, rfl⟩),
    fun j hj => writeWord_pixelAt_ne fun h => hj (pixelIndex_eq_some_iff.1 h),
    f.pc, f.registersKept, f.statusKept, ⟨hevents, hinputs, haudio⟩, f.config⟩

/-- Settles O37: the write leaves the configuration, so the read finds the same four bytes. -/
theorem readAfterWrite : Obligations.ReadAfterWrite :=
  fun _ _ _ hm ha hb => readWord_writeWord_same hm ⟨ha, rfl, hb⟩

end Sys2Proof.Machine
end

section
/-! Words given field by field, as arithmetic, and what the decoder reads from them (spec/30_encoding.md R71, R72,
R83); an encoded instruction is such a word with its ignored bits fixed. -/

namespace Sys2Proof

theorem toNat_ofNat_word {n : Nat} (h : n < 2 ^ 32) : (BitVec.ofNat 32 n).toNat = n :=
  (BitVec.toNat_ofNat n 32).trans (Nat.mod_eq_of_lt h)

theorem fields_of_toNat_D {w : Word} {op : Nat} {x y : Idx5} {imm : BitVec 16}
    (h : w.toNat = op * 2 ^ 26 + x.val * 2 ^ 21 + y.val * 2 ^ 16 + imm.toNat) :
    (opcd w).toNat = op ∧ x = field5 w 21 ∧ y = field5 w 16 ∧ imm = imm16 w := by
  rw [opcd_toNat, Fin.ext_iff, Fin.ext_iff, field5_val, field5_val, ← BitVec.toNat_inj, imm16_toNat]
  omega

theorem fields_of_toNat_XO {w : Word} {xo rc : Nat} {x y z : Idx5}
    (h : w.toNat = 31 * 2 ^ 26 + x.val * 2 ^ 21 + y.val * 2 ^ 16 + z.val * 2 ^ 11 + xo * 2 + rc)
    (hxo : xo < 2 ^ 10) (hrc : rc < 2) :
    ((opcd w).toNat = 31 ∧ (xo10 w).toNat = xo) ∧ x = field5 w 21 ∧ y = field5 w 16 ∧ z = field5 w 11 := by
  simp only [opcd_toNat, xo10_toNat, Fin.ext_iff, field5_val]
  omega

theorem fields_of_toNat_cmp {w : Word} {l rc : Nat} {f : CrField} {y z : Idx5}
    (h : w.toNat = 31 * 2 ^ 26 + f.val * 2 ^ 23 + l * 2 ^ 21 + y.val * 2 ^ 16 + z.val * 2 ^ 11 + rc)
    (hl : l < 4) (hrc : rc < 2) :
    ((opcd w).toNat = 31 ∧ (xo10 w).toNat = 0) ∧ f = crfField w ∧ y = field5 w 16 ∧ z = field5 w 11 := by
  simp only [opcd_toNat, xo10_toNat, Fin.ext_iff, field5_val, crfField_val]
  omega

theorem fields_of_toNat_A {w : Word} {xo rc : Nat} {x y z t : Idx5}
    (h : w.toNat = 4 * 2 ^ 26 + x.val * 2 ^ 21 + y.val * 2 ^ 16 + z.val * 2 ^ 11 + t.val * 2 ^ 6 + xo * 2 + rc)
    (hxo : xo < 2 ^ 5) (hrc : rc < 2) :
    (((opcd w).toNat = 4 ∧ (xo5 w).toNat = xo) ∧ x = field5 w 21 ∧ y = field5 w 16 ∧ z = field5 w 11) ∧
      t = field5 w 6 := by
  simp only [opcd_toNat, xo5_toNat, Fin.ext_iff, field5_val]
  omega

/-- The two flag bits of a branch word. -/
theorem flags_of_toNat {w : Word} {q : Nat} {aa lk : Bool} (h : w.toNat = q * 4 + aa.toNat * 2 + lk.toNat) :
    aa = w.getLsbD 1 ∧ lk = w.getLsbD 0 := by
  simp only [BitVec.getLsbD, Nat.testBit_eq_decide_div_mod_eq, h]
  cases aa <;> cases lk <;> simp <;> omega

end Sys2Proof
end

section
/-! Branch displacements as numbers (spec/30_encoding.md R75). -/

namespace Sys2Proof.Machine

theorem toInt_extractLsb'_eq_signedBitsOf (w : Word) {lo n : Nat} (hn : 0 < n) :
    (w.extractLsb' lo n).toInt = signedBitsOf w lo n := by
  obtain ⟨m, rfl⟩ : ∃ m, n = m + 1 := ⟨n - 1, by omega⟩
  have half : 2 * bitsOf w lo (m + 1) < 2 ^ (m + 1) ↔ bitsOf w lo (m + 1) < 2 ^ m := by
    rw [Nat.pow_succ]
    omega
  have field : (w.extractLsb' lo (m + 1)).toNat = bitsOf w lo (m + 1) := toNat_field w lo _
  rw [BitVec.toInt_eq_toNat_cond, field, signedBitsOf, Nat.add_sub_cancel]
  simp only [half, Nat.cast_pow, Nat.cast_ofNat]

/-- A field with two zero bits below it, sign-extended, is four times the signed field. -/
theorem toInt_signExtend_field (w : Word) {n : Nat} (hn : 0 < n) (hle : n + 2 ≤ 32) :
    ((w.extractLsb' 2 n ++ 0#2).signExtend 32).toInt = 4 * signedBitsOf w 2 n := by
  rw [BitVec.toInt_signExtend_of_le hle, BitVec.toInt_append_zero, toInt_extractLsb'_eq_signedBitsOf w hn]
  omega

theorem liDisp_toInt (w : Word) : (liDisp w).toInt = 4 * signedBitsOf w 2 24 :=
  toInt_signExtend_field w (by decide) (by decide)

theorem bdDisp_toInt (w : Word) : (bdDisp w).toInt = 4 * signedBitsOf w 2 14 :=
  toInt_signExtend_field w (by decide) (by decide)

theorem signedBitsOf_bounds (w : Word) {lo n : Nat} (hn : 0 < n) :
    -(2 ^ (n - 1) : Int) ≤ signedBitsOf w lo n ∧ signedBitsOf w lo n < 2 ^ (n - 1) := by
  rw [← toInt_extractLsb'_eq_signedBitsOf w hn]
  exact ⟨BitVec.le_toInt _, BitVec.toInt_lt⟩

theorem liDisp_range (w : Word) : -(2 ^ 25 : Int) ≤ (liDisp w).toInt ∧ (liDisp w).toInt ≤ 2 ^ 25 - 4 := by
  have := signedBitsOf_bounds w (lo := 2) (n := 24) (by decide)
  rw [liDisp_toInt]
  omega

theorem bdDisp_range (w : Word) : -(2 ^ 15 : Int) ≤ (bdDisp w).toInt ∧ (bdDisp w).toInt ≤ 2 ^ 15 - 4 := by
  have := signedBitsOf_bounds w (lo := 2) (n := 14) (by decide)
  rw [bdDisp_toInt]
  omega

/-- The fields of an I form word (R72). -/
theorem fields_of_toNat_I {w : Word} {li : Nat} {aa lk : Bool}
    (h : w.toNat = 18 * 2 ^ 26 + li * 4 + aa.toNat * 2 + lk.toNat) (hli : li < 2 ^ 24) :
    (opcd w).toNat = 18 ∧ bitsOf w 2 24 = li ∧ aa = w.getLsbD 1 ∧ lk = w.getLsbD 0 := by
  have haa := aa.toNat_lt
  have hlk := lk.toNat_lt
  refine ⟨?_, ?_, flags_of_toNat (q := 18 * 2 ^ 24 + li) (by omega)⟩
  · rw [opcd_toNat]
    omega
  · rw [bitsOf]
    omega

/-- The fields of a B form word (R72). -/
theorem fields_of_toNat_B {w : Word} {bo : BitVec 5} {bi : Idx5} {bd : Nat} {aa lk : Bool}
    (h : w.toNat = 16 * 2 ^ 26 + bo.toNat * 2 ^ 21 + bi.val * 2 ^ 16 + bd * 4 + aa.toNat * 2 + lk.toNat)
    (hbd : bd < 2 ^ 14) :
    (opcd w).toNat = 16 ∧ bitsOf w 2 14 = bd ∧ bo = w.extractLsb' 21 5 ∧ bi = field5 w 16 ∧
      aa = w.getLsbD 1 ∧ lk = w.getLsbD 0 := by
  have haa := aa.toNat_lt
  have hlk := lk.toNat_lt
  have hbo := bo.isLt
  refine ⟨?_, ?_, ?_, ?_, flags_of_toNat (q := 16 * 2 ^ 24 + bo.toNat * 2 ^ 19 + bi.val * 2 ^ 14 + bd) (by omega)⟩
  · rw [opcd_toNat]
    omega
  · rw [bitsOf]
    omega
  · rw [← BitVec.toNat_inj, toNat_field]
    omega
  · rw [Fin.ext_iff, field5_val]
    omega

theorem wf_b_iff {disp : Word} {aa lk : Bool} :
    (Instr.b disp aa lk).wf = true ↔
      disp.toNat % 4 = 0 ∧ -(2 ^ 25 : Int) ≤ disp.toInt ∧ disp.toInt ≤ 2 ^ 25 - 4 := by
  rw [Instr.wf, Bool.and_eq_true, dispAligned, liInRange, beq_iff_eq, decide_eq_true_iff]

theorem wf_bc_iff {bo : BitVec 5} {bi : Idx5} {disp : Word} {aa lk : Bool} :
    (Instr.bc bo bi disp aa lk).wf = true ↔
      disp.toNat % 4 = 0 ∧ -(2 ^ 15 : Int) ≤ disp.toInt ∧ disp.toInt ≤ 2 ^ 15 - 4 := by
  rw [Instr.wf, Bool.and_eq_true, dispAligned, bdInRange, beq_iff_eq, decide_eq_true_iff]

/-- A well-formed displacement is its own field, shifted back. -/
theorem liDisp_eq_of_wf {w disp : Word} {aa lk : Bool} (hwf : (Instr.b disp aa lk).wf = true)
    (hw : bitsOf w 2 24 = disp.toNat / 4 % 2 ^ 24) : liDisp w = disp := by
  obtain ⟨haligned, hlo, hhi⟩ := wf_b_iff.1 hwf
  apply BitVec.eq_of_toInt_eq
  rw [liDisp_toInt, signedBitsOf, hw]
  rw [BitVec.toInt_eq_toNat_cond] at hlo hhi ⊢
  omega

theorem bdDisp_eq_of_wf {w disp : Word} {bo : BitVec 5} {bi : Idx5} {aa lk : Bool}
    (hwf : (Instr.bc bo bi disp aa lk).wf = true) (hw : bitsOf w 2 14 = disp.toNat / 4 % 2 ^ 14) :
    bdDisp w = disp := by
  obtain ⟨haligned, hlo, hhi⟩ := wf_bc_iff.1 hwf
  apply BitVec.eq_of_toInt_eq
  rw [bdDisp_toInt, signedBitsOf, hw]
  rw [BitVec.toInt_eq_toNat_cond] at hlo hhi ⊢
  omega

/-- Settles O5: a branch word's displacement is four times its signed field. -/
theorem branchDisplacementsOfWords : Obligations.BranchDisplacementsOfWords := by
  constructor
  · intro w disp aa lk h
    obtain ⟨-, rfl, -⟩ := decode_ok h
    exact ⟨liDisp_toInt w, wordAligned_iff.1 (wordAligned_liDisp w), liDisp_range w⟩
  · intro w disp bo bi aa lk h
    obtain ⟨-, -, -, rfl, -⟩ := decode_ok h
    exact ⟨bdDisp_toInt w, wordAligned_iff.1 (wordAligned_bdDisp w), bdDisp_range w⟩

/-- Settles O2: only the branches have something to check, their displacements. -/
theorem decodedInstructionsAreWellFormed : Obligations.DecodedInstructionsAreWellFormed := by
  intro w i h
  cases i with
  | b =>
    obtain ⟨-, haligned, hrange⟩ := branchDisplacementsOfWords.1 _ _ _ _ h
    exact wf_b_iff.2 ⟨haligned, hrange⟩
  | bc =>
    obtain ⟨-, haligned, hrange⟩ := branchDisplacementsOfWords.2 _ _ _ _ _ _ h
    exact wf_bc_iff.2 ⟨haligned, hrange⟩
  | _ => rfl

end Sys2Proof.Machine
end

section
/-! Decoding an encoded instruction (spec/30_encoding.md R72, R83). -/

namespace Sys2Proof.Machine

/-- Settles O1: the encoder's word, as arithmetic, has the row's selector and the fields in their places; a
well-formed displacement survives the two bits its field leaves out. -/
theorem decodeOfEncode : Obligations.DecodeOfEncode := by
  intro i hwf
  apply decode_of_decodesAs
  cases i with
  | addi | addis | andi | ori | lwz | stw => exact fields_of_toNat_D (encD_toNat _ _ _ _)
  | add | subf | mullw => exact fields_of_toNat_XO (rc := 0) (encXO_toNat _ _ _ _ _) (by decide) (by decide)
  | cmp f y z =>
    exact fields_of_toNat_cmp (l := 0) (rc := 0) (by rw [encode_cmp_toNat]; omega) (by decide) (by decide)
  | b disp aa lk =>
    obtain ⟨hop, hli, hflags⟩ := fields_of_toNat_I (encode_b_toNat disp aa lk) (Nat.mod_lt _ (by decide))
    exact ⟨hop, (liDisp_eq_of_wf hwf hli).symm, hflags⟩
  | bc bo bi disp aa lk =>
    obtain ⟨hop, hbd, hbo, hbi, hflags⟩ :=
      fields_of_toNat_B (encode_bc_toNat bi bo disp aa lk) (Nat.mod_lt _ (by decide))
    exact ⟨hop, hbo, hbi, (bdDisp_eq_of_wf hwf hbd).symm, hflags⟩
  | psAdd frD frA frB =>
    exact (fields_of_toNat_A (rc := 0) (encA_toNat frD frA frB 0 21) (by decide) (by decide)).1
  | psSub frD frA frB =>
    exact (fields_of_toNat_A (rc := 0) (encA_toNat frD frA frB 0 20) (by decide) (by decide)).1
  | psMul frD frA frC =>
    have hw := (encA_toNat frD frA 0 frC 25).trans (Nat.add_zero _).symm
    obtain ⟨⟨hsel, hx, hy, -⟩, ht⟩ := fields_of_toNat_A hw (BitVec.isLt _) (by decide)
    exact ⟨hsel, hx, hy, ht⟩
  | sc => rfl
  | rfi | sync | isync | eieio => exact ⟨rfl, rfl⟩

/-- Settles O6: the fields are read back from the word's arithmetic. -/
theorem fieldsReachTheirOperands : Obligations.FieldsReachTheirOperands := by
  refine ⟨fun x y imm => ?_, fun x y z rc => ?_, fun f l y z rc => ?_, fun x y z t rc => ?_⟩
  · have imm_lt := imm.isLt
    have fields (op : Nat) (hop : op < 64) :=
      fields_of_toNat_D (op := op) (x := x) (y := y) (imm := imm) (toNat_ofNat_word (by omega))
    exact ⟨decode_of_decodesAs (fields 14 (by decide)), decode_of_decodesAs (fields 15 (by decide)),
      decode_of_decodesAs (fields 28 (by decide)), decode_of_decodesAs (fields 24 (by decide)),
      decode_of_decodesAs (fields 32 (by decide)), decode_of_decodesAs (fields 36 (by decide))⟩
  · have fields (xo : Nat) (hxo : xo < 2 ^ 10) :=
      fields_of_toNat_XO (xo := xo) (x := x) (y := y) (z := z) (toNat_ofNat_word (by omega)) hxo rc.isLt
    exact ⟨decode_of_decodesAs (fields 266 (by decide)), decode_of_decodesAs (fields 40 (by decide)),
      decode_of_decodesAs (fields 235 (by decide)), decode_of_decodesAs (fields 598 (by decide)).1,
      decode_of_decodesAs (fields 854 (by decide)).1⟩
  · exact decode_of_decodesAs
      (fields_of_toNat_cmp (toNat_ofNat_word (by omega)) l.isLt rc.isLt)
  · have fields (xo : Nat) (hxo : xo < 2 ^ 5) :=
      fields_of_toNat_A (xo := xo) (x := x) (y := y) (z := z) (t := t) (toNat_ofNat_word (by omega)) hxo
        rc.isLt
    obtain ⟨⟨hsel, hx, hy, -⟩, ht⟩ := fields 25 (by decide)
    exact ⟨decode_of_decodesAs (fields 21 (by decide)).1, decode_of_decodesAs (fields 20 (by decide)).1,
      decode_of_decodesAs ⟨hsel, hx, hy, ht⟩⟩

end Sys2Proof.Machine
end

section
/-! The rows of the opcode table and the bits no instruction reads (spec/30_encoding.md R79 to R84). -/

namespace Sys2Proof

theorem row_of_opcd {w : Word} {n : Nat} (h : (opcd w).toNat = n) :
    w &&& 0xFC000000#32 = BitVec.ofNat 32 (n * 2 ^ 26) := by
  rw [and_opcdMask, ← opcd_toNat, h]

theorem row_of_xo10 {w : Word} {n k : Nat} (h : (opcd w).toNat = n ∧ (xo10 w).toNat = k) :
    w &&& 0xFC0007FE#32 = BitVec.ofNat 32 (n * 2 ^ 26 + k * 2) := by
  obtain ⟨ho, hx⟩ := h
  rw [and_xo10Mask, ← opcd_toNat, ← xo10_toNat, ho, hx]

theorem row_of_xo5 {w : Word} {n k : Nat} (h : (opcd w).toNat = n ∧ (xo5 w).toNat = k) :
    w &&& 0xFC00003E#32 = BitVec.ofNat 32 (n * 2 ^ 26 + k * 2) := by
  obtain ⟨ho, hx⟩ := h
  rw [and_xo5Mask, ← opcd_toNat, ← xo5_toNat, ho, hx]

/-- A word with the selectors of an instruction has the match of its row. -/
theorem DecodesAs.tableRow {w : Word} {i : Instr} (h : DecodesAs w i) : w &&& i.tableRow.1 = i.tableRow.2 := by
  cases i with
  | addi | addis | andi | ori | lwz | stw | b | bc => exact row_of_opcd h.1
  | add | subf | mullw | cmp => exact row_of_xo10 h.1
  | psAdd | psSub | psMul => exact row_of_xo5 h.1
  | sc => exact row_of_opcd h
  | rfi | sync | isync | eieio => exact row_of_xo10 h

/-- A word with the match of an instruction's row decodes to the row's instruction with the word's own fields. -/
theorem decode_of_tableRow {w : Word} {i : Instr} (h : w &&& i.tableRow.1 = i.tableRow.2) :
    ∃ j, decode w = .ok j ∧ j.tableRow = i.tableRow := by
  suffices ∃ j, DecodesAs w j ∧ j.tableRow = i.tableRow by
    obtain ⟨j, hj, hrow⟩ := this
    exact ⟨j, decode_of_decodesAs hj, hrow⟩
  cases i with
  | addi => exact ⟨.addi _ _ _, ⟨opcd_of_row (n := 14) h (by decide), rfl, rfl, rfl⟩, rfl⟩
  | addis => exact ⟨.addis _ _ _, ⟨opcd_of_row (n := 15) h (by decide), rfl, rfl, rfl⟩, rfl⟩
  | andi => exact ⟨.andi _ _ _, ⟨opcd_of_row (n := 28) h (by decide), rfl, rfl, rfl⟩, rfl⟩
  | ori => exact ⟨.ori _ _ _, ⟨opcd_of_row (n := 24) h (by decide), rfl, rfl, rfl⟩, rfl⟩
  | lwz => exact ⟨.lwz _ _ _, ⟨opcd_of_row (n := 32) h (by decide), rfl, rfl, rfl⟩, rfl⟩
  | stw => exact ⟨.stw _ _ _, ⟨opcd_of_row (n := 36) h (by decide), rfl, rfl, rfl⟩, rfl⟩
  | b => exact ⟨.b _ _ _, ⟨opcd_of_row (n := 18) h (by decide), rfl, rfl, rfl⟩, rfl⟩
  | bc => exact ⟨.bc _ _ _ _ _, ⟨opcd_of_row (n := 16) h (by decide), rfl, rfl, rfl, rfl, rfl⟩, rfl⟩
  | sc => exact ⟨.sc, opcd_of_row (n := 17) h (by decide), rfl⟩
  | add =>
    exact ⟨.add _ _ _, ⟨xo10_of_row (n := 31) (k := 266) h (by decide) (by decide), rfl, rfl, rfl⟩, rfl⟩
  | subf =>
    exact ⟨.subf _ _ _, ⟨xo10_of_row (n := 31) (k := 40) h (by decide) (by decide), rfl, rfl, rfl⟩, rfl⟩
  | mullw =>
    exact ⟨.mullw _ _ _, ⟨xo10_of_row (n := 31) (k := 235) h (by decide) (by decide), rfl, rfl, rfl⟩, rfl⟩
  | cmp => exact ⟨.cmp _ _ _, ⟨xo10_of_row (n := 31) (k := 0) h (by decide) (by decide), rfl, rfl, rfl⟩, rfl⟩
  | psAdd => exact ⟨.psAdd _ _ _, ⟨xo5_of_row (n := 4) (k := 21) h (by decide) (by decide), rfl, rfl, rfl⟩, rfl⟩
  | psSub => exact ⟨.psSub _ _ _, ⟨xo5_of_row (n := 4) (k := 20) h (by decide) (by decide), rfl, rfl, rfl⟩, rfl⟩
  | psMul => exact ⟨.psMul _ _ _, ⟨xo5_of_row (n := 4) (k := 25) h (by decide) (by decide), rfl, rfl, rfl⟩, rfl⟩
  | rfi => exact ⟨.rfi, xo10_of_row (n := 19) (k := 50) h (by decide) (by decide), rfl⟩
  | isync => exact ⟨.isync, xo10_of_row (n := 19) (k := 150) h (by decide) (by decide), rfl⟩
  | sync => exact ⟨.sync, xo10_of_row (n := 31) (k := 598) h (by decide) (by decide), rfl⟩
  | eieio => exact ⟨.eieio, xo10_of_row (n := 31) (k := 854) h (by decide) (by decide), rfl⟩

/-- Settles O3: the row's match under its mask is the row's selectors. -/
theorem decodeFollowsTheOpcodeTable : Obligations.DecodeFollowsTheOpcodeTable :=
  ⟨fun _ _ h => (decode_ok h).tableRow, fun _ _ h => decode_of_tableRow h⟩

/-- Two words that differ only under a mask agree in every field that the mask leaves out. -/
theorem extractLsb'_eq_of_differ_under {w v m : Word} {lo n : Nat} (h : (w ^^^ v) &&& ~~~m = 0)
    (hm : m.extractLsb' lo n = 0) : v.extractLsb' lo n = w.extractLsb' lo n := by
  apply BitVec.eq_of_getLsbD_eq
  intro k hk
  have free : m.getLsbD (lo + k) = false := by simpa [hk] using congrArg (·.getLsbD k) hm
  have agree : w.getLsbD (lo + k) = v.getLsbD (lo + k) := by
    by_cases hlt : lo + k < 32
    · have hbit := congrArg (·.getLsbD (lo + k)) h
      simp only [BitVec.getLsbD_and, BitVec.getLsbD_xor, BitVec.getLsbD_not, free, hlt] at hbit
      simpa using hbit
    · rw [BitVec.getLsbD_of_ge _ _ (by omega), BitVec.getLsbD_of_ge _ _ (by omega)]
  simp only [BitVec.getLsbD_extractLsb', agree]

/-- Settles O4: the selectors and the fields lie outside the ignored bits; where no bit is ignored, the words are
equal. -/
theorem ignoredBitsNeverMatter : Obligations.IgnoredBitsNeverMatter := by
  intro w v i hd hdiffer
  have same (m : Word) (hi : i.ignoredBits = m) {lo n : Nat} (hm : m.extractLsb' lo n = 0) :
      v.extractLsb' lo n = w.extractLsb' lo n := extractLsb'_eq_of_differ_under hdiffer (hi ▸ hm)
  have h := decode_ok hd
  cases i with
  | addi | addis | andi | ori | lwz | stw | b | bc =>
    have equal : v = w := by simpa using same 0 rfl (lo := 0) (n := 32) rfl
    rw [equal, hd]
  | add | subf | mullw =>
    apply decode_of_decodesAs
    simpa (disch := decide) only [DecodesAs, opcd, xo10, field5, same 0x00000001 rfl] using h
  | cmp =>
    apply decode_of_decodesAs
    simpa (disch := decide) only [DecodesAs, opcd, xo10, crfField, field5, same 0x00600001 rfl] using h
  | psAdd | psSub =>
    apply decode_of_decodesAs
    simpa (disch := decide) only [DecodesAs, opcd, xo5, field5, same 0x000007C1 rfl] using h
  | psMul =>
    apply decode_of_decodesAs
    simpa (disch := decide) only [DecodesAs, opcd, xo5, field5, same 0x0000F801 rfl] using h
  | sc =>
    apply decode_of_decodesAs
    simpa (disch := decide) only [DecodesAs, opcd, same 0x03FFFFFF rfl] using h
  | rfi | sync | isync | eieio =>
    apply decode_of_decodesAs
    simpa (disch := decide) only [DecodesAs, opcd, xo10, same 0x03FFF801 rfl] using h

end Sys2Proof
end

section
/-! The phases of a step by what the fetched word decodes to, and the words that halt (spec/30_encoding.md R85, R88 to
R95; 60_exceptions.md R151 to R153). -/

namespace Sys2Proof.Machine

/-! ### Which words the decoder rejects -/

theorem opcd_known_of_decodesAs {w : Word} {i : Instr} (h : DecodesAs w i) : (opcd w).toNat ∈ knownPrimaries := by
  cases i with
  | addi | addis | andi | ori | lwz | stw | b | bc | rfi | sync | isync | eieio =>
    obtain ⟨ho, -⟩ := h
    rw [ho]
    decide
  | add | subf | mullw | cmp | psAdd | psSub | psMul =>
    obtain ⟨⟨ho, -⟩, -⟩ := h
    rw [ho]
    decide
  | sc =>
    rw [show (opcd w).toNat = 17 from h]
    decide

theorem not_selectorUnknown_of_decodesAs {w : Word} {i : Instr} (h : DecodesAs w i) : ¬ SelectorUnknown w := by
  cases i with
  | addi | addis | andi | ori | lwz | stw | b | bc | rfi | sync | isync | eieio =>
    obtain ⟨ho, hx⟩ := h
    simp [SelectorUnknown, ho, hx]
  | add | subf | mullw | cmp | psAdd | psSub | psMul =>
    obtain ⟨⟨ho, hx⟩, -⟩ := h
    simp [SelectorUnknown, ho, hx]
  | sc => simp [SelectorUnknown, show (opcd w).toNat = 17 from h]

theorem opcd_known_of_selectorUnknown {w : Word} (h : SelectorUnknown w) : (opcd w).toNat ∈ knownPrimaries := by
  rcases h with ⟨ho, -⟩ | ⟨ho, -⟩ | ⟨ho, -⟩ <;> rw [ho] <;> decide

theorem decode_unknownOpcode {w : Word} (h : (opcd w).toNat ∉ knownPrimaries) :
    decode w = .error .unknownOpcode := by
  cases hd : decode w with
  | ok i => exact absurd (opcd_known_of_decodesAs (decode_ok hd)) h
  | error e =>
    rcases decode_error hd with ⟨rfl, -⟩ | ⟨-, hsel⟩
    · rfl
    · exact absurd (opcd_known_of_selectorUnknown hsel) h

theorem decode_unknownExtendedOpcode {w : Word} (h : SelectorUnknown w) :
    decode w = .error .unknownExtendedOpcode := by
  cases hd : decode w with
  | ok i => exact absurd h (not_selectorUnknown_of_decodesAs (decode_ok hd))
  | error e =>
    rcases decode_error hd with ⟨-, hprimary⟩ | ⟨rfl, -⟩
    · exact absurd (opcd_known_of_selectorUnknown h) hprimary
    · rfl

theorem opcd_toNat_eq_bitsOf (w : Word) : (opcd w).toNat = bitsOf w 26 6 := toNat_field w 26 6

theorem selectorUnknown_iff {w : Word} :
    SelectorUnknown w ↔
      (bitsOf w 26 6 = 31 ∧ bitsOf w 1 10 ∉ [0, 40, 235, 266, 598, 854]) ∨
      (bitsOf w 26 6 = 19 ∧ bitsOf w 1 10 ∉ [50, 150]) ∨
      (bitsOf w 26 6 = 4 ∧ bitsOf w 1 5 ∉ [20, 21, 25]) := by
  have hxo10 : (xo10 w).toNat = bitsOf w 1 10 := toNat_field w 1 10
  have hxo5 : (xo5 w).toNat = bitsOf w 1 5 := toNat_field w 1 5
  rw [SelectorUnknown, opcd_toNat_eq_bitsOf, hxo10, hxo5]

/-! ### The step of a running machine -/

section Running

variable {s : State} (hc : configOk s.config = true) (hr : s.running = true)

include hc hr

theorem step_of_decode_error {why : Illegal} (hd : decode (fetch s).1 = .error why) :
    step s = .next (halt why (fetch s).1 (fetch s).2) := by
  simp [step, hc, hr, runCycle, runDecoded, hd]

theorem step_of_decode_ok {i : Instr} (hd : decode (fetch s).1 = .ok i) :
    step s = .next (finishStep (execNext i (fetch s).2)) := by
  simp [step, hc, hr, runCycle, runDecoded, hd, exec_completes]

end Running

theorem step_of_not_running {s : State} (hc : configOk s.config = true) (hr : s.running = false) :
    step s = .fault .halted := by
  simp [step, hc, hr]

/-- An instruction, the count and the poll leave a running machine running. -/
theorem finishStep_execNext_running (i : Instr) (s : State) :
    (finishStep (execNext i s)).running = s.running := by
  obtain ⟨hrun, -⟩ := exec_frame i s
  exact (finishStep_frame _).running.trans hrun

theorem ReadFrame.storageKept {s t : State} (f : ReadFrame s t) : StorageKept s t where
  bytes p := by rw [State.byteAt, f.mem]; rfl
  pixels i := by rw [State.pixelAt, f.pixels]; rfl
  config := f.config

/-! ### The obligations -/

/-- Settles O8: the two kinds of rejected words halt with their diagnostic, and a step that executes an instruction
leaves the machine running. -/
theorem illegalWordsHalt : Obligations.IllegalWordsHalt := by
  intro s hc hr w haltsWith primaryUnknown selectorUnknown
  have f := fetch_frame s
  have halts {why : Illegal} (hd : decode w = .error why) : haltsWith (haltEvent why w s.pc) := by
    have registers : RegistersKept s (fetch s).2 [] [] [] := f.toWrite.registersKept
    have storage := f.storageKept
    have hevents : (halt why w (fetch s).2).events = (fetch s).2.events ++ [haltEvent why w s.pc] := by
      rw [← f.pc]
      rfl
    exact ⟨halt why w (fetch s).2, step_of_decode_error hc hr hd, rfl, f.pc,
      ⟨registers.gpr, registers.fpr, registers.spr⟩, f.interruptsEnabled, f.kernelMode, f.cycleCount,
      ⟨storage.bytes, storage.pixels, storage.config⟩, f.audioPolls, hevents,
      step_of_not_running (f.config.symm ▸ hc) rfl⟩
  refine ⟨fun h => halts (decode_unknownOpcode (opcd_toNat_eq_bitsOf w ▸ h)),
    fun h => halts (decode_unknownExtendedOpcode (selectorUnknown_iff.2 h)), fun t ht hstop => ?_⟩
  rcases step_next ht with ⟨why, hd, -⟩ | ⟨i, -, rfl⟩
  · rcases decode_error hd with ⟨-, hprimary⟩ | ⟨-, hsel⟩
    · rw [opcd_toNat_eq_bitsOf] at hprimary
      exact .inl hprimary
    · exact .inr (selectorUnknown_iff.1 hsel)
  · rw [finishStep_execNext_running, f.running, hr] at hstop
    cases hstop

/-- Settles O9: a running machine halts on an illegal word or executes, a stopped one is stuck. -/
theorem stepEnabledExactlyWhenRunning : Obligations.StepEnabledExactlyWhenRunning := by
  intro s hc
  constructor
  · rintro ⟨t, ht⟩
    by_contra hr
    rw [step_of_not_running hc (by simpa using hr)] at ht
    cases ht
  · intro hr
    cases hd : decode (fetch s).1 with
    | error why => exact ⟨_, step_of_decode_error hc hr hd⟩
    | ok i => exact ⟨_, step_of_decode_ok hc hr hd⟩

/-- Settles O10: the two checks before the fetch, and every instruction completes. -/
theorem theOnlyStops : Obligations.TheOnlyStops :=
  fun s => ⟨fun hc => by simp [step, hc], step_of_not_running, fun i => ⟨_, exec_completes i s⟩⟩

/-- Settles O11: the phases of the cycle in order, and the fetch of a word in the buffer. -/
theorem stepRunsTheDecodedInstruction : Obligations.StepRunsTheDecodedInstruction :=
  ⟨fun _ i hc hr hd => ⟨_, exec_completes i _, step_of_decode_ok hc hr hd⟩, fun _ _ h => readWord_at h⟩

end Sys2Proof.Machine
end

section
/-! The integer instructions: their words, their results and what they leave unchanged (spec/40_integer.md R100 to
R107). -/

namespace Sys2Proof.Machine

/-! ### The operands of a word, as the obligations write them -/

theorem regOf_eq_field5 (w : Word) (lo : Nat) : regOf w lo = field5 w lo := Fin.ext (toNat_field w lo 5).symm

theorem crfField_val_eq_bitsOf (w : Word) : (crfField w).val = bitsOf w 23 3 := toNat_field w 23 3

/-- The operands of a D form word (30_encoding.md R72). -/
theorem operands_D (w : Word) :
    regOf w 21 = field5 w 21 ∧ regOf w 16 = field5 w 16 ∧ BitVec.ofNat 16 w.toNat = imm16 w :=
  ⟨regOf_eq_field5 w 21, regOf_eq_field5 w 16, BitVec.eq_of_toNat_eq (imm16_toNat w).symm⟩

/-- The operands of an XO form word (30_encoding.md R72). -/
theorem operands_XO (w : Word) :
    regOf w 21 = field5 w 21 ∧ regOf w 16 = field5 w 16 ∧ regOf w 11 = field5 w 11 :=
  ⟨regOf_eq_field5 w 21, regOf_eq_field5 w 16, regOf_eq_field5 w 11⟩

/-! ### One register written, and pc + 4 -/

section Advance

variable {s : State}

theorem readGpr_writeGpr_advance (r : Idx5) (v : Word) : (s.writeGpr r v).advance.readGpr r = v :=
  State.readGpr_writeGpr.trans (if_pos rfl)

theorem readSpr_writeCr_advance (v : Word) : (s.writeCr v).advance.readSpr 0 = v :=
  State.readSpr_writeSpr.trans (if_pos rfl)

theorem writeGpr_advance_frame {r : Idx5} {v : Word} :
    (s.writeGpr r v).advance.pc = s.pc + 4 ∧ RegistersKept s (s.writeGpr r v).advance [r] [] [] ∧
      StatusKept s (s.writeGpr r v).advance ∧ StorageKept s (s.writeGpr r v).advance ∧
      OutputKept s (s.writeGpr r v).advance :=
  ⟨rfl, registersKept_writeGpr.setPc, ⟨rfl, rfl, rfl, rfl⟩, ⟨fun _ => rfl, fun _ => rfl, rfl⟩, ⟨rfl, rfl, rfl⟩⟩

theorem writeCr_advance_frame {v : Word} :
    (s.writeCr v).advance.pc = s.pc + 4 ∧ RegistersKept s (s.writeCr v).advance [] [] [0] ∧
      StatusKept s (s.writeCr v).advance ∧ StorageKept s (s.writeCr v).advance ∧
      OutputKept s (s.writeCr v).advance :=
  ⟨rfl, registersKept_writeSpr.setPc, ⟨rfl, rfl, rfl, rfl⟩, ⟨fun _ => rfl, fun _ => rfl, rfl⟩, ⟨rfl, rfl, rfl⟩⟩

end Advance

/-! ### Addition of an immediate -/

theorem add_signedImm (a : Word) (imm : BitVec 16) : a + signedImm imm = BitVec.ofInt 32 (a.toInt + imm.toInt) := by
  rw [BitVec.ofInt_add, BitVec.ofInt_toInt]
  rfl

theorem shiftedImm_toNat (imm : BitVec 16) : (shiftedImm imm).toNat = imm.toNat * 2 ^ 16 := by
  rw [shiftedImm, toNat_append_add, BitVec.toNat_zero, Nat.add_zero]

theorem add_shiftedImm (a : Word) (imm : BitVec 16) :
    a + shiftedImm imm = BitVec.ofNat 32 (a.toNat + imm.toNat * 2 ^ 16) := by
  apply BitVec.eq_of_toNat_eq
  rw [BitVec.toNat_add, shiftedImm_toNat, BitVec.toNat_ofNat]

/-- Settles O38: the sum of `(rA|0)` and the immediate, as numbers. -/
theorem addImmediateRules : Obligations.AddImmediateRules := by
  refine ⟨fun w => ⟨fun h => ?_, fun h => ?_⟩, fun rD rA imm s => ⟨?_, ?_⟩⟩
  · exact decode_of_decodesAs ⟨opcd_of_row (n := 14) h (by decide), operands_D w⟩
  · exact decode_of_decodesAs ⟨opcd_of_row (n := 15) h (by decide), operands_D w⟩
  · exact ⟨_, rfl, (readGpr_writeGpr_advance rD _).trans (add_signedImm _ imm), writeGpr_advance_frame⟩
  · exact ⟨_, rfl, (readGpr_writeGpr_advance rD _).trans (add_shiftedImm _ imm), writeGpr_advance_frame⟩

/-! ### Arithmetic of registers -/

theorem toNat_sub_eq_emod (a b : Word) : ((b - a).toNat : Int) = ((b.toNat - a.toNat : Int)) % 2 ^ 32 := by
  rw [BitVec.toNat_sub]
  omega

theorem mul_eq_ofInt (a b : Word) : a * b = BitVec.ofInt 32 (a.toInt * b.toInt) := by
  rw [BitVec.ofInt_mul, BitVec.ofInt_toInt, BitVec.ofInt_toInt]

/-- Settles O39: an `add` word with bit 10 set has the selector 266 + 512 = 778, which is in no row. -/
theorem registerArithmeticRules : Obligations.RegisterArithmeticRules := by
  refine ⟨fun w => ⟨fun h => ?_, fun h => ?_, fun h => ?_, fun h => ?_⟩, fun rD rA rB s => ⟨?_, ?_, ?_⟩⟩
  · exact decode_of_decodesAs ⟨xo10_of_row (n := 31) (k := 266) h (by decide) (by decide), operands_XO w⟩
  · exact decode_of_decodesAs ⟨xo10_of_row (n := 31) (k := 40) h (by decide) (by decide), operands_XO w⟩
  · exact decode_of_decodesAs ⟨xo10_of_row (n := 31) (k := 235) h (by decide) (by decide), operands_XO w⟩
  · obtain ⟨hop, hxo⟩ := xo10_of_row (n := 31) (k := 778) h (by decide) (by decide)
    exact decode_unknownExtendedOpcode (.inl ⟨hop, by rw [hxo]; decide⟩)
  · refine ⟨_, rfl, ?_, writeGpr_advance_frame⟩
    rw [readGpr_writeGpr_advance, BitVec.toNat_add]
  · refine ⟨_, rfl, ?_, writeGpr_advance_frame⟩
    rw [readGpr_writeGpr_advance, toNat_sub_eq_emod]
  · refine ⟨_, rfl, ?_, (readGpr_writeGpr_advance rD _).trans (mul_eq_ofInt _ _), writeGpr_advance_frame⟩
    rw [readGpr_writeGpr_advance, BitVec.toNat_mul]

/-! ### Logical immediates -/

theorem unsignedImm_getLsbD {imm : BitVec 16} {k : Nat} (hk : k < 32) :
    (unsignedImm imm).getLsbD k = (decide (k < 16) && imm.getLsbD k) := by
  have top (h : ¬ k < 16) : imm.getLsbD k = false := BitVec.getLsbD_of_ge imm k (by omega)
  rw [unsignedImm, BitVec.getLsbD_setWidth]
  by_cases h : k < 16 <;> simp [h, hk, top]

/-- Settles O40: bit by bit, with zeros above the immediate. -/
theorem logicalImmediateRules : Obligations.LogicalImmediateRules := by
  refine ⟨fun w => ⟨fun h => ?_, fun h => ?_⟩, fun rS rA imm s => ⟨?_, ?_⟩⟩
  · exact decode_of_decodesAs ⟨opcd_of_row (n := 28) h (by decide), operands_D w⟩
  · exact decode_of_decodesAs ⟨opcd_of_row (n := 24) h (by decide), operands_D w⟩
  · refine ⟨_, rfl, fun k hk => ?_, writeGpr_advance_frame⟩
    rw [readGpr_writeGpr_advance, BitVec.getLsbD_and, unsignedImm_getLsbD hk, Bool.and_comm]
  · refine ⟨_, rfl, fun k hk => ?_, writeGpr_advance_frame⟩
    rw [readGpr_writeGpr_advance, BitVec.getLsbD_or, unsignedImm_getLsbD hk, Bool.or_comm]

/-! ### Compare -/

theorem fieldMask_getLsbD (j : Nat) : (0xF#32).getLsbD j = decide (j < 4) := Nat.testBit_two_pow_sub_one 4 j

section Field

variable {cr : Word} {f : CrField} {c : BitVec 4} {j k : Nat}

theorem insertCrField_getLsbD_inside (hj : j < 4) (hk : k = crShift f + j) :
    (insertCrField cr f c).getLsbD k = c.getLsbD j := by
  have inWord : crShift f + j < 32 := by
    rw [crShift]
    omega
  have inWidth : j < 32 := by omega
  simp [insertCrField, fieldMask_getLsbD, -BitVec.getLsbD_eq_getElem, hk, hj, inWord, inWidth]

theorem insertCrField_getLsbD_outside (hk : k < 32) (hout : k < crShift f ∨ crShift f + 4 ≤ k) :
    (insertCrField cr f c).getLsbD k = cr.getLsbD k := by
  rcases hout with below | above
  · simp [insertCrField, hk, below]
  · have beyond : 4 ≤ k - crShift f := by omega
    simp [insertCrField, fieldMask_getLsbD, -BitVec.getLsbD_eq_getElem, hk, beyond]

end Field

/-- LT, GT, EQ and SO of a comparison, from the most significant bit down. -/
theorem compareBits_getLsbD (a b : Word) :
    (compareBits a b).getLsbD 3 = decide (a.toInt < b.toInt) ∧
      (compareBits a b).getLsbD 2 = decide (b.toInt < a.toInt) ∧
      (compareBits a b).getLsbD 1 = decide (a = b) ∧ (compareBits a b).getLsbD 0 = false := by
  rcases lt_trichotomy a.toInt b.toInt with h | h | h
  · have ne : a ≠ b := fun e => h.ne (congrArg _ e)
    simp [compareBits, h, h.not_gt, ne]
  · simp [compareBits, BitVec.eq_of_toInt_eq h]
  · have ne : a ≠ b := fun e => h.ne' (congrArg _ e)
    simp [compareBits, h, h.not_gt, ne]

/-- Settles O41: the bits of the field come from the comparison, every other bit from the old CR. -/
theorem compareRule : Obligations.CompareRule := by
  refine ⟨fun w h => ⟨crfField w, crfField_val_eq_bitsOf w, ?_⟩, fun f rA rB s => ?_⟩
  · exact decode_of_decodesAs ⟨xo10_of_row (n := 31) (k := 0) h (by decide) (by decide), rfl,
      regOf_eq_field5 w 16, regOf_eq_field5 w 11⟩
  · have place : crShift f = 28 - 4 * f.val := rfl
    obtain ⟨lt, gt, eq, so⟩ := compareBits_getLsbD (s.readGpr rA) (s.readGpr rB)
    refine ⟨_, rfl, ?_, ?_, ?_, ?_, fun k hk hout => ?_, writeCr_advance_frame⟩ <;> rw [readSpr_writeCr_advance]
    · exact (insertCrField_getLsbD_inside (by decide) (by omega)).trans lt
    · exact (insertCrField_getLsbD_inside (by decide) (by omega)).trans gt
    · exact (insertCrField_getLsbD_inside (by decide) (by omega)).trans eq
    · exact (insertCrField_getLsbD_inside (by decide) (by omega)).trans so
    · exact insertCrField_getLsbD_outside hk (by omega)

end Sys2Proof.Machine
end

section
/-! The branches: their words, their targets and conditions, and what they leave unchanged (spec/41_branch.md R115 to
R120). -/

namespace Sys2Proof.Machine

/-! ### The fields of a branch word, as the obligations write them -/

theorem ofNat_bitsOf (w : Word) (lo n : Nat) : BitVec.ofNat n (bitsOf w lo n) = w.extractLsb' lo n := by
  rw [bitsOf, ← toNat_field, BitVec.ofNat_toNat, BitVec.setWidth_eq]

theorem liDisp_eq_ofInt (w : Word) : liDisp w = BitVec.ofInt 32 (4 * signedBitsOf w 2 24) := by
  rw [← liDisp_toInt, BitVec.ofInt_toInt]

theorem bdDisp_eq_ofInt (w : Word) : bdDisp w = BitVec.ofInt 32 (4 * signedBitsOf w 2 14) := by
  rw [← bdDisp_toInt, BitVec.ofInt_toInt]

/-! ### Targets and conditions -/

theorem branchTarget_relative (pc disp : Word) : branchTarget pc disp false = pc + disp := rfl

/-- The mask of an absolute target clears the two low bits. -/
theorem branchTarget_absolute_toNat (pc disp : Word) : (branchTarget pc disp true).toNat = disp.toNat / 4 * 4 := by
  have mask : 0xFFFFFFFC#32 = BitVec.allOnes 32 <<< 2 := by decide
  rw [branchTarget, if_pos rfl, mask, ← BitVec.shiftLeft_ushiftRight, BitVec.toNat_shiftLeft,
    BitVec.toNat_ushiftRight, Nat.shiftLeft_eq, Nat.shiftRight_eq_div_pow]
  omega

/-- The condition of R118, in the words of the spec. -/
theorem branchTaken_iff {bo : BitVec 5} {crbit : Bool} :
    branchTaken bo crbit = true ↔
      bo.getLsbD 4 = true ∨ (bo.getLsbD 3 = true ∧ crbit = true) ∨ (bo.getLsbD 3 = false ∧ crbit = false) := by
  rw [branchTaken]
  cases bo.getLsbD 4 with
  | true => simp
  | false =>
    cases bo.getLsbD 3 with
    | true => simp
    | false => simp

/-! ### The link written or not, and a new pc -/

/-- All that a branch does but for where it goes (R120). -/
theorem linkIf_setPc_frame {s : State} {v : Word} {lk : Bool} :
    (lk = true → ((s.linkIf lk).setPc v).readSpr 8 = s.pc + 4 ∧ RegistersKept s ((s.linkIf lk).setPc v) [] [] [8]) ∧
      (lk = false → RegistersKept s ((s.linkIf lk).setPc v) [] [] []) ∧
      StatusKept s ((s.linkIf lk).setPc v) ∧ StorageKept s ((s.linkIf lk).setPc v) ∧
      OutputKept s ((s.linkIf lk).setPc v) := by
  refine ⟨fun linked => ⟨?_, registersKept_linkIf.setPc⟩, fun unlinked => ?_, ?_⟩
  · subst linked
    exact State.readSpr_writeSpr.trans (if_pos rfl)
  · subst unlinked
    exact (WriteFrame.refl s).registersKept.setPc
  · cases lk <;> exact ⟨⟨rfl, rfl, rfl, rfl⟩, ⟨fun _ => rfl, fun _ => rfl, rfl⟩, ⟨rfl, rfl, rfl⟩⟩

/-- Settles O42: a branch goes to its target, and its frame is that of the link. -/
theorem branchRule : Obligations.BranchRule := by
  refine ⟨fun w h => ?_, fun disp aa lk s => ⟨_, rfl, ?_, ?_, linkIf_setPc_frame⟩⟩
  · exact decode_of_decodesAs ⟨opcd_of_row (n := 18) h (by decide), (liDisp_eq_ofInt w).symm, rfl, rfl⟩
  · rintro rfl
    exact branchTarget_relative s.pc disp
  · rintro rfl
    exact branchTarget_absolute_toNat s.pc disp

/-- Settles O43: `branchTaken` decides between the target and the next instruction; the frame is that of the link in
either case. -/
theorem conditionalBranchRule : Obligations.ConditionalBranchRule := by
  refine ⟨fun w h => ?_, fun bo bi disp aa lk s => ⟨_, rfl, ?_, ?_, ?_, linkIf_setPc_frame⟩⟩
  · exact decode_of_decodesAs ⟨opcd_of_row (n := 16) h (by decide), ofNat_bitsOf w 21 5,
      regOf_eq_field5 w 16, (bdDisp_eq_ofInt w).symm, rfl, rfl⟩
  · rintro taken rfl
    exact (if_pos (branchTaken_iff.2 taken)).trans (branchTarget_relative s.pc disp)
  · rintro taken rfl
    exact (congrArg BitVec.toNat (if_pos (branchTaken_iff.2 taken))).trans (branchTarget_absolute_toNat s.pc disp)
  · intro untaken
    exact if_neg (mt branchTaken_iff.1 untaken)

end Sys2Proof.Machine
end

section
/-! The load and the store: their words, the effective address, and what they read, write and leave unchanged
(spec/42_load_store.md R125 to R127). -/

namespace Sys2Proof.Machine

theorem effectiveAddr_eq_ofInt (s : State) (rA : Idx5) (d : BitVec 16) :
    s.effectiveAddr rA d = BitVec.ofInt 32 ((if rA = 0 then (0 : Word) else s.readGpr rA).toInt + d.toInt) :=
  add_signedImm (s.baseOrZero rA) d

/-- Settles O44: the three cases of a read, its word put in rD; the frame is that of the read in each of them. -/
theorem loadWordRule : Obligations.LoadWordRule := by
  refine ⟨fun w h => ?_, fun rD rA d s => ?_⟩
  · exact decode_of_decodesAs ⟨opcd_of_row (n := 32) h (by decide), operands_D w⟩
  · rw [← effectiveAddr_eq_ofInt]
    intro ea p
    have f : ReadFrame s (readWord ea s).2 := readWord_frame ea s
    refine ⟨_, rfl, congrArg (· + 4) f.pc, f.toWrite.registersKept.trans registersKept_writeGpr.setPc,
      { f.toWrite.statusKept with }, { f.storageKept with }, f.audioPolls, ?_⟩
    rw [readGpr_writeGpr_advance]
    refine ⟨fun ha => ?_, fun ha hb => ?_, fun ha hb => ?_⟩
    · rw [readWord_inputAddr ha]
      exact ⟨rfl, rfl, rfl⟩
    · rw [readWord_at ⟨ha, rfl, hb⟩]
      exact ⟨s.mem.wordAt_toNat p, rfl, rfl, rfl⟩
    · rw [readWord_outOfBounds ha hb]
      exact ⟨rfl, rfl, rfl⟩

section Store

variable {s : State} {a v : Word}

/-- A write, in bounds or out of bounds, leaves every byte outside the four of its place alone. -/
theorem writeWord_byteAt_outside {q : Nat}
    (hq : q < translateAddr s.config a ∨ translateAddr s.config a + 4 ≤ q) :
    (writeWord a v s).byteAt q = s.byteAt q := by
  rcases @writeWord_cases s a v with ⟨-, e⟩ | ⟨-, i, -, e⟩ | ⟨-, -, e⟩ <;> rw [e]
  · rfl
  · exact Memory.read_putWord_outside hq
  · exact Memory.read_putWord_outside hq

/-- A write draws no value from outside. -/
theorem writeWord_draws :
    (writeWord a v s).inputReads = s.inputReads ∧ (writeWord a v s).audioPolls = s.audioPolls := by
  rcases @writeWord_cases s a v with ⟨-, e⟩ | ⟨-, i, -, e⟩ | ⟨-, -, e⟩ <;> rw [e] <;> exact ⟨rfl, rfl⟩

end Store

/-- Settles O45: the write of rS at the effective address, and pc + 4. -/
theorem storeWordRule : Obligations.StoreWordRule := by
  refine ⟨fun w h => ?_, fun rS rA d s hm hp => ?_⟩
  · exact decode_of_decodesAs ⟨opcd_of_row (n := 36) h (by decide), operands_D w⟩
  · rw [← effectiveAddr_eq_ofInt]
    intro ea p v i mirrored
    have f : WriteFrame s (writeWord ea v s) := writeWord_frame ea v s
    obtain ⟨hinputs, haudio⟩ := @writeWord_draws s ea v
    obtain ⟨dropped, stored⟩ := writeWordRule ea v s hm hp
    refine ⟨_, rfl, congrArg (· + 4) f.pc, f.registersKept.setPc, { f.statusKept with }, f.config, hinputs, haudio,
      fun _ => writeWord_byteAt_outside, fun hb => ?_, fun hb => ?_⟩
    · obtain ⟨b0, b1, b2, b3, -, pixel, otherPixels, -, -, -, output, -⟩ := stored hb
      exact ⟨b0, b1, b2, b3, pixel, otherPixels, output.events⟩
    · rw [dropped hb]
      exact ⟨⟨fun _ => rfl, fun _ => rfl, rfl⟩, rfl⟩

end Sys2Proof.Machine
end

section
/-! The classes of binary32 patterns, and what the three operations are on finite lanes (spec/43_paired_single.md R130
to R133). -/

namespace Sys2Proof.Machine

section Classes

variable {x : Word}

theorem fpIsNaN_iff : fpIsNaN x = true ↔ fpExp x = 255 ∧ fpFrac x ≠ 0 := by simp [fpIsNaN]

theorem fpIsInf_iff : fpIsInf x = true ↔ fpExp x = 255 ∧ fpFrac x = 0 := by simp [fpIsInf]

theorem fpIsFinite_iff : fpIsFinite x = true ↔ fpExp x ≠ 255 := by simp [fpIsFinite]

theorem fpIsNaN_of_finite (h : fpIsFinite x = true) : fpIsNaN x = false :=
  Bool.eq_false_iff.2 fun nan => fpIsFinite_iff.1 h (fpIsNaN_iff.1 nan).1

theorem fpIsInf_of_finite (h : fpIsFinite x = true) : fpIsInf x = false :=
  Bool.eq_false_iff.2 fun inf => fpIsFinite_iff.1 h (fpIsInf_iff.1 inf).1

theorem fpIsNaN_of_inf (h : fpIsInf x = true) : fpIsNaN x = false :=
  Bool.eq_false_iff.2 fun nan => (fpIsNaN_iff.1 nan).2 (fpIsInf_iff.1 h).2

theorem fpIsZero_of_inf (h : fpIsInf x = true) : fpIsZero x = false := by
  simp [fpIsZero, (fpIsInf_iff.1 h).1]

@[simp] theorem fpIsNaN_negate : fpIsNaN (fpNegate x) = fpIsNaN x := by
  obtain ⟨hexp, hfrac, -⟩ := fpNegate_fields x
  rw [fpIsNaN, fpIsNaN, hexp, hfrac]

@[simp] theorem fpIsInf_negate : fpIsInf (fpNegate x) = fpIsInf x := by
  obtain ⟨hexp, hfrac, -⟩ := fpNegate_fields x
  rw [fpIsInf, fpIsInf, hexp, hfrac]

@[simp] theorem fpIsFinite_negate : fpIsFinite (fpNegate x) = fpIsFinite x := by
  rw [fpIsFinite, fpIsFinite, (fpNegate_fields x).1]

@[simp] theorem fpSign_negate : fpSign (fpNegate x) = !fpSign x := (fpNegate_fields x).2.2

end Classes

/-! ### The class of a packed pattern, by its low 31 bits -/

section Pack

variable {sign : Bool} {bits : Nat}

/-- Below infinity every pattern is finite. -/
theorem fpIsFinite_pack (h : bits < fpInfBits) : fpIsFinite (fpPack sign bits) = true := by
  rw [fpInfBits] at h
  rw [fpIsFinite_iff, fpExp_pack sign bits (by omega)]
  omega

theorem fpIsInf_pack : fpIsInf (fpPack sign fpInfBits) = true := by
  cases sign <;> decide

/-- Up to infinity no pattern is a NaN. -/
theorem fpIsNaN_pack (h : bits ≤ fpInfBits) : fpIsNaN (fpPack sign bits) = false := by
  rcases h.lt_or_eq with below | rfl
  · exact fpIsNaN_of_finite (fpIsFinite_pack below)
  · exact fpIsNaN_of_inf fpIsInf_pack

theorem fpIsNaN_round {n q : Nat} : fpIsNaN (fpRound sign n q) = false := fpIsNaN_pack (min_le_left _ _)

theorem fpIsNaN_addFinite {a b : Word} : fpIsNaN (fpAddFinite a b) = false := by
  unfold fpAddFinite
  split
  · exact fpIsNaN_pack (Nat.zero_le _)
  · exact fpIsNaN_round

end Pack

/-! ### The operations on operands of known classes -/

section Sum

variable {a b nan : Word}

/-- An infinity passes through unless the other operand is the opposite one. -/
theorem fpAddNumbers_inf_left (ha : fpIsInf a = true) (hb : fpIsInf b = true → fpSign a = fpSign b) :
    fpAddNumbers nan a b = a := by
  rw [fpAddNumbers, if_pos ha, if_neg]
  simpa using hb

theorem fpAddNumbers_inf_right (ha : fpIsFinite a = true) (hb : fpIsInf b = true) :
    fpAddNumbers nan a b = b := by
  simp [fpAddNumbers, fpIsInf_of_finite ha, hb]

theorem fpAddNumbers_finite (ha : fpIsFinite a = true) (hb : fpIsFinite b = true) :
    fpAddNumbers nan a b = fpAddFinite a b := by
  simp [fpAddNumbers, fpIsInf_of_finite ha, fpIsInf_of_finite hb]

theorem fadd32_numbers (ha : fpIsNaN a = false) (hb : fpIsNaN b = false) :
    fadd32 a b = fpAddNumbers (nanResult .add a b) a b := by
  simp [fadd32, ha, hb]

theorem fsub32_numbers (ha : fpIsNaN a = false) (hb : fpIsNaN b = false) :
    fsub32 a b = fpAddNumbers (nanResult .sub a b) a (fpNegate b) := by
  simp [fsub32, ha, hb]

end Sum

section Finite

variable {a b : Word} (ha : fpIsFinite a = true) (hb : fpIsFinite b = true)

include ha hb

theorem fadd32_finite : fadd32 a b = fpAddFinite a b :=
  (fadd32_numbers (fpIsNaN_of_finite ha) (fpIsNaN_of_finite hb)).trans (fpAddNumbers_finite ha hb)

theorem fsub32_finite : fsub32 a b = fpAddFinite a (fpNegate b) :=
  (fsub32_numbers (fpIsNaN_of_finite ha) (fpIsNaN_of_finite hb)).trans
    (fpAddNumbers_finite ha (fpIsFinite_negate.trans hb))

theorem fmul32_finite : fmul32 a b = fpRound (fpSign a ^^ fpSign b) (fpMag a * fpMag b) 149 := by
  simp [fmul32, fpIsNaN_of_finite, fpIsInf_of_finite, ha, hb]

end Finite

end Sys2Proof.Machine
end

section
/-! Rounding to nearest even: the rounded pattern against every finite pattern, first as magnitudes, then with signs
(spec/43_paired_single.md R131). -/

namespace Sys2Proof.Machine

/-! ### Magnitudes -/

section Round

variable {sign : Bool} {n q : Nat}

theorem le_dropBits : q ≤ dropBits n q := le_max_right _ _

/-- What is below the threshold of overflow does not reach the cap of `roundBits`. -/
theorem roundBits_below_infinity (hn : 0 < n) (h : n < (2 ^ 25 - 1) * 2 ^ (252 + q)) :
    roundBits n q < fpInfBits ∧
      roundBits n q = (dropBits n q - q) * 2 ^ 23 + roundHalfEven n (dropBits n q) := by
  have below := round_below_infinity hn h
  have uncapped : roundBits n q = _ := min_eq_right below.le
  exact ⟨uncapped ▸ below, uncapped⟩

/-- The magnitude of a rounded number, in the units of the exact one, is the rounded significand at its place. -/
theorem fpMag_round (hn : 0 < n) (h : n < (2 ^ 25 - 1) * 2 ^ (252 + q)) :
    fpMag (fpRound sign n q) * 2 ^ q = roundHalfEven n (dropBits n q) * 2 ^ dropBits n q := by
  obtain ⟨below, uncapped⟩ := roundBits_below_infinity hn h
  have inField : roundBits n q < 2 ^ 31 := below.trans (by decide)
  have normal : dropBits n q - q = 0 ∨ 2 ^ 23 ≤ roundHalfEven n (dropBits n q) := by
    rcases dropBits_cases n q hn with ⟨hdrop, -⟩ | ⟨-, hlow, hhigh⟩
    · exact .inl (by omega)
    · exact .inr (roundHalfEven_range hlow hhigh).1
  rw [fpRound, uncapped, fpMag_pack sign (roundHalfEven_le (lt_dropBits n q hn)) normal (uncapped ▸ inField),
    Nat.mul_assoc, ← Nat.pow_add, Nat.sub_add_cancel le_dropBits]

/-- No magnitude of a finite pattern is nearer than the rounded significand at its place; in a tie with another one
that significand is even. A magnitude that is no multiple of the unit of rounding lies below the binade of `n`, whose
first number is such a multiple and nearer. -/
theorem roundHalfEven_dropBits_nearest (hn : 0 < n) (x : Word) :
    ((n : Int) - (roundHalfEven n (dropBits n q) * 2 ^ dropBits n q : Nat)).natAbs ≤
      ((n : Int) - (fpMag x * 2 ^ q : Nat)).natAbs ∧
    (((n : Int) - (fpMag x * 2 ^ q : Nat)).natAbs =
        ((n : Int) - (roundHalfEven n (dropBits n q) * 2 ^ dropBits n q : Nat)).natAbs →
      fpMag x * 2 ^ q ≠ roundHalfEven n (dropBits n q) * 2 ^ dropBits n q →
      roundHalfEven n (dropBits n q) % 2 = 0) := by
  obtain ⟨sig, e, hsig, hmag⟩ := fpMag_form x
  rw [hmag, Nat.mul_assoc, ← Nat.pow_add]
  rcases le_or_gt (dropBits n q) (e + q) with multiple | finer
  · have place : sig * 2 ^ (e + q) = sig * 2 ^ (e + q - dropBits n q) * 2 ^ dropBits n q := by
      rw [Nat.mul_assoc, ← Nat.pow_add, Nat.sub_add_cancel multiple]
    obtain ⟨nearest, even⟩ := roundHalfEven_nearest n (dropBits n q) (sig * 2 ^ (e + q - dropBits n q))
    rw [place]
    exact ⟨nearest, fun tie other => even tie fun same => other (by rw [same])⟩
  · have binade : 2 ^ 23 * 2 ^ dropBits n q ≤ n := by
      rcases dropBits_cases n q hn with ⟨hdrop, -⟩ | ⟨-, hlow, -⟩
      · omega
      · rwa [← Nat.pow_add, Nat.add_comm]
    have below : sig * 2 ^ (e + q) < 2 ^ 23 * 2 ^ dropBits n q := by
      calc sig * 2 ^ (e + q) < 2 ^ 24 * 2 ^ (e + q) := Nat.mul_lt_mul_of_pos_right hsig (by positivity)
        _ = 2 ^ 23 * 2 ^ (e + q + 1) := by ring
        _ ≤ 2 ^ 23 * 2 ^ dropBits n q := Nat.mul_le_mul_left _ (Nat.pow_le_pow_right (by omega) finer)
    have nearest := (roundHalfEven_nearest n (dropBits n q) (2 ^ 23)).1
    exact ⟨by omega, fun tie => by omega⟩

/-- No magnitude of a finite pattern is nearer than that of the rounded pattern, and in a tie with another one the
last bit of the rounded pattern is 0. -/
theorem fpMag_round_nearest (hn : 0 < n) (h : n < (2 ^ 25 - 1) * 2 ^ (252 + q)) (x : Word) :
    ((n : Int) - (fpMag (fpRound sign n q) * 2 ^ q : Nat)).natAbs ≤
      ((n : Int) - (fpMag x * 2 ^ q : Nat)).natAbs ∧
    (((n : Int) - (fpMag x * 2 ^ q : Nat)).natAbs =
        ((n : Int) - (fpMag (fpRound sign n q) * 2 ^ q : Nat)).natAbs →
      fpMag x * 2 ^ q ≠ fpMag (fpRound sign n q) * 2 ^ q → (fpRound sign n q).getLsbD 0 = false) := by
  rw [fpMag_round hn h, fpRound, fpPack_lowBit, (roundBits_below_infinity hn h).2, decide_eq_false_iff_not]
  obtain ⟨nearest, even⟩ := roundHalfEven_dropBits_nearest (q := q) hn x
  refine ⟨nearest, fun tie other => ?_⟩
  have := even tie other
  omega

end Round

/-! ### Signs -/

theorem fpValue_nonneg {x : Word} (h : fpSign x = false) : 0 ≤ fpValue x := by simp [fpValue, h]

theorem fpValue_nonpos {x : Word} (h : fpSign x = true) : fpValue x ≤ 0 := by simp [fpValue, h]

/-- A value, scaled, has the scaled magnitude. -/
theorem fpValue_mul_natAbs (x : Word) (q : Nat) : (fpValue x * 2 ^ q).natAbs = fpMag x * 2 ^ q := by
  rw [Int.natAbs_mul, fpValue_natAbs, Int.natAbs_pow]
  rfl

/-- A number that is nearest as a magnitude and has the sign of the exact one is nearest with signs too, and whatever
ties with it ties as a magnitude. -/
theorem nearest_of_magnitude_nearest {exact r v : Int} (h : exact ≠ 0) (hpos : 0 < exact → 0 ≤ r)
    (hneg : exact < 0 → r ≤ 0)
    (nearest : ((exact.natAbs : Int) - r.natAbs).natAbs ≤ ((exact.natAbs : Int) - v.natAbs).natAbs) :
    (exact - r).natAbs ≤ (exact - v).natAbs ∧
    ((exact - v).natAbs = (exact - r).natAbs → v ≠ r →
      ((exact.natAbs : Int) - v.natAbs).natAbs = ((exact.natAbs : Int) - r.natAbs).natAbs ∧
      v.natAbs ≠ r.natAbs) := by
  omega

/-- A number other than 0, rounded with its own sign, is rounded to nearest even. -/
theorem fpRound_roundedNearestEven {exact : Int} {q : Nat} (h : exact ≠ 0) :
    RoundedNearestEven q exact (fpRound (decide (exact < 0)) exact.natAbs q) := by
  have hn : 0 < exact.natAbs := Int.natAbs_pos.2 h
  have sign : fpSign (fpRound (decide (exact < 0)) exact.natAbs q) = decide (exact < 0) := fpSign_pack _ _
  unfold RoundedNearestEven
  split
  case isTrue finite =>
    have magnitude := fpMag_round_nearest (sign := decide (exact < 0)) hn finite
    refine ⟨fpIsFinite_pack (roundBits_below_infinity hn finite).1, ?_⟩
    generalize fpRound (decide (exact < 0)) exact.natAbs q = r at *
    simp only [← fpValue_mul_natAbs] at magnitude
    have hpos (positive : 0 < exact) : 0 ≤ fpValue r * 2 ^ q :=
      mul_nonneg (fpValue_nonneg (sign.trans (decide_eq_false positive.not_gt))) (by positivity)
    have hneg (negative : exact < 0) : fpValue r * 2 ^ q ≤ 0 :=
      mul_nonpos_of_nonpos_of_nonneg (fpValue_nonpos (sign.trans (decide_eq_true negative))) (by positivity)
    have signed (x : Word) := nearest_of_magnitude_nearest h hpos hneg (magnitude x).1
    refine ⟨fun x _ => (signed x).1, fun x _ tie other => ?_⟩
    obtain ⟨tied, apart⟩ := (signed x).2 tie fun same => other (mul_right_cancel₀ (by positivity) same)
    exact (magnitude x).2 tied apart
  case isFalse infinite =>
    have reached : roundBits exact.natAbs q = fpInfBits := min_eq_left (round_reaches_infinity (not_lt.1 infinite))
    rw [fpRound, reached]
    exact ⟨fpIsInf_pack, fpSign_pack _ _⟩

/-- A zero of either sign is 0 rounded. -/
theorem zero_roundedNearestEven {q : Nat} {sign : Bool} : RoundedNearestEven q 0 (fpPack sign 0) := by
  have value : fpValue (fpPack sign 0) = 0 := by cases sign <;> decide
  have here : distance q 0 (fpPack sign 0) = 0 := by simp [distance, value]
  rw [RoundedNearestEven, if_pos (by positivity), here]
  refine ⟨fpIsFinite_pack (by decide), fun _ _ => Nat.zero_le _, fun x _ tie other => ?_⟩
  have same : fpValue x = 0 := by simpa [distance] using tie
  exact absurd (same.trans value.symm) other

/-! ### The operations -/

theorem fpAddFinite_roundedNearestEven (a b : Word) :
    RoundedNearestEven 0 (fpValue a + fpValue b) (fpAddFinite a b) := by
  unfold fpAddFinite
  split
  case isTrue zero =>
    rw [zero]
    exact zero_roundedNearestEven
  case isFalse nonzero => exact fpRound_roundedNearestEven nonzero

theorem fpRound_zero {sign : Bool} {q : Nat} : fpRound sign 0 q = fpPack sign 0 := by
  simp [fpRound, roundBits, dropBits, roundHalfEven]

/-- The sign of a product that is not 0 is the exclusive or of the signs. -/
theorem fpSign_xor {a b : Word} (h : fpValue a * fpValue b ≠ 0) :
    (fpSign a ^^ fpSign b) = decide (fpValue a * fpValue b < 0) := by
  cases ha : fpSign a <;> cases hb : fpSign b
  · exact (decide_eq_false (mul_nonneg (fpValue_nonneg ha) (fpValue_nonneg hb)).not_gt).symm
  · exact (decide_eq_true
      ((mul_nonpos_of_nonneg_of_nonpos (fpValue_nonneg ha) (fpValue_nonpos hb)).lt_of_ne h)).symm
  · exact (decide_eq_true
      ((mul_nonpos_of_nonpos_of_nonneg (fpValue_nonpos ha) (fpValue_nonneg hb)).lt_of_ne h)).symm
  · exact (decide_eq_false (mul_nonneg_of_nonpos_of_nonpos (fpValue_nonpos ha) (fpValue_nonpos hb)).not_gt).symm

/-- The product of the magnitudes with the exclusive or of the signs is the product of the values, rounded. -/
theorem fpRound_mul_roundedNearestEven (a b : Word) (q : Nat) :
    RoundedNearestEven q (fpValue a * fpValue b) (fpRound (fpSign a ^^ fpSign b) (fpMag a * fpMag b) q) := by
  rw [← fpValue_natAbs, ← fpValue_natAbs, ← Int.natAbs_mul]
  by_cases zero : fpValue a * fpValue b = 0
  · rw [zero, Int.natAbs_zero, fpRound_zero]
    exact zero_roundedNearestEven
  · rw [fpSign_xor zero]
    exact fpRound_roundedNearestEven zero

/-- Settles O47: each operation is one rounding; a difference is a sum with the negated operand. -/
theorem finiteResultsAreRoundedToNearestEven : Obligations.FiniteResultsAreRoundedToNearestEven := by
  intro a b ha hb
  refine ⟨?_, ?_, ?_⟩
  · rw [fadd32_finite ha hb]
    exact fpAddFinite_roundedNearestEven a b
  · rw [fsub32_finite ha hb, Int.sub_eq_add_neg, ← fpValue_negate]
    exact fpAddFinite_roundedNearestEven a (fpNegate b)
  · simp only [fmul32_finite ha hb, fpRound_mul_roundedNearestEven]

end Sys2Proof.Machine
end

section
/-! When a result is a NaN, the signs of zeros and of products, and infinite operands (spec/43_paired_single.md R132,
R133). -/

namespace Sys2Proof.Machine

/-! ### NaN patterns -/

theorem fpIsNaN_toNaN (x : Word) : fpIsNaN (toNaN x) = true := by
  have hfrac := fpFrac_eq x
  unfold toNaN
  split
  case isTrue => cases fpSign x <;> decide
  case isFalse nonzero =>
    have inField : fpInfBits + fpFrac x < 2 ^ 31 := by
      rw [fpInfBits]
      omega
    rw [fpIsNaN_iff, fpExp_pack _ _ inField, fpFrac_pack _ _ inField, fpInfBits]
    omega

/-- A NaN pattern is its own image. -/
theorem toNaN_of_isNaN {x : Word} (h : fpIsNaN x = true) : toNaN x = x := by
  obtain ⟨hexp, hfrac⟩ := fpIsNaN_iff.1 h
  have fields := fpPack_fields x
  rw [hexp] at fields
  rw [toNaN, if_neg hfrac]
  exact fields

theorem fpIsNaN_nanResult (op : FpOp) (a b : Word) : fpIsNaN (nanResult op a b) = true := fpIsNaN_toNaN _

/-! ### When each operation delivers a NaN -/

/-- The result is the given NaN under the condition, and is no NaN else. -/
def NaNExactlyIf (condition : Prop) (nan r : Word) : Prop :=
  (condition ∧ r = nan) ∨ (¬condition ∧ fpIsNaN r = false)

theorem NaNExactlyIf.iff_and_eq {condition : Prop} {nan r : Word} (h : NaNExactlyIf condition nan r)
    (hnan : fpIsNaN nan = true) : (fpIsNaN r = true ↔ condition) ∧ (fpIsNaN r = true → r = nan) := by
  rcases h with ⟨holds, rfl⟩ | ⟨fails, number⟩
  · exact ⟨iff_of_true hnan holds, fun _ => rfl⟩
  · exact ⟨iff_of_false (by simp [number]) fails, by simp [number]⟩

/-- Among numbers, opposite infinities alone have no sum. -/
theorem fpAddNumbers_nan {nan a b : Word} (ha : fpIsNaN a = false) (hb : fpIsNaN b = false) :
    NaNExactlyIf ((fpIsInf a = true ∧ fpIsInf b = true) ∧ fpSign a ≠ fpSign b) nan (fpAddNumbers nan a b) := by
  by_cases opposite : (fpIsInf a = true ∧ fpIsInf b = true) ∧ fpSign a ≠ fpSign b
  · obtain ⟨⟨infA, infB⟩, signs⟩ := opposite
    exact .inl ⟨⟨⟨infA, infB⟩, signs⟩, by simp [fpAddNumbers, infA, infB, signs]⟩
  · refine .inr ⟨opposite, ?_⟩
    cases infA : fpIsInf a with
    | true =>
      rw [fpAddNumbers_inf_left infA fun infB => by_contra fun signs => opposite ⟨⟨infA, infB⟩, signs⟩]
      exact ha
    | false =>
      rw [fpAddNumbers, infA, if_neg Bool.false_ne_true]
      split
      · exact hb
      · exact fpIsNaN_addFinite

section Cases

variable (a b : Word)

theorem fadd32_nan :
    NaNExactlyIf
      ((fpIsNaN a = true ∨ fpIsNaN b = true) ∨ (fpIsInf a = true ∧ fpIsInf b = true) ∧ fpSign a ≠ fpSign b)
      (nanResult .add a b) (fadd32 a b) := by
  by_cases nan : fpIsNaN a = true ∨ fpIsNaN b = true
  · exact .inl ⟨.inl nan, by simp [fadd32, nan]⟩
  · obtain ⟨ha, hb⟩ : fpIsNaN a = false ∧ fpIsNaN b = false := by simpa using nan
    rw [fadd32_numbers ha hb]
    simpa only [nan, false_or] using fpAddNumbers_nan ha hb

theorem fsub32_nan :
    NaNExactlyIf
      ((fpIsNaN a = true ∨ fpIsNaN b = true) ∨ (fpIsInf a = true ∧ fpIsInf b = true) ∧ fpSign a = fpSign b)
      (nanResult .sub a b) (fsub32 a b) := by
  by_cases nan : fpIsNaN a = true ∨ fpIsNaN b = true
  · exact .inl ⟨.inl nan, by simp [fsub32, nan]⟩
  · obtain ⟨ha, hb⟩ : fpIsNaN a = false ∧ fpIsNaN b = false := by simpa using nan
    rw [fsub32_numbers ha hb]
    simpa only [nan, false_or, fpIsInf_negate, fpSign_negate, Bool.ne_not] using
      fpAddNumbers_nan ha (fpIsNaN_negate.trans hb)

/-- No infinity is a zero, so an infinity and a zero among the operands are one each. -/
theorem fmul32_nan :
    NaNExactlyIf
      ((fpIsNaN a = true ∨ fpIsNaN b = true) ∨ (fpIsInf a = true ∧ fpIsZero b = true) ∨
        (fpIsZero a = true ∧ fpIsInf b = true))
      (nanResult .mul a b) (fmul32 a b) := by
  have nonzeroA (h : fpIsInf a = true) : fpIsZero a = false := fpIsZero_of_inf h
  have nonzeroB (h : fpIsInf b = true) : fpIsZero b = false := fpIsZero_of_inf h
  by_cases nan : fpIsNaN a = true ∨ fpIsNaN b = true
  · exact .inl ⟨.inl nan, by simp [fmul32, nan]⟩
  · by_cases inf : fpIsInf a = true ∨ fpIsInf b = true
    · by_cases zero : fpIsZero a = true ∨ fpIsZero b = true
      · exact .inl ⟨.inr (by grind), by simp [fmul32, nan, inf, zero]⟩
      · exact .inr ⟨by grind, by simp [fmul32, nan, inf, zero, fpIsNaN_pack]⟩
    · exact .inr ⟨by grind, by simp [fmul32, nan, inf, fpIsNaN_round]⟩

end Cases

/-- Settles O48: the NaN cases of the three operations. -/
theorem nanResults : Obligations.NanResults := by
  refine ⟨fun op a b => fpIsNaN_iff.1 (fpIsNaN_nanResult op a b), fun _ => toNaN_of_isNaN, fun a b => ?_⟩
  obtain ⟨addIff, addIs⟩ := (fadd32_nan a b).iff_and_eq (fpIsNaN_nanResult .add a b)
  obtain ⟨subIff, subIs⟩ := (fsub32_nan a b).iff_and_eq (fpIsNaN_nanResult .sub a b)
  obtain ⟨mulIff, mulIs⟩ := (fmul32_nan a b).iff_and_eq (fpIsNaN_nanResult .mul a b)
  exact ⟨addIff, subIff, mulIff, addIs, subIs, mulIs⟩

/-! ### Zeros and infinities -/

section Finite

variable {a b : Word} (ha : fpIsFinite a = true) (hb : fpIsFinite b = true)

include ha hb

theorem fadd32_exact_zero (h : fpValue a + fpValue b = 0) :
    fadd32 a b = if a = 0x80000000 ∧ b = 0x80000000 then 0x80000000 else 0x00000000 :=
  (fadd32_finite ha hb).trans (fpAddFinite_zero h)

theorem fsub32_exact_zero (h : fpValue a - fpValue b = 0) :
    fsub32 a b = if a = 0x80000000 ∧ b = 0x00000000 then 0x80000000 else 0x00000000 := by
  have negated : fpNegate b = 0x80000000#32 ↔ b = 0x00000000#32 := by
    rw [show (0x80000000#32 : Word) = 0x00000000#32 ^^^ 0x80000000#32 from rfl, fpNegate, BitVec.xor_left_inj]
  rw [fsub32_finite ha hb, fpAddFinite_zero (by rw [fpValue_negate]; exact h)]
  simp only [negated]
  rfl

end Finite

/-- A product that is no NaN has the exclusive or of the signs, infinite or rounded. -/
theorem fpSign_fmul32 {a b : Word} (h : fpIsNaN (fmul32 a b) = false) :
    fpSign (fmul32 a b) = (fpSign a ^^ fpSign b) := by
  have noNaN (e : fmul32 a b = nanResult .mul a b) : False := by simp [e, fpIsNaN_nanResult] at h
  unfold fmul32 at noNaN ⊢
  split_ifs at noNaN ⊢
  · exact (noNaN rfl).elim
  · exact (noNaN rfl).elim
  · exact fpSign_pack _ _
  · exact fpSign_pack _ _

section Infinity

variable {a b : Word} (ha : fpIsInf a = true)

include ha

/-- An infinity and a finite operand, in either order. -/
theorem infinity_passes_finite (hb : fpIsFinite b = true) :
    fadd32 a b = a ∧ fadd32 b a = a ∧ fsub32 a b = a ∧ fsub32 b a = fpNegate a := by
  have numberA := fpIsNaN_of_inf ha
  have numberB := fpIsNaN_of_finite hb
  have finiteB := fpIsInf_of_finite hb
  rw [fadd32_numbers numberA numberB, fadd32_numbers numberB numberA, fsub32_numbers numberA numberB,
    fsub32_numbers numberB numberA]
  exact ⟨fpAddNumbers_inf_left ha (by simp [finiteB]), fpAddNumbers_inf_right hb ha,
    fpAddNumbers_inf_left ha (by simp [finiteB]), fpAddNumbers_inf_right hb (fpIsInf_negate.trans ha)⟩

/-- Two infinities that do not cancel. -/
theorem infinity_passes_infinity (hb : fpIsInf b = true) :
    (fpSign a = fpSign b → fadd32 a b = a) ∧ (fpSign a ≠ fpSign b → fsub32 a b = a) := by
  rw [fadd32_numbers (fpIsNaN_of_inf ha) (fpIsNaN_of_inf hb), fsub32_numbers (fpIsNaN_of_inf ha) (fpIsNaN_of_inf hb)]
  exact ⟨fun same => fpAddNumbers_inf_left ha fun _ => same,
    fun apart => fpAddNumbers_inf_left ha fun _ => by simpa [← Bool.eq_not] using apart⟩

/-- A product of an infinity with anything but a zero or a NaN, in either order. -/
theorem fpIsInf_fmul32 (hb : fpIsNaN b = false) (nonzero : fpIsZero b = false) :
    fpIsInf (fmul32 a b) = true ∧ fpIsInf (fmul32 b a) = true := by
  simp [fmul32, ha, fpIsNaN_of_inf ha, fpIsZero_of_inf ha, hb, nonzero, fpIsInf_pack]

end Infinity

/-- Settles O49: the operations on exact zeros, their signs, and infinite operands. -/
theorem signsOfZerosAndProducts : Obligations.SignsOfZerosAndProducts := by
  refine ⟨fun x h => ⟨?_, ?_⟩, fun a b ha hb => ⟨fadd32_exact_zero ha hb, fsub32_exact_zero ha hb⟩,
    by decide, by decide, by decide, by decide, by decide, by decide, fun a b => fpSign_fmul32,
    fun a b => infinity_passes_finite, fun a b => infinity_passes_infinity, fun a b => fpIsInf_fmul32⟩
  · refine (fsub32_exact_zero h h (sub_self _)).trans (if_neg ?_)
    rintro ⟨rfl, zero⟩
    cases zero
  · have zero : fpValue x + fpValue (fpNegate x) = 0 := by rw [fpValue_negate, add_neg_cancel]
    refine (fadd32_exact_zero h (fpIsFinite_negate.trans h) zero).trans (if_neg ?_)
    rintro ⟨rfl, negated⟩
    cases negated

end Sys2Proof.Machine
end

section
/-! The paired-single instructions: their words, their results and what they leave unchanged (spec/43_paired_single.md
R134 to R137). -/

namespace Sys2Proof.Machine

/-- A lanewise result written and pc + 4: the lanes are independent, and nothing else changes (R134). -/
theorem writeFpr_lanewise_advance (x : Idx5) (f : Word → Word → Word) (a b : Lanes) (s : State) :
    let t := (s.writeFpr x (lanewise f a b)).advance
    (t.readFpr x).ps0 = f a.ps0 b.ps0 ∧ (t.readFpr x).ps1 = f a.ps1 b.ps1 ∧ t.pc = s.pc + 4 ∧
      RegistersKept s t [] [x] [] ∧ StatusKept s t ∧ StorageKept s t ∧ OutputKept s t := by
  have written : (s.writeFpr x (lanewise f a b)).advance.readFpr x = lanewise f a b :=
    State.readFpr_writeFpr.trans (if_pos rfl)
  exact ⟨congrArg Lanes.ps0 written, congrArg Lanes.ps1 written, rfl, registersKept_writeFpr.setPc,
    ⟨rfl, rfl, rfl, rfl⟩, ⟨fun _ => rfl, fun _ => rfl, rfl⟩, ⟨rfl, rfl, rfl⟩⟩

/-- Settles O46: the three rows, and the one write of both lanes. -/
theorem pairedSingleRules : Obligations.PairedSingleRules := by
  refine ⟨fun w => ⟨fun h => ?_, fun h => ?_, fun h => ?_⟩, fun x y z s => ⟨?_, ?_, ?_⟩⟩
  · exact decode_of_decodesAs ⟨xo5_of_row (n := 4) (k := 21) h (by decide) (by decide), operands_XO w⟩
  · exact decode_of_decodesAs ⟨xo5_of_row (n := 4) (k := 20) h (by decide) (by decide), operands_XO w⟩
  · exact decode_of_decodesAs ⟨xo5_of_row (n := 4) (k := 25) h (by decide) (by decide), regOf_eq_field5 w 21,
      regOf_eq_field5 w 16, regOf_eq_field5 w 6⟩
  · exact ⟨_, rfl, writeFpr_lanewise_advance x fadd32 _ _ s⟩
  · exact ⟨_, rfl, writeFpr_lanewise_advance x fsub32 _ _ s⟩
  · exact ⟨_, rfl, writeFpr_lanewise_advance x fmul32 _ _ s⟩

end Sys2Proof.Machine
end

section
/-! Two states that agree but for some of the mode, the counter, the pixels and the log: every operation takes such
states to such states and returns the same values (10_state.md R32, R33, R35, R37; 44_system.md R145). -/

namespace Sys2Proof.Machine

/-- Two results of an operation that returns a value: the same value, and states that agree. -/
def SameResult {α : Type} (free : List Unread) (x y : α × State) : Prop := y.1 = x.1 ∧ AgreeExcept free x.2 y.2

namespace AgreeExcept

variable {free : List Unread} {s u : State} {v v' : Word}

/-! ### Reads of registers -/

theorem readGpr (h : AgreeExcept free s u) (r : Idx5) : u.readGpr r = s.readGpr r := State.readGpr_congr h.gpr

theorem readFpr (h : AgreeExcept free s u) (r : Idx5) : u.readFpr r = s.readFpr r := State.readFpr_congr h.fpr

theorem cr (h : AgreeExcept free s u) : u.cr = s.cr := State.readSpr_congr h.spr

theorem lr (h : AgreeExcept free s u) : u.lr = s.lr := State.readSpr_congr h.spr

theorem baseOrZero (h : AgreeExcept free s u) (r : Idx5) : u.baseOrZero r = s.baseOrZero r := by
  rw [State.baseOrZero, State.baseOrZero, h.readGpr]

theorem effectiveAddr (h : AgreeExcept free s u) (r : Idx5) (d : BitVec 16) :
    u.effectiveAddr r d = s.effectiveAddr r d := congrArg (· + signedImm d) (h.baseOrZero r)

/-! ### Updates of the state -/

theorem setPc (h : AgreeExcept free s u) (hv : v' = v) : AgreeExcept free (s.setPc v) (u.setPc v') :=
  { h with pc := hv }

theorem advance (h : AgreeExcept free s u) : AgreeExcept free s.advance u.advance := h.setPc (congrArg (· + 4) h.pc)

theorem writeGpr {r : Idx5} (h : AgreeExcept free s u) (hv : v' = v) :
    AgreeExcept free (s.writeGpr r v) (u.writeGpr r v') :=
  { h with gpr := congrArg₂ (Vector.set · r ·) h.gpr hv }

theorem writeFpr {r : Idx5} {w w' : Lanes} (h : AgreeExcept free s u) (hw : w' = w) :
    AgreeExcept free (s.writeFpr r w) (u.writeFpr r w') :=
  { h with fpr := congrArg₂ (Vector.set · r ·) h.fpr hw }

theorem writeSpr {n : SprIdx} (h : AgreeExcept free s u) (hv : v' = v) :
    AgreeExcept free (s.writeSpr n v) (u.writeSpr n v') :=
  { h with spr := congrArg₂ (Vector.set · n ·) h.spr hv }

theorem setRunning {b : Bool} (h : AgreeExcept free s u) : AgreeExcept free (s.setRunning b) (u.setRunning b) :=
  { h with running := rfl }

theorem setInterrupts {b : Bool} (h : AgreeExcept free s u) :
    AgreeExcept free (s.setInterrupts b) (u.setInterrupts b) :=
  { h with interruptsEnabled := rfl }

theorem setKernel {b : Bool} (h : AgreeExcept free s u) : AgreeExcept free (s.setKernel b) (u.setKernel b) :=
  { h with kernelMode := fun _ => rfl }

theorem count (h : AgreeExcept free s u) : AgreeExcept free s.count u.count :=
  { h with cycleCount := fun kept => congrArg (· + 1) (h.cycleCount kept) }

theorem setMem {m : Memory} (h : AgreeExcept free s u) : AgreeExcept free (s.setMem m) (u.setMem m) :=
  { h with mem := rfl }

theorem writePixel {i : Nat} (h : AgreeExcept free s u) :
    AgreeExcept free (s.setPixels (s.pixels.write i v)) (u.setPixels (u.pixels.write i v)) :=
  { h with pixels := fun kept => congrArg (Pixels.write · i v) (h.pixels kept) }

theorem emit {e : Event} (h : AgreeExcept free s u) : AgreeExcept free (s.emit e) (u.emit e) :=
  { h with events := fun kept => congrArg (· ++ [e]) (h.events kept) }

theorem countInput (h : AgreeExcept free s u) : AgreeExcept free s.countInput u.countInput :=
  { h with inputReads := congrArg (· + 1) h.inputReads }

theorem countAudio (h : AgreeExcept free s u) : AgreeExcept free s.countAudio u.countAudio :=
  { h with audioPolls := congrArg (· + 1) h.audioPolls }

theorem linkIf {lk : Bool} (h : AgreeExcept free s u) : AgreeExcept free (s.linkIf lk) (u.linkIf lk) := by
  cases lk with
  | true => exact h.writeSpr (congrArg (· + 4) h.pc)
  | false => exact h

/-! ### The AddressSpace -/

theorem readWord {a a' : Word} (h : AgreeExcept free s u) (ha : a' = a) :
    SameResult free (readWord a s) (readWord a' u) := by
  subst ha
  unfold Machine.readWord
  rw [h.config, h.mem, h.inputReads]
  split_ifs
  · exact ⟨rfl, h.countInput⟩
  · exact ⟨rfl, h⟩
  · exact ⟨rfl, h.emit⟩

theorem mirrorPixel {a : Word} (h : AgreeExcept free s u) :
    AgreeExcept free (mirrorPixel a v s) (mirrorPixel a v u) := by
  unfold Machine.mirrorPixel
  rw [h.config]
  cases pixelIndex s.config a with
  | some i => exact h.writePixel
  | none => exact h

theorem writeWord {a a' : Word} (h : AgreeExcept free s u) (ha : a' = a) (hv : v' = v) :
    AgreeExcept free (writeWord a v s) (writeWord a' v' u) := by
  subst ha hv
  unfold Machine.writeWord
  rw [h.config, h.mem]
  split_ifs
  · exact h.setMem.mirrorPixel
  · exact h.emit

/-! ### Interrupts and the halt -/

theorem raise {id id' : Word} (h : AgreeExcept free s u) (hid : id' = id) :
    AgreeExcept free (raise id s) (raise id' u) := by
  unfold Machine.raise
  rw [h.interruptsEnabled]
  split_ifs
  · exact ((h.writeSpr h.pc).setPc (congrArg₂ vectorFor h.config hid)).setInterrupts.setKernel
  · exact h

theorem halt {why : Illegal} {w : Word} (h : AgreeExcept free s u) :
    AgreeExcept free (halt why w s) (halt why w u) := by
  rw [Machine.halt, Machine.halt, h.pc]
  exact h.setRunning.emit

/-! ### The coprocessor -/

theorem readCoproc (h : AgreeExcept free s u) (r : CoprocReg) :
    SameResult free (readCoproc r s) (readCoproc r u) := h.readWord (congrArg (coprocAddr · r) h.config)

theorem writeCoproc (h : AgreeExcept free s u) (r : CoprocReg) (v : Word) :
    AgreeExcept free (writeCoproc r v s) (writeCoproc r v u) :=
  h.writeWord (congrArg (coprocAddr · r) h.config) rfl

theorem copyWords {src dst : Word} (h : AgreeExcept free s u) (n : Nat) :
    AgreeExcept free (copyWords n src dst s) (copyWords n src dst u) := by
  induction n generalizing src dst s u with
  | zero => exact h
  | succ n ih =>
    obtain ⟨hword, hread⟩ := h.readWord (a := src) rfl
    exact ih (hread.writeWord rfl hword)

theorem dmaCopy {pa : Word} (h : AgreeExcept free s u) : AgreeExcept free (dmaCopy pa s) (dmaCopy pa u) := by
  obtain ⟨hsrc, h1⟩ := h.readWord (a := pa) rfl
  obtain ⟨hdst, h2⟩ := h1.readWord (a := pa + 4) rfl
  obtain ⟨hsize, h3⟩ := h2.readWord (a := pa + 8) rfl
  simp only [Machine.dmaCopy, hsrc, hdst, hsize]
  exact h3.copyWords _

theorem readBytes {a : Word} (h : AgreeExcept free s u) (n : Nat) :
    SameResult free (readBytes n a s) (readBytes n a u) := by
  induction n generalizing a s u with
  | zero => exact ⟨rfl, h⟩
  | succ n ih =>
    obtain ⟨hword, hread⟩ := h.readWord (a := a) rfl
    obtain ⟨hrest, hreads⟩ := ih (a := a + 4) hread
    exact ⟨congrArg₂ (bytesOfWord · ++ ·) hword hrest, hreads⟩

theorem stageAudio {a n : Word} (h : AgreeExcept free s u) :
    AgreeExcept free (stageAudio a n s) (stageAudio a n u) := by
  obtain ⟨hbytes, hread⟩ := h.readBytes (a := a) ((n.toNat + 3) / 4)
  simp only [Machine.stageAudio, hbytes]
  exact hread.emit

theorem commandCopy (h : AgreeExcept free s u) : AgreeExcept free (commandCopy s) (commandCopy u) := by
  obtain ⟨hpa, h1⟩ := h.readCoproc .paramAddr
  simp only [Machine.commandCopy, hpa]
  exact h1.dmaCopy.writeCoproc .response 0

theorem audioReply {a n : Word} (h : AgreeExcept free s u) :
    AgreeExcept free (audioReply a n s) (audioReply a n u) := by
  unfold Machine.audioReply
  rw [h.audioPolls]
  split_ifs
  · exact h.countAudio.stageAudio.writeCoproc .response 0
  · exact h.countAudio.writeCoproc .response 1

theorem commandAudio (h : AgreeExcept free s u) : AgreeExcept free (commandAudio s) (commandAudio u) := by
  obtain ⟨hpa, h1⟩ := h.readCoproc .paramAddr
  obtain ⟨haddr, h2⟩ := h1.readWord hpa
  obtain ⟨hsize, h3⟩ := h2.readWord (congrArg (· + 4) hpa)
  simp only [Machine.commandAudio, haddr, hsize]
  exact h3.audioReply

theorem handleCommand {c : Word} (h : AgreeExcept free s u) :
    AgreeExcept free (handleCommand c s) (handleCommand c u) := by
  unfold Machine.handleCommand
  split_ifs
  · exact h.writeCoproc .response 0
  · exact h.commandCopy
  · exact h.commandAudio
  · exact h.writeCoproc .response 0xFF

theorem completeCommand (h : AgreeExcept free s u) : AgreeExcept free (completeCommand s) (completeCommand u) :=
  ((h.writeCoproc .status 1).writeCoproc .command 0).raise (congrArg Config.coprocIrq h.config)

theorem coprocessorPoll (h : AgreeExcept free s u) : AgreeExcept free (coprocessorPoll s) (coprocessorPoll u) := by
  obtain ⟨hcommand, h1⟩ := h.readCoproc .command
  simp only [Machine.coprocessorPoll, hcommand]
  split_ifs
  · exact h1
  · exact h1.handleCommand.completeCommand

/-! ### The phases of a step -/

theorem fetch (h : AgreeExcept free s u) : SameResult free (fetch s) (fetch u) := h.readWord h.pc

theorem execNext (h : AgreeExcept free s u) (i : Instr) : AgreeExcept free (execNext i s) (execNext i u) := by
  cases i with
  | addi rD rA imm => exact (h.writeGpr (congrArg (· + signedImm imm) (h.baseOrZero rA))).advance
  | addis rD rA imm => exact (h.writeGpr (congrArg (· + shiftedImm imm) (h.baseOrZero rA))).advance
  | add rD rA rB => exact (h.writeGpr (congrArg₂ (· + ·) (h.readGpr rA) (h.readGpr rB))).advance
  | subf rD rA rB => exact (h.writeGpr (congrArg₂ (· - ·) (h.readGpr rB) (h.readGpr rA))).advance
  | mullw rD rA rB => exact (h.writeGpr (congrArg₂ (· * ·) (h.readGpr rA) (h.readGpr rB))).advance
  | andi rS rA imm => exact (h.writeGpr (congrArg (· &&& unsignedImm imm) (h.readGpr rS))).advance
  | ori rS rA imm => exact (h.writeGpr (congrArg (· ||| unsignedImm imm) (h.readGpr rS))).advance
  | cmp f rA rB => exact (h.writeSpr (by rw [h.cr, h.readGpr, h.readGpr])).advance
  | b disp aa lk => exact h.linkIf.setPc (congrArg (branchTarget · disp aa) h.pc)
  | bc bo bi disp aa lk => exact h.linkIf.setPc (by rw [h.cr, h.pc])
  | lwz rD rA d =>
    obtain ⟨hword, hread⟩ := h.readWord (h.effectiveAddr rA d)
    exact (hread.writeGpr hword).advance
  | stw rS rA d => exact (h.writeWord (h.effectiveAddr rA d) (h.readGpr rS)).advance
  | psAdd frD a b => exact (h.writeFpr (congrArg₂ (lanewise fadd32) (h.readFpr a) (h.readFpr b))).advance
  | psSub frD a b => exact (h.writeFpr (congrArg₂ (lanewise fsub32) (h.readFpr a) (h.readFpr b))).advance
  | psMul frD a b => exact (h.writeFpr (congrArg₂ (lanewise fmul32) (h.readFpr a) (h.readFpr b))).advance
  | sc => exact h.advance.raise (congrArg Config.syscallIrq h.config)
  | rfi => exact h.setInterrupts.setPc h.lr
  | sync | isync | eieio => exact h.advance

theorem finishStep (h : AgreeExcept free s u) : AgreeExcept free (finishStep s) (finishStep u) :=
  h.count.coprocessorPoll

theorem exec (h : AgreeExcept free s u) (i : Instr) : SameOutcome (AgreeExcept free) (exec i s) (exec i u) := by
  rw [exec_completes, exec_completes]
  exact h.execNext i

/-- The checks before the fetch and the fetched word are the same, so both states take the same branch. -/
theorem step (h : AgreeExcept free s u) : SameOutcome (AgreeExcept free) (step s) (step u) := by
  obtain ⟨hword, hfetch⟩ := h.fetch
  have hconfig : configOk u.config = configOk s.config := congrArg configOk h.config
  rcases step_cases s with ⟨hc, e⟩ | ⟨hc, hr, e⟩ | ⟨hc, hr, why, hd, e⟩ | ⟨hc, hr, i, hd, e⟩ <;> rw [e]
  · rw [(theOnlyStops u).1 (hconfig.trans hc)]
    rfl
  · rw [step_of_not_running (hconfig.trans hc) (h.running.trans hr)]
    rfl
  · rw [step_of_decode_error (hconfig.trans hc) (h.running.trans hr) (hword.symm ▸ hd), hword]
    exact hfetch.halt
  · rw [step_of_decode_ok (hconfig.trans hc) (h.running.trans hr) (hword.symm ▸ hd)]
    exact (hfetch.execNext i).finishStep

end AgreeExcept

/-- Settles O27: the phases of a step, and each instruction by itself, take states that agree to states that agree. -/
theorem nothingReadsModeCountPixelsOrLog : Obligations.NothingReadsModeCountPixelsOrLog :=
  fun _ _ _ h => ⟨h.step, h.exec⟩

end Sys2Proof.Machine
end

section
/-! The system call and the sync class: their words, their effect and what they leave unchanged (spec/44_system.md R140,
R142 to R144; 60_exceptions.md R156, R157). -/

namespace Sys2Proof.Machine

/-- All that `nextpc = pc + 4` alone does. -/
theorem advance_frame (s : State) :
    s.advance.pc = s.pc + 4 ∧ RegistersKept s s.advance [] [] [] ∧ StatusKept s s.advance ∧
      StorageKept s s.advance ∧ OutputKept s s.advance :=
  ⟨rfl, (WriteFrame.refl s).registersKept.setPc, ⟨rfl, rfl, rfl, rfl⟩, ⟨fun _ => rfl, fun _ => rfl, rfl⟩,
    ⟨rfl, rfl, rfl⟩⟩

/-! ### The system call -/

theorem RaiseFrame.storageKept {s t : State} (f : RaiseFrame s t) : StorageKept s t where
  bytes p := congrArg (Memory.read · p) f.mem
  pixels i := congrArg (Pixels.read · i) f.pixels
  config := f.config

theorem RaiseFrame.outputKept {s t : State} (f : RaiseFrame s t) : OutputKept s t :=
  ⟨f.events, f.inputReads, f.audioPolls⟩

/-- While interrupts are disabled a raise is lost (60_exceptions.md R156). -/
theorem raise_lost {s : State} (h : s.interruptsEnabled = false) (id : Word) : raise id s = s := by
  simp [raise, h]

/-- A taken raise links the pc and enters the handler, interrupts off and kernel mode on (60_exceptions.md R157). -/
theorem raise_taken {s : State} (h : s.interruptsEnabled = true) (id : Word) :
    (raise id s).readSpr 8 = s.pc ∧ (raise id s).pc = vectorFor s.config id ∧
      (raise id s).interruptsEnabled = false ∧ (raise id s).kernelMode = true := by
  simp only [raise, h, if_true]
  exact ⟨State.readSpr_writeSpr.trans (if_pos rfl), rfl, rfl, rfl⟩

/-- Settles O30: `sc` advances pc and raises, and the raise is taken or lost by the interrupt enable. -/
theorem systemCallRule : Obligations.SystemCallRule := by
  refine ⟨fun w h => decode_of_decodesAs (i := .sc) (opcd_of_row (n := 17) h (by decide)), fun s => ⟨?_, ?_⟩⟩
  · intro enabled
    obtain ⟨hlr, hpc, hoff, hmode⟩ := raise_taken (s := s.advance) enabled s.config.syscallIrq
    have f := raise_frame s.config.syscallIrq s.advance
    exact ⟨_, rfl, hlr, hpc, hoff, hmode, registersKept_of_lr f.gpr f.fpr f.spr (List.mem_singleton_self _),
      f.running, f.cycleCount, { f.storageKept with }, { f.outputKept with }⟩
  · intro disabled
    exact ⟨s.advance, congrArg Host.Outcome.next (raise_lost (s := s.advance) disabled _), advance_frame s⟩

/-! ### The sync class -/

/-- The count and pc + 4 after a fetch, from the values before it. -/
theorem ReadFrame.advance_count {s t : State} (f : ReadFrame s t) :
    t.advance.count = { t with pc := s.pc + 4, cycleCount := s.cycleCount + 1 } := by
  rw [← f.pc, ← f.cycleCount]
  rfl

/-- An instruction of the sync class advances pc and does nothing else (R142 to R144). -/
theorem execNext_sync {i : Instr} (h : i = .sync ∨ i = .isync ∨ i = .eieio) (s : State) :
    execNext i s = s.advance := by
  rcases h with rfl | rfl | rfl <;> rfl

/-- Settles O32: the three rows, the advance of pc and its frame, and the step around it. -/
theorem syncRules : Obligations.SyncRules := by
  refine ⟨fun w => ⟨fun h => ?_, fun h => ?_, fun h => ?_⟩, fun i s hi => ⟨?_, fun hc hr hd => ?_⟩⟩
  · exact decode_of_decodesAs (xo10_of_row (n := 31) (k := 598) h (by decide) (by decide))
  · exact decode_of_decodesAs (xo10_of_row (n := 19) (k := 150) h (by decide) (by decide))
  · exact decode_of_decodesAs (xo10_of_row (n := 31) (k := 854) h (by decide) (by decide))
  · rw [exec_completes, execNext_sync hi]
    exact ⟨_, rfl, advance_frame s⟩
  · rw [step_of_decode_ok hc hr hd, execNext_sync hi, finishStep, (fetch_frame s).advance_count]
    rfl

end Sys2Proof.Machine
end

section
/-! Runs of any length, and the operations of the InterruptController: raise, vector lookup and return (60_exceptions.md
R150, R155 to R157, R161). -/

namespace Sys2Proof.Machine

/-! ### Runs -/

/-- From a state that meets the invariant a step answers such a state or finds the machine halted; it is not refused. -/
theorem State.Inv.step_safe {s : State} (h : s.Inv) : (∃ t, step s = .next t ∧ t.Inv) ∨ step s = .fault .halted := by
  cases hr : s.running with
  | false => exact .inr (step_of_not_running h.configOk hr)
  | true =>
    obtain ⟨t, e⟩ := (stepEnabledExactlyWhenRunning s h.configOk).2 hr
    exact .inl ⟨t, e, stepKeepsTheInvariant s t h e⟩

/-- Settles O18, by induction on the number of steps: the first step keeps the invariant or ends the run halted. -/
theorem runsStaySafe : Obligations.RunsStaySafe := by
  intro s h n
  induction n generalizing s with
  | zero => exact h
  | succ n ih =>
    rcases h.step_safe with ⟨t, e, ht⟩ | e
    · rw [run_next (M := core) e]
      exact ih t ht
    · rw [run_fault (M := core) e]
      rfl

/-! ### Raise, lookup, return -/

/-- Settles O28: a raise is lost or taken, and its frame is the same either way. -/
theorem raiseRule : Obligations.RaiseRule := by
  refine fun id s => ⟨fun disabled => raise_lost disabled id, fun enabled => ?_⟩
  obtain ⟨hlr, hpc, hoff, hmode⟩ := raise_taken enabled id
  have f := raise_frame id s
  exact ⟨hlr, hpc, hoff, hmode, registersKept_of_lr f.gpr f.fpr f.spr (List.mem_singleton_self _), f.running,
    f.cycleCount, f.storageKept, f.outputKept⟩

/-- No entry before the first one for an id is found for it. -/
theorem find?_eq_none_of_ids {entries : List (Word × Word)} {id : Word} (h : ∀ e ∈ entries, e.1 ≠ id) :
    entries.find? (fun e => e.1 == id) = none :=
  List.find?_eq_none.2 fun e he => by simpa using h e he

/-- Settles O29: the lookup passes the entries of other ids and stops at the first one of this id. -/
theorem vectorLookup : Obligations.VectorLookup := by
  refine fun c id => ⟨fun before a after hv hb => ?_, fun hv => ?_⟩
  · rw [vectorFor, hv, List.find?_append, find?_eq_none_of_ids hb]
    simp
  · rw [vectorFor, find?_eq_none_of_ids hv]

/-- Settles O31: the row of `rfi`, and the return, which writes pc and the interrupt enable alone. -/
theorem returnFromInterruptRule : Obligations.ReturnFromInterruptRule := by
  refine ⟨fun w h => ?_, fun s => ?_⟩
  · exact decode_of_decodesAs (i := .rfi) (xo10_of_row (n := 19) (k := 50) h (by decide) (by decide))
  · exact ⟨returnFromInterrupt s, rfl, rfl, rfl, rfl, ⟨fun _ _ => rfl, fun _ _ => rfl, fun _ _ => rfl⟩, rfl, rfl,
      ⟨fun _ => rfl, fun _ => rfl, rfl⟩, ⟨rfl, rfl, rfl⟩⟩

end Sys2Proof.Machine
end

section
/-! The interrupts of one step: what the poll's interrupt leaves in pc, LR and the status, after an instruction with and
without an interrupt of its own (60_exceptions.md R156, R158, R159, R162, R163). -/

namespace Sys2Proof.Machine

/-! ### The interrupt of a poll -/

section Poll

variable {s : State}

theorem coprocessorPoll_idle (h : (readCoproc .command s).1 = 0) : coprocessorPoll s = (readCoproc .command s).2 :=
  if_pos h

theorem coprocessorPoll_command (h : (readCoproc .command s).1 ≠ 0) :
    coprocessorPoll s = completeCommand (handleCommand (readCoproc .command s).1 (readCoproc .command s).2) :=
  if_neg h

/-- A poll that finds a command ends with a raise, in a state whose registers and status are still those before it. -/
theorem coprocessorPoll_raises (h : (readCoproc .command s).1 ≠ 0) :
    ∃ u, WriteFrame s u ∧ coprocessorPoll s = raise s.config.coprocIrq u := by
  have f := (readCoproc_frame .command s).toWrite.trans (handleCommand_frame (readCoproc .command s).1 _)
  exact ⟨_, (f.trans (writeCoproc_frame .status 1 _)).trans (writeCoproc_frame .command 0 _),
    by rw [coprocessorPoll_command h, completeCommand, f.config]⟩

/-- With interrupts enabled a poll that finds a command takes its interrupt (60_exceptions.md R157, R158). -/
theorem coprocessorPoll_taken (enabled : s.interruptsEnabled = true) (h : (readCoproc .command s).1 ≠ 0) :
    (coprocessorPoll s).readSpr 8 = s.pc ∧ (coprocessorPoll s).pc = vectorFor s.config s.config.coprocIrq ∧
      (coprocessorPoll s).interruptsEnabled = false ∧ (coprocessorPoll s).kernelMode = true := by
  obtain ⟨u, f, e⟩ := coprocessorPoll_raises h
  obtain ⟨hlr, hpc, hoff, hmode⟩ := raise_taken (f.interruptsEnabled.trans enabled) s.config.coprocIrq
  rw [f.pc] at hlr
  rw [f.config] at hpc
  rw [e]
  exact ⟨hlr, hpc, hoff, hmode⟩

/-- A poll leaves the mode, or has entered the coprocessor's handler in kernel mode with interrupts off. -/
theorem coprocessorPoll_mode (s : State) :
    (coprocessorPoll s).kernelMode = s.kernelMode ∨
      ((coprocessorPoll s).kernelMode = true ∧ (coprocessorPoll s).interruptsEnabled = false ∧
        (coprocessorPoll s).pc = vectorFor s.config s.config.coprocIrq) := by
  cases enabled : s.interruptsEnabled with
  | false =>
    obtain ⟨-, -, -, hmode⟩ := coprocessorPoll_disabled enabled
    exact .inl hmode
  | true =>
    by_cases h : (readCoproc .command s).1 = 0
    · exact .inl (by rw [coprocessorPoll_idle h, (readCoproc_frame .command s).kernelMode])
    · obtain ⟨-, hpc, hoff, hmode⟩ := coprocessorPoll_taken enabled h
      exact .inr ⟨hmode, hoff, hpc⟩

end Poll

/-! ### The interrupts of a step -/

section Step

variable {s t u : State} {i : Instr}

/-- A step of a decoded instruction ends with the poll of the state the instruction left, one instruction counted. -/
theorem step_of_exec (h : step s = .next t) (hd : decode (fetch s).1 = .ok i) (hu : exec i (fetch s).2 = .next u) :
    t = coprocessorPoll u.count := by
  rcases step_next h with ⟨why, hwhy, -⟩ | ⟨j, hj, rfl⟩
  · cases hd.symm.trans hwhy
  · obtain rfl : i = j := Except.ok.inj (hd.symm.trans hj)
    obtain rfl : execNext i (fetch s).2 = u := Host.Outcome.next.inj ((exec_completes i _).symm.trans hu)
    rfl

/-- An instruction with interrupts disabled leaves them so, unless it is `rfi`, and leaves the mode. -/
theorem exec_disabled (hi : i ≠ .rfi) (hu : exec i s = .next u) (disabled : s.interruptsEnabled = false) :
    u.interruptsEnabled = false ∧ u.kernelMode = s.kernelMode := by
  obtain rfl : execNext i s = u := Host.Outcome.next.inj ((exec_completes i s).symm.trans hu)
  rcases exec_status i s with ⟨hmode, hsame | ⟨hrfi, -⟩⟩ | ⟨-, enabled, -⟩
  · exact ⟨hsame.trans disabled, hmode⟩
  · exact absurd hrfi hi
  · cases disabled.symm.trans enabled

/-- After a system call that takes its interrupt the poll takes none: pc, LR and the status are the system call's
(60_exceptions.md R159). -/
theorem poll_after_systemCall (enabled : s.interruptsEnabled = true) :
    let t := coprocessorPoll (raise s.config.syscallIrq s.advance).count
    t.pc = vectorFor s.config s.config.syscallIrq ∧ t.readSpr 8 = s.pc + 4 ∧
      t.interruptsEnabled = false ∧ t.kernelMode = true := by
  obtain ⟨hlr, hpc, hoff, hmode⟩ := raise_taken (s := s.advance) enabled s.config.syscallIrq
  obtain ⟨kpc, klr, koff, kmode⟩ :=
    coprocessorPoll_disabled (s := (raise s.config.syscallIrq s.advance).count) hoff
  exact ⟨kpc.trans hpc, klr.trans hlr, koff, kmode.trans hmode⟩

end Step

/-- A mode that is kept is neither left nor entered. -/
theorem mode_of_kept {before after : Bool} {entered : Prop} (h : after = before) :
    (before = true → after = true) ∧ (before = false → after = true → entered) := by
  subst h
  exact ⟨id, fun user kernel => absurd (user.symm.trans kernel) Bool.false_ne_true⟩

/-- Settles O20: an instruction other than an interrupting `sc` leaves the mode to the poll; after such an `sc` the poll
takes no interrupt. -/
theorem kernelModeIsNeverLeft : Obligations.KernelModeIsNeverLeft := by
  intro s t h
  have f := fetch_frame s
  rcases step_next h with ⟨why, -, rfl⟩ | ⟨i, -, rfl⟩
  · exact mode_of_kept f.kernelMode
  · rcases exec_status i (fetch s).2 with ⟨hexec, -⟩ | ⟨-, enabled, hraise⟩
    · obtain ⟨-, -, hconfig, -⟩ := exec_frame i (fetch s).2
      rcases coprocessorPoll_mode (execNext i (fetch s).2).count with hkept | ⟨hkernel, hoff, hpc⟩
      · exact mode_of_kept (hkept.trans (hexec.trans f.kernelMode))
      · rw [State.count_config, hconfig, f.config] at hpc
        exact ⟨fun _ => hkernel, fun _ _ => ⟨hoff, .inr hpc⟩⟩
    · obtain ⟨hpc, -, hoff, hmode⟩ := poll_after_systemCall enabled
      rw [f.config] at hpc hoff hmode
      rw [finishStep, hraise, f.config]
      exact ⟨fun _ => hmode, fun _ _ => ⟨hoff, .inl hpc⟩⟩

/-- Settles O57: the poll that ends the step links the pc of the state the instruction left. -/
theorem pollInterruptSavesTheNextInstruction : Obligations.PollInterruptSavesTheNextInstruction := by
  intro s t u i p h hd hu enabled hregs hcommand
  have hconfig : u.config = s.config := by
    rw [configurationNeverChanges.2 i _ u hu]
    exact (fetch_frame s).config
  have found : (readCoproc .command u.count).1 ≠ 0 := by
    rw [readCoproc_at (s := u.count) (hconfig ▸ hregs)]
    exact hcommand
  obtain ⟨hlr, hpc, hoff, hmode⟩ := coprocessorPoll_taken (s := u.count) enabled found
  rw [State.count_config, hconfig] at hpc
  rw [step_of_exec h hd hu]
  exact ⟨hlr, hpc, hoff, hmode⟩

/-- Settles O58: the instruction leaves interrupts disabled, so the poll takes none. -/
theorem noInterruptWhileDisabled : Obligations.NoInterruptWhileDisabled := by
  intro s t u i h hd hi hu disabled
  have f := fetch_frame s
  obtain ⟨hoff, hmode⟩ := exec_disabled hi hu (f.interruptsEnabled.trans disabled)
  obtain ⟨kpc, klr, koff, kmode⟩ := coprocessorPoll_disabled (s := u.count) hoff
  rw [step_of_exec h hd hu]
  exact ⟨koff, kmode.trans (hmode.trans f.kernelMode), kpc, klr⟩

end Sys2Proof.Machine
end

section
/-! The whole poll, command by command (60_exceptions.md R166 to R174): the copy and the block read as folds over
ascending word numbers, and the three writes and the raise that end every command. -/

namespace Sys2Proof.Machine

/-! ### Ascending words -/

theorem add_four_mul_succ (a : Word) (n : Nat) :
    a + 4 + BitVec.ofNat 32 (4 * n) = a + BitVec.ofNat 32 (4 * (n + 1)) := by
  rw [Nat.mul_succ, BitVec.ofNat_add, BitVec.add_comm (BitVec.ofNat 32 (4 * n)), ← BitVec.add_assoc]
  rfl

theorem add_four_mul_zero (a : Word) : a + BitVec.ofNat 32 (4 * 0) = a := BitVec.add_zero a

/-- Word `k` of a copy: one read of the source, one write of the destination. -/
def copyWord (src dst : Word) (s : State) (k : Nat) : State :=
  let r := readWord (src + BitVec.ofNat 32 (4 * k)) s
  writeWord (dst + BitVec.ofNat 32 (4 * k)) r.1 r.2

/-- The last word copied is the highest one (R170). -/
theorem copyWords_succ (n : Nat) (src dst : Word) (s : State) :
    copyWords (n + 1) src dst s = copyWord src dst (copyWords n src dst s) n := by
  induction n generalizing src dst s with
  | zero => simp only [copyWords, copyWord, add_four_mul_zero]
  | succ n ih => rw [copyWords, ih, copyWord, add_four_mul_succ, add_four_mul_succ]; rfl

theorem copyWords_eq_foldl (n : Nat) (src dst : Word) (s : State) :
    copyWords n src dst s = (List.range n).foldl (copyWord src dst) s := by
  induction n with
  | zero => rfl
  | succ n ih => rw [copyWords_succ, ih, List.range_succ, List.foldl_append]; rfl

/-- Word `k` of a block read: its four bytes after those read before. -/
def readBlockWord (addr : Word) (acc : List Byte × State) (k : Nat) : List Byte × State :=
  let r := readWord (addr + BitVec.ofNat 32 (4 * k)) acc.2
  (acc.1 ++ bytesOfWord r.1, r.2)

theorem readBytes_cons (n : Nat) (addr : Word) (s : State) :
    readBytes (n + 1) addr s =
      (bytesOfWord (readWord addr s).1 ++ (readBytes n (addr + 4) (readWord addr s).2).1,
        (readBytes n (addr + 4) (readWord addr s).2).2) := rfl

/-- The last word of a block read is the highest one (R172). -/
theorem readBytes_succ (n : Nat) (addr : Word) (s : State) :
    readBytes (n + 1) addr s = readBlockWord addr (readBytes n addr s) n := by
  induction n generalizing addr s with
  | zero => simp [readBytes, readBlockWord]
  | succ n ih =>
    rw [readBytes_cons, ih, readBytes_cons n]
    simp only [readBlockWord, add_four_mul_succ, List.append_assoc]

theorem readBytes_eq_foldl (n : Nat) (addr : Word) (s : State) :
    readBytes n addr s = (List.range n).foldl (readBlockWord addr) ([], s) := by
  induction n with
  | zero => rfl
  | succ n ih => rw [readBytes_succ, ih, List.range_succ, List.foldl_append]; rfl

/-- A whole copy: the parameters, then the words in ascending order (R170). -/
theorem dmaCopy_eq_foldl (pa : Word) (s : State) :
    let w0 := readWord pa s
    let w1 := readWord (pa + 4) w0.2
    let w2 := readWord (pa + 8) w1.2
    dmaCopy pa s = (List.range (w2.1.toNat / 4)).foldl (copyWord w0.1 w1.1) w2.2 := copyWords_eq_foldl _ _ _ _

/-- A whole staged block: its words in ascending order, then the event with the bytes that belong to it (R172). -/
theorem stageAudio_eq_foldl (a n : Word) (s : State) :
    let block := (List.range ((n.toNat + 3) / 4)).foldl (readBlockWord a) ([], s)
    stageAudio a n s = block.2.emit (.audioStage (block.1.take n.toNat)) := by
  rw [← readBytes_eq_foldl]
  rfl

/-! ### The end of a command -/

/-- The response, status 1, command 0 and the interrupt, at the addresses of 20_memory.md R64. -/
theorem completeCommand_response (r : Word) {s u : State} (h : u.config = s.config) :
    completeCommand (writeCoproc .response r u) =
      raise s.config.coprocIrq (writeWord s.config.coprocRegBase 0 (writeWord (s.config.coprocRegBase + 16) 1
        (writeWord (s.config.coprocRegBase + 4) r u))) := by
  have f := writeCoproc_frame .response r u
  have hcommand (c : Config) : coprocAddr c .command = c.coprocRegBase := BitVec.add_zero _
  rw [completeCommand, f.config, writeCoproc, (writeCoproc_frame .status 1 _).config, hcommand, f.config, h, writeCoproc,
    f.config, h, writeCoproc, h]
  rfl

/-! ### The commands -/

section Commands

variable {c : Word} {s : State}

theorem handleCommand_trivial (h : c = 1 ∨ c = 2) : handleCommand c s = writeCoproc .response 0 s := if_pos h

theorem handleCommand_copy (h : c = 3 ∨ c = 4) :
    handleCommand c s =
      writeCoproc .response 0 (dmaCopy (readCoproc .paramAddr s).1 (readCoproc .paramAddr s).2) := by
  rcases h with rfl | rfl <;> simp [handleCommand, commandCopy]

/-- Command 5 reads its two parameter words and answers. -/
theorem handleCommand_audio (s : State) :
    let pa := readCoproc .paramAddr s
    let w0 := readWord pa.1 pa.2
    let w1 := readWord (pa.1 + 4) w0.2
    handleCommand 5 s = audioReply w0.1 w1.1 w1.2 := by
  simp [handleCommand, commandAudio]

theorem handleCommand_unknown (h : c ∉ [1, 2, 3, 4, 5]) : handleCommand c s = writeCoproc .response 0xFF s := by
  simp only [List.mem_cons, List.not_mem_nil, or_false, not_or] at h
  obtain ⟨h1, h2, h3, h4, h5⟩ := h
  rw [handleCommand, if_neg (not_or.2 ⟨h1, h2⟩), if_neg (not_or.2 ⟨h3, h4⟩), if_neg h5, commandUnknown]

/-- The answer to a block that fits: the block staged, then success. -/
theorem audioReply_fits {a n : Word} (h : n.toNat ≤ (Config.audioFreeDraw s.audioPolls).toNat) :
    audioReply a n s = writeCoproc .response 0 (stageAudio a n s.countAudio) := if_pos h

/-- The answer to a block that does not fit: the error alone. -/
theorem audioReply_tooLong {a n : Word} (h : (Config.audioFreeDraw s.audioPolls).toNat < n.toNat) :
    audioReply a n s = writeCoproc .response 1 s.countAudio := if_neg (Nat.not_le.2 h)

/-- A poll whose command ends with a response, in the configuration of the poll's beginning. -/
theorem coprocessorPoll_response {u : State} {r : Word} (h : (readCoproc .command s).1 ≠ 0)
    (hu : handleCommand (readCoproc .command s).1 (readCoproc .command s).2 = writeCoproc .response r u)
    (f : WriteFrame (readCoproc .command s).2 u) :
    coprocessorPoll s =
      raise s.config.coprocIrq (writeWord s.config.coprocRegBase 0 (writeWord (s.config.coprocRegBase + 16) 1
        (writeWord (s.config.coprocRegBase + 4) r u))) := by
  rw [coprocessorPoll_command h, hu, completeCommand_response r (f.config.trans (readCoproc_frame .command s).config)]

end Commands

/-- The command register is the first of the five, at their base address. -/
theorem readCoproc_command (s : State) : readCoproc .command s = readWord s.config.coprocRegBase s :=
  congrArg (readWord · s) (BitVec.add_zero s.config.coprocRegBase)

/-- Settles O50: each command by its answer and the writes that end it; the loops are the folds. -/
theorem pollRule : Obligations.PollRule := by
  intro s base read c s1 finish pa w0 w1 w2 copied asked free block staged
  have hread : readCoproc .command s = (c, s1) := readCoproc_command s
  have hpa : readCoproc .paramAddr s1 = pa :=
    congrArg (fun cfg => readWord (coprocAddr cfg .paramAddr) s1) (readWord_frame base s).config
  have answers {u : State} {r : Word} (hc : c ≠ 0) (hu : handleCommand c s1 = writeCoproc .response r u)
      (f : WriteFrame s1 u) : coprocessorPoll s = finish r u := by
    apply coprocessorPoll_response <;> rw [hread] <;> assumption
  have fpa : WriteFrame s1 pa.2 := (readWord_frame (base + 8) s1).toWrite
  have fw1 : WriteFrame s1 w1.2 :=
    fpa.trans ((readWord_frame pa.1 pa.2).trans (readWord_frame (pa.1 + 4) w0.2)).toWrite
  have fasked : WriteFrame s1 asked := fw1.trans (countAudio_frame w1.2)
  have hcopied : dmaCopy pa.1 pa.2 = copied := dmaCopy_eq_foldl pa.1 pa.2
  have hstaged : stageAudio w0.1 w1.1 asked = staged := stageAudio_eq_foldl w0.1 w1.1 asked
  have haudio (hc : c = 5) : handleCommand c s1 = audioReply w0.1 w1.1 w1.2 := by
    rw [hc, handleCommand_audio, hpa]
  refine ⟨fun hc => ?_, fun hc => ?_, fun hc => ?_, fun hc hfit => ?_, fun hc hlong => ?_, fun hc => ?_⟩
  · rw [coprocessorPoll_idle] <;> rw [hread]
    exact hc
  · refine answers ?_ (handleCommand_trivial hc) (WriteFrame.refl s1)
    rcases hc with h | h <;> rw [h] <;> decide
  · refine answers ?_ (by rw [handleCommand_copy hc, hpa, hcopied]) (fpa.trans (hcopied ▸ dmaCopy_frame pa.1 pa.2))
    rcases hc with h | h <;> rw [h] <;> decide
  · refine answers (by rw [hc]; decide) ?_ (fasked.trans (hstaged ▸ stageAudio_frame w0.1 w1.1 asked).toWrite)
    rw [haudio hc, audioReply_fits hfit, ← hstaged]
    rfl
  · refine answers (by rw [hc]; decide) ?_ fasked
    rw [haudio hc, audioReply_tooLong hlong]
    rfl
  · simp only [List.mem_cons, not_or] at hc
    exact answers hc.1 (handleCommand_unknown (by simpa using hc.2)) (WriteFrame.refl s1)

end Sys2Proof.Machine
end

section
/-! What a completed command leaves where the five registers lie in the buffer: the three registers written, every other
byte and pixel, and the interrupt (60_exceptions.md R159, R167 to R169, R173). -/

namespace Sys2Proof.Machine

/-! ### The three writes that end a command -/

/-- Memory after the response, the status and the command are written, the registers lying from `p` on. -/
def Memory.completed (m : Memory) (p : Nat) (response : Word) : Memory :=
  ((m.putWord (p + 4) response).putWord (p + 16) 1).putWord p 0

section Completed

variable {m : Memory} {p q : Nat} {r : Word}

theorem Memory.completed_command (h : m.wf) : (m.completed p r).wordAt p = 0 :=
  Memory.wordAt_putWord (Memory.putWord_wf (Memory.putWord_wf h))

theorem Memory.completed_status (h : m.wf) : (m.completed p r).wordAt (p + 16) = 1 := by
  rw [Memory.completed, Memory.wordAt_putWord_apart (by omega), Memory.wordAt_putWord (Memory.putWord_wf h)]

theorem Memory.completed_response (h : m.wf) : (m.completed p r).wordAt (p + 4) = r := by
  rw [Memory.completed, Memory.wordAt_putWord_apart (by omega), Memory.wordAt_putWord_apart (by omega),
    Memory.wordAt_putWord h]

/-- No byte but those of the three registers changes. -/
theorem Memory.read_completed (h : q < p ∨ (p + 8 ≤ q ∧ q < p + 16) ∨ p + 20 ≤ q) :
    (m.completed p r).read q = m.read q := by
  rw [Memory.completed, Memory.read_putWord_outside (by omega), Memory.read_putWord_outside (by omega),
    Memory.read_putWord_outside (by omega)]

theorem Memory.wordAt_completed (h : q + 4 ≤ p ∨ p + 20 ≤ q) : (m.completed p r).wordAt q = m.wordAt q := by
  rw [Memory.completed, Memory.wordAt_putWord_apart (by omega), Memory.wordAt_putWord_apart (by omega),
    Memory.wordAt_putWord_apart (by omega)]

end Completed

theorem OutputKept.trans {s t u : State} (h : OutputKept s t) (k : OutputKept t u) : OutputKept s u :=
  ⟨k.events.trans h.events, k.inputReads.trans h.inputReads, k.audioPolls.trans h.audioPolls⟩

/-- The end of a command, in the registers' memory and in the model's record of draws and events. -/
theorem completeCommand_response_at {u : State} {p : Nat} (h : CoprocAt u.config p) (r : Word) :
    (completeCommand (writeCoproc .response r u)).mem = u.mem.completed p r ∧
      OutputKept u (completeCommand (writeCoproc .response r u)) := by
  obtain ⟨hmem, hevents, hinputs, haudio⟩ := writeCoproc_at h .response r
  obtain ⟨kmem, kevents, kinputs, kaudio⟩ :=
    completeCommand_at (s := writeCoproc .response r u) ((writeCoproc_frame .response r u).config ▸ h)
  refine ⟨?_, OutputKept.trans ⟨hevents, hinputs, haudio⟩ ⟨kevents, kinputs, kaudio⟩⟩
  rw [kmem, hmem]
  rfl

/-- The end of a command leaves every pixel but those the three registers mirror into. -/
theorem completeCommand_response_pixelAt {u : State} {r : Word} {j : Nat}
    (h : ∀ k ∈ [0, 4, 16], pixelIndex u.config (u.config.coprocRegBase + k) ≠ some j) :
    (completeCommand (writeCoproc .response r u)).pixelAt j = u.pixelAt j := by
  have f1 := writeWord_frame (u.config.coprocRegBase + 4) r u
  have f2 := f1.trans (writeWord_frame (u.config.coprocRegBase + 16) 1 _)
  have hbase := h 0 (by decide)
  rw [show u.config.coprocRegBase + 0 = u.config.coprocRegBase from BitVec.add_zero _] at hbase
  rw [completeCommand_response r rfl, State.pixelAt, (raise_frame _ _).pixels, ← State.pixelAt,
    writeWord_pixelAt_ne (by rw [f2.config]; exact hbase),
    writeWord_pixelAt_ne (by rw [f1.config]; exact h 16 (by decide)), writeWord_pixelAt_ne (h 4 (by decide))]

/-! ### The response to a command -/

/-- The responses the spec lets command `c` have (R168 to R173). -/
def Answers (c response : Word) : Prop :=
  (c = 1 ∨ c = 2 ∨ c = 3 ∨ c = 4 → response = 0) ∧
  (c = 5 → response = 0 ∨ response = 1) ∧
  (¬(c = 1 ∨ c = 2 ∨ c = 3 ∨ c = 4 ∨ c = 5) → response = 0xFF)

theorem answers_done {c : Word} (h : c = 1 ∨ c = 2 ∨ c = 3 ∨ c = 4) : Answers c 0 :=
  ⟨fun _ => rfl, fun _ => .inl rfl, fun hn => absurd (by tauto) hn⟩

theorem answers_audio {r : Word} (h : r = 0 ∨ r = 1) : Answers 5 r :=
  ⟨fun hc => absurd hc (by decide), fun _ => h, fun hn => absurd (by decide) hn⟩

theorem answers_unknown {c : Word} (h : ¬(c = 1 ∨ c = 2 ∨ c = 3 ∨ c = 4 ∨ c = 5)) : Answers c 0xFF :=
  ⟨fun hc => absurd (by tauto) h, fun hc => absurd (by tauto) h, fun _ => rfl⟩

/-- Every command ends its work, which leaves memory canonical, with the write of a response the spec gives it. -/
theorem handleCommand_answers (c : Word) (s : State) :
    ∃ r u, handleCommand c s = writeCoproc .response r u ∧ Answers c r ∧ WriteFrame s u ∧ (s.mem.wf → u.mem.wf) := by
  by_cases h12 : c = 1 ∨ c = 2
  · exact ⟨0, s, handleCommand_trivial h12, answers_done (by tauto), WriteFrame.refl s, id⟩
  by_cases h34 : c = 3 ∨ c = 4
  · have f := readCoproc_frame .paramAddr s
    exact ⟨0, _, handleCommand_copy h34, answers_done (by tauto), f.toWrite.trans (dmaCopy_frame _ _),
      fun hm => dmaCopy_memOk (by rw [f.mem]; exact hm)⟩
  by_cases h5 : c = 5
  · subst h5
    let w0 := readWord (readCoproc .paramAddr s).1 (readCoproc .paramAddr s).2
    let w1 := readWord ((readCoproc .paramAddr s).1 + 4) w0.2
    have haudio : handleCommand 5 s = audioReply w0.1 w1.1 w1.2 := handleCommand_audio s
    have f : ReadFrame s w1.2 := ((readCoproc_frame .paramAddr s).trans (readWord_frame _ _)).trans (readWord_frame _ _)
    have fasked : WriteFrame s w1.2.countAudio := f.toWrite.trans (countAudio_frame w1.2)
    rcases Nat.lt_or_ge (Config.audioFreeDraw w1.2.audioPolls).toNat w1.1.toNat with hlong | hfit
    · exact ⟨1, _, haudio.trans (audioReply_tooLong hlong), answers_audio (.inr rfl), fasked,
        fun hm => by rw [State.countAudio_mem, f.mem]; exact hm⟩
    · have fstage := stageAudio_frame w0.1 w1.1 w1.2.countAudio
      exact ⟨0, _, haudio.trans (audioReply_fits hfit), answers_audio (.inl rfl), fasked.trans fstage.toWrite,
        fun hm => by rw [fstage.mem, State.countAudio_mem, f.mem]; exact hm⟩
  · have hunknown : ¬(c = 1 ∨ c = 2 ∨ c = 3 ∨ c = 4 ∨ c = 5) := by tauto
    exact ⟨0xFF, s, handleCommand_unknown (by simpa using hunknown), answers_unknown hunknown, WriteFrame.refl s, id⟩

section Found

variable {s : State} {p : Nat} (hregs : CoprocAt s.config p) (found : s.mem.wordAt p ≠ 0)

include hregs found

theorem coprocessorPoll_found : coprocessorPoll s = completeCommand (handleCommand (s.mem.wordAt p) s) :=
  (coprocessorPoll_at hregs).trans (if_neg found)

/-- The interrupt a poll with a command in the buffer takes. -/
theorem coprocessorPoll_found_taken (enabled : s.interruptsEnabled = true) :
    (coprocessorPoll s).readSpr 8 = s.pc ∧ (coprocessorPoll s).pc = vectorFor s.config s.config.coprocIrq ∧
      (coprocessorPoll s).interruptsEnabled = false ∧ (coprocessorPoll s).kernelMode = true :=
  coprocessorPoll_taken enabled (by rw [readCoproc_at hregs]; exact found)

/-- Memory after a poll whose command ends its work in `u`, and the record of draws and events. -/
theorem coprocessorPoll_found_mem {u : State} {r : Word}
    (hu : handleCommand (s.mem.wordAt p) s = writeCoproc .response r u) (f : WriteFrame s u) :
    (coprocessorPoll s).mem = u.mem.completed p r ∧ OutputKept u (coprocessorPoll s) := by
  rw [coprocessorPoll_found hregs found, hu]
  exact completeCommand_response_at (f.config ▸ hregs) r

/-- The three registers after a poll that finds a command (R167 to R173). -/
theorem coprocessorPoll_found_registers (hm : s.mem.wf) :
    (coprocessorPoll s).mem.wordAt p = 0 ∧ (coprocessorPoll s).mem.wordAt (p + 16) = 1 ∧
      Answers (s.mem.wordAt p) ((coprocessorPoll s).mem.wordAt (p + 4)) := by
  obtain ⟨r, u, hu, hr, f, hkeep⟩ := handleCommand_answers (s.mem.wordAt p) s
  obtain ⟨hmem, -⟩ := coprocessorPoll_found_mem hregs found hu f
  have hum := hkeep hm
  rw [hmem, Memory.completed_response hum]
  exact ⟨Memory.completed_command hum, Memory.completed_status hum, hr⟩

end Found

/-- A poll touches no register but LR. -/
theorem coprocessorPoll_registersKept (s : State) : RegistersKept s (coprocessorPoll s) [] [] [8] :=
  have f := coprocessorPoll_frame s
  registersKept_of_lr f.gpr f.fpr f.spr (List.mem_singleton_self _)

/-- Settles O51: the end of the command in memory, and its interrupt, lost or taken. -/
theorem commandCompletion : Obligations.CommandCompletion := by
  intro s p hm hregs found c t
  obtain ⟨hcommand, hstatus, hdone, haudio, hunknown⟩ := coprocessorPoll_found_registers hregs found hm
  have f := coprocessorPoll_frame s
  refine ⟨hcommand, hstatus, hdone, haudio, hunknown, coprocessorPoll_disabled, fun enabled => ?_,
    coprocessorPoll_registersKept s, f.running, f.cycleCount⟩
  obtain ⟨hlr, hpc, hoff, hmode⟩ := coprocessorPoll_found_taken hregs found enabled
  exact ⟨hpc, hlr, hoff, hmode⟩

/-- pc, LR, the interrupt enable and the mode after a poll that finds a command are those of a raise before it. -/
theorem coprocessorPoll_found_interrupt {s : State} {p : Nat} (hregs : CoprocAt s.config p)
    (found : s.mem.wordAt p ≠ 0) :
    (coprocessorPoll s).readSpr 8 = (raise s.config.coprocIrq s).readSpr 8 ∧
      (coprocessorPoll s).pc = (raise s.config.coprocIrq s).pc ∧
      (coprocessorPoll s).interruptsEnabled = (raise s.config.coprocIrq s).interruptsEnabled ∧
      (coprocessorPoll s).kernelMode = (raise s.config.coprocIrq s).kernelMode := by
  cases enabled : s.interruptsEnabled with
  | false =>
    obtain ⟨hpc, hlr, hoff, hmode⟩ := coprocessorPoll_disabled enabled
    rw [raise_lost enabled]
    exact ⟨hlr, hpc, hoff.trans enabled.symm, hmode⟩
  | true =>
    obtain ⟨hlr, hpc, hoff, hmode⟩ := coprocessorPoll_found_taken hregs found enabled
    obtain ⟨klr, kpc, koff, kmode⟩ := raise_taken enabled s.config.coprocIrq
    exact ⟨hlr.trans klr.symm, hpc.trans kpc.symm, hoff.trans koff.symm, hmode.trans kmode.symm⟩

/-- A command that neither copies nor plays only answers. -/
theorem handleCommand_plain {c : Word} {s : State} (h3 : c ≠ 3) (h4 : c ≠ 4) (h5 : c ≠ 5) :
    handleCommand c s = writeCoproc .response (if c = 1 ∨ c = 2 then 0 else 0xFF) s := by
  split_ifs with h
  · exact handleCommand_trivial h
  · obtain ⟨h1, h2⟩ := not_or.1 h
    refine handleCommand_unknown ?_
    simp only [List.mem_cons, List.not_mem_nil, or_false, not_or]
    exact ⟨h1, h2, h3, h4, h5⟩

/-- Settles O52: the command's work is none, so its end and its interrupt are all that changes. -/
theorem plainCommandsTouchNothingElse : Obligations.PlainCommandsTouchNothingElse := by
  intro s p hm hregs found h3 h4 h5 t interrupted
  have hplain := handleCommand_plain (s := s) h3 h4 h5
  obtain ⟨hmem, output⟩ := coprocessorPoll_found_mem hregs found hplain (WriteFrame.refl s)
  obtain ⟨hlr, hpc, hoff, hmode⟩ := coprocessorPoll_found_interrupt hregs found
  have f := coprocessorPoll_frame s
  refine ⟨?_, fun q hq => ?_, fun j hj => ?_, coprocessorPoll_registersKept s, hlr, hpc, hoff, hmode, f.running,
    f.cycleCount, f.config, output⟩
  · rw [hmem, Memory.completed_response hm]
  · rw [State.byteAt, hmem, Memory.read_completed hq]
    rfl
  · have e : t = completeCommand _ := (coprocessorPoll_found hregs found).trans (congrArg completeCommand hplain)
    rw [e]
    exact completeCommand_response_pixelAt hj

/-- Settles O56: the system call's interrupt stands after the poll, whose command completes all the same; other
instructions by their effect on the status. -/
theorem systemCallBeatsTheCoprocessor : Obligations.SystemCallBeatsTheCoprocessor := by
  refine ⟨fun s t h hd enabled => ?_, fun i s u hu hi => ?_⟩
  · have f := fetch_frame s
    have e := step_of_exec h hd rfl
    subst e
    refine ⟨?_, fun p hm hregs found => ?_⟩
    · have hsc := poll_after_systemCall (f.interruptsEnabled.trans enabled)
      rw [f.config, f.pc] at hsc
      rw [f.config]
      exact hsc
    · let v := (raise (fetch s).2.config.syscallIrq (fetch s).2.advance).count
      have r := raise_frame (fetch s).2.config.syscallIrq (fetch s).2.advance
      have hmem : v.mem = s.mem := r.mem.trans f.mem
      have hconfig : v.config = s.config := r.config.trans f.config
      obtain ⟨hcommand, hstatus, hdone, haudio, hunknown⟩ :=
        coprocessorPoll_found_registers (s := v) (hconfig ▸ hregs) (hmem ▸ found) (hmem ▸ hm)
      rw [hmem] at hdone haudio hunknown
      exact ⟨hcommand, hstatus, hdone, haudio, fun hc => hunknown (by simpa using hc)⟩
  · obtain rfl : execNext i s = u := Host.Outcome.next.inj ((exec_completes i s).symm.trans hu)
    rcases exec_status i s with ⟨hmode, hstatus⟩ | ⟨hsc, -⟩
    · exact ⟨hmode, hstatus⟩
    · exact absurd hsc hi

end Sys2Proof.Machine
end

section
/-! Blocks whose words lie in the buffer: what a copy leaves word by word, and what a block read gathers (60_exceptions.md
R170 to R172, R175). -/

namespace Sys2Proof.Machine

/-! ### A copy in memory -/

/-- Memory after the first `n` words from `ps` on are copied to `pd` on, in ascending order. -/
def Memory.copied (m : Memory) (ps pd : Nat) : Nat → Memory
  | 0 => m
  | n + 1 => (Memory.copied m ps pd n).putWord (pd + 4 * n) ((Memory.copied m ps pd n).wordAt (ps + 4 * n))

section Copied

variable {m : Memory} {ps pd n k q : Nat}

theorem Memory.copied_wf (h : m.wf) (ps pd n : Nat) : (m.copied ps pd n).wf := by
  induction n with
  | zero => exact h
  | succ n ih => exact Memory.putWord_wf ih

/-- Only the destination changes. -/
theorem Memory.read_copied (h : q < pd ∨ pd + 4 * n ≤ q) : (m.copied ps pd n).read q = m.read q := by
  induction n with
  | zero => rfl
  | succ n ih => rw [Memory.copied, Memory.read_putWord_outside (by omega), ih (by omega)]

theorem Memory.wordAt_copied_apart (h : q + 4 ≤ pd ∨ pd + 4 * n ≤ q) :
    (m.copied ps pd n).wordAt q = m.wordAt q := by
  simp only [Memory.wordAt]
  rw [Memory.read_copied (by omega), Memory.read_copied (by omega), Memory.read_copied (by omega),
    Memory.read_copied (by omega)]

/-- Word `k` of the destination is the source word as the copy found it, `k` words in. -/
theorem Memory.wordAt_copied (h : m.wf) (hk : k < n) :
    (m.copied ps pd n).wordAt (pd + 4 * k) = (m.copied ps pd k).wordAt (ps + 4 * k) := by
  induction n with
  | zero => omega
  | succ n ih =>
    rw [Memory.copied]
    rcases Nat.lt_succ_iff_lt_or_eq.1 hk with hlt | rfl
    · rw [Memory.wordAt_putWord_apart (by omega), ih hlt]
    · exact Memory.wordAt_putWord (Memory.copied_wf h ps pd k)

/-- A destination that does not start inside the source takes the old source words. -/
theorem Memory.wordAt_copied_block (h : m.wf) (apart : pd ≤ ps ∨ ps + 4 * n ≤ pd) (hk : k < n) :
    (m.copied ps pd n).wordAt (pd + 4 * k) = m.wordAt (ps + 4 * k) := by
  rw [Memory.wordAt_copied h hk, Memory.wordAt_copied_apart (by omega)]

/-- A destination `d` words above the source takes repeats of the first `d` words (R175): a source word from the `d`-th
on is a destination word already, `d` words back. -/
theorem Memory.wordAt_copied_overlap {d : Nat} (h : m.wf) (hd : 0 < d) (hk : k < n) :
    (m.copied ps (ps + 4 * d) n).wordAt (ps + 4 * d + 4 * k) = m.wordAt (ps + 4 * (k % d)) := by
  induction k using Nat.strong_induction_on generalizing n with
  | _ k ih =>
    rw [Memory.wordAt_copied h hk]
    rcases Nat.lt_or_ge k d with hlt | hge
    · rw [Nat.mod_eq_of_lt hlt, Memory.wordAt_copied_apart (by omega)]
    · rw [show ps + 4 * k = ps + 4 * d + 4 * (k - d) by omega, ih (k - d) (by omega) (by omega),
        Nat.mod_eq_sub_mod hge]

end Copied

/-! ### The copy of the coprocessor -/

/-- The first word of a block, at the block's own address. -/
theorem WordsReadAt.first {c : Config} {a : Word} {p n : Nat} (h : WordsReadAt c a p n) (hn : 0 < n) : ReadsAt c a p := by
  have := h 0 hn
  rwa [add_four_mul_zero] at this

variable {s : State} {p pp ps pd n : Nat} {src dst : Word}

/-- A copy between words of the buffer is the copy in memory; nothing is drawn or emitted. -/
theorem copyWords_at (hs : WordsReadAt s.config src ps n) (hd : WordsLieAt s.config dst pd n) :
    (copyWords n src dst s).mem = s.mem.copied ps pd n ∧ OutputKept s (copyWords n src dst s) := by
  induction n with
  | zero => exact ⟨rfl, rfl, rfl, rfl⟩
  | succ n ih =>
    obtain ⟨hmem, output⟩ := ih (fun k hk => hs k (by omega)) (fun k hk => hd k (by omega))
    have f := copyWords_frame n src dst s
    obtain ⟨kmem, kevents, kinputs, kaudio⟩ := writeWord_at (s := copyWords n src dst s)
      (v := (copyWords n src dst s).mem.wordAt (ps + 4 * n)) (f.config ▸ hd n (by omega))
    rw [copyWords_succ, copyWord, readWord_at (f.config ▸ hs n (by omega))]
    refine ⟨?_, output.trans ⟨kevents, kinputs, kaudio⟩⟩
    rw [kmem, hmem]
    rfl

/-- A copy command with its parameters in the buffer copies between the blocks they name. -/
theorem dmaCopy_at {pa : Word} (h : WordsReadAt s.config pa pp 3) :
    dmaCopy pa s =
      copyWords ((s.mem.wordAt (pp + 8)).toNat / 4) (s.mem.wordAt pp) (s.mem.wordAt (pp + 4)) s := by
  have h0 : readWord pa s = (s.mem.wordAt pp, s) := readWord_at (h.first (by decide))
  have h1 : readWord (pa + 4) s = (s.mem.wordAt (pp + 4), s) := readWord_at (h 1 (by decide))
  have h2 : readWord (pa + 8) s = (s.mem.wordAt (pp + 8), s) := readWord_at (h 2 (by decide))
  simp only [dmaCopy, h0, h1, h2]

/-- Memory after the poll of a copy command whose registers, parameters and blocks lie in the buffer. -/
theorem coprocessorPoll_copy_at (hregs : CoprocAt s.config p) (hc : s.mem.wordAt p = 3 ∨ s.mem.wordAt p = 4)
    (hparams : WordsReadAt s.config (s.mem.wordAt (p + 8)) pp 3)
    (hsrc : WordsReadAt s.config (s.mem.wordAt pp) ps ((s.mem.wordAt (pp + 8)).toNat / 4))
    (hdst : WordsLieAt s.config (s.mem.wordAt (pp + 4)) pd ((s.mem.wordAt (pp + 8)).toNat / 4)) :
    (coprocessorPoll s).mem = (s.mem.copied ps pd ((s.mem.wordAt (pp + 8)).toNat / 4)).completed p 0 ∧
      OutputKept s (coprocessorPoll s) := by
  have found : s.mem.wordAt p ≠ 0 := by rcases hc with h | h <;> rw [h] <;> decide
  have hcopy : handleCommand (s.mem.wordAt p) s = writeCoproc .response 0
      (copyWords ((s.mem.wordAt (pp + 8)).toNat / 4) (s.mem.wordAt pp) (s.mem.wordAt (pp + 4)) s) := by
    rw [handleCommand_copy hc, readCoproc_at hregs]
    exact congrArg _ (dmaCopy_at hparams)
  obtain ⟨hmem, output⟩ := copyWords_at hsrc hdst
  obtain ⟨kmem, koutput⟩ := coprocessorPoll_found_mem hregs found hcopy (copyWords_frame _ _ _ s)
  exact ⟨by rw [kmem, hmem], output.trans koutput⟩

/-- Settles O53: the copied words, apart from the registers written at the end, are the old source words. -/
theorem dmaCopiesTheBlock : Obligations.DmaCopiesTheBlock := by
  intro s p pp ps pd hm hregs hc hparams n hsrc hdst apart clear t
  obtain ⟨hmem, output⟩ := coprocessorPoll_copy_at hregs hc hparams hsrc hdst
  refine ⟨fun k hk => ?_, fun q hq hqr => ?_, ?_, output⟩
  · rw [hmem, Memory.wordAt_completed (by omega), Memory.wordAt_copied_block hm apart hk]
  · rw [State.byteAt, hmem, Memory.read_completed hqr, Memory.read_copied hq]
    rfl
  · rw [hmem, Memory.completed_response (Memory.copied_wf hm _ _ _)]

/-- Settles O54: the copied words, apart from the registers written at the end, repeat the first `m` source words. -/
theorem dmaOverlapRepeatsTheFirstWords : Obligations.DmaOverlapRepeatsTheFirstWords := by
  intro s p pp ps m hm hregs hc hparams n hsrc hdst hpos _ clear k hk
  obtain ⟨hmem, -⟩ := coprocessorPoll_copy_at hregs hc hparams hsrc hdst
  rw [hmem, Memory.wordAt_completed (by omega), Memory.wordAt_copied_overlap hm hpos hk]

/-! ### The audio block -/

theorem bytesOfWord_wordAt (m : Memory) (p : Nat) :
    bytesOfWord (m.wordAt p) = (List.range 4).map (fun k => m.read (p + k)) := by
  obtain ⟨h0, h1, h2, h3⟩ := byteOfWord_wordOfBytes (m.read p) (m.read (p + 1)) (m.read (p + 2)) (m.read (p + 3))
  simp only [bytesOfWord, Memory.wordAt, h0, h1, h2, h3]
  rfl

/-- The bytes of a block in the buffer, in memory order; the read changes nothing. -/
theorem readBytes_at {addr : Word} {pb : Nat} (h : WordsReadAt s.config addr pb n) :
    readBytes n addr s = ((List.range (4 * n)).map (fun k => s.byteAt (pb + k)), s) := by
  induction n with
  | zero => rfl
  | succ n ih =>
    rw [readBytes_succ, ih fun k hk => h k (by omega)]
    simp only [readBlockWord]
    rw [readWord_at (h n (by omega)), bytesOfWord_wordAt, Nat.mul_succ, List.range_add, List.map_append, List.map_map]
    simp only [Function.comp_def, State.byteAt, Nat.add_assoc]

/-- A staged block in the buffer goes out as its bytes in memory order. -/
theorem stageAudio_at {addr size : Word} {pb : Nat} (h : WordsReadAt s.config addr pb ((size.toNat + 3) / 4)) :
    stageAudio addr size s =
      s.emit (.audioStage ((List.range size.toNat).map (fun k => s.byteAt (pb + k)))) := by
  rw [stageAudio, readBytes_at h]
  simp only [← List.map_take, List.take_range]
  rw [Nat.min_eq_left (by omega)]

/-- An audio command with its parameters in the buffer answers for the block they name. -/
theorem handleCommand_audio_at (hregs : CoprocAt s.config p) (h : WordsReadAt s.config (s.mem.wordAt (p + 8)) pp 2) :
    handleCommand 5 s = audioReply (s.mem.wordAt pp) (s.mem.wordAt (pp + 4)) s := by
  have hpa : readCoproc .paramAddr s = (s.mem.wordAt (p + 8), s) := readCoproc_at hregs .paramAddr
  have h0 : readWord (s.mem.wordAt (p + 8)) s = (s.mem.wordAt pp, s) := readWord_at (h.first (by decide))
  have h1 : readWord (s.mem.wordAt (p + 8) + 4) s = (s.mem.wordAt (pp + 4), s) := readWord_at (h 1 (by decide))
  rw [handleCommand_audio, hpa, h0, h1]

/-- Settles O55: the block fits or not, by the one answer of the sink; only the end of the command changes bytes. -/
theorem audioCommand : Obligations.AudioCommand := by
  intro s p pp pb hm hregs hc hparams size hblock t
  have found : s.mem.wordAt p ≠ 0 := by rw [hc]; decide
  have ends {r : Word} {u : State}
      (hu : audioReply (s.mem.wordAt pp) (s.mem.wordAt (pp + 4)) s = writeCoproc .response r u)
      (f : WriteFrame s u) (hum : u.mem = s.mem) : t.mem = s.mem.completed p r ∧ OutputKept u t := by
    rw [← hum]
    exact coprocessorPoll_found_mem hregs found (by rw [hc, handleCommand_audio_at hregs hparams, hu]) f
  let staged := s.countAudio.emit (.audioStage ((List.range size).map (fun k => s.byteAt (pb + k))))
  have fits (h : size ≤ (Config.audioFreeDraw s.audioPolls).toNat) :
      t.mem = s.mem.completed p 0 ∧ OutputKept staged t :=
    ends ((audioReply_fits h).trans (congrArg _ (stageAudio_at (s := s.countAudio) hblock)))
      ((countAudio_frame s).trans (emit_frame _ _).toWrite) rfl
  have tooLong (h : (Config.audioFreeDraw s.audioPolls).toNat < size) :
      t.mem = s.mem.completed p 1 ∧ OutputKept s.countAudio t :=
    ends (audioReply_tooLong h) (countAudio_frame s) rfl
  have either : t.audioPolls = s.audioPolls + 1 ∧ t.inputReads = s.inputReads ∧ ∃ r, t.mem = s.mem.completed p r := by
    rcases Nat.lt_or_ge (Config.audioFreeDraw s.audioPolls).toNat size with h | h
    · obtain ⟨hmem, output⟩ := tooLong h
      exact ⟨output.audioPolls, output.inputReads, 1, hmem⟩
    · obtain ⟨hmem, output⟩ := fits h
      exact ⟨output.audioPolls, output.inputReads, 0, hmem⟩
  obtain ⟨hasked, hinputs, r, hmem⟩ := either
  refine ⟨fun h => ?_, fun h => ?_, hasked, hinputs, fun q hq => ?_⟩
  · obtain ⟨hmem0, output⟩ := fits h
    exact ⟨by rw [hmem0, Memory.completed_response hm], output.events⟩
  · obtain ⟨hmem1, output⟩ := tooLong h
    exact ⟨by rw [hmem1, Memory.completed_response hm], output.events⟩
  · rw [State.byteAt, hmem, Memory.read_completed hq]
    rfl

end Sys2Proof.Machine
end

section
/-! When boot fails, and the invariant of the state it answers (70_reset_and_hazards.md R190 to R192). -/

namespace Sys2Proof.Machine

variable {c : Config} {image : List Byte}

/-- Boot checks the configuration, then the size of the image, and otherwise loads the image into reset. -/
theorem boot_cases (c : Config) (image : List Byte) :
    (configOk c = false ∧ boot c image = .error .badConfiguration) ∨
    (configOk c = true ∧ c.capacity < image.length ∧ boot c image = .error .oversizedImage) ∨
    (configOk c = true ∧ image.length ≤ c.capacity ∧
      boot c image = .ok ((State.resetWith c).setMem (Memory.writeBytes [] 0 image))) := by
  unfold boot
  cases hc : configOk c with
  | false => exact .inl ⟨rfl, rfl⟩
  | true =>
    rcases Nat.lt_or_ge c.capacity image.length with hl | hl
    · exact .inr (.inl ⟨rfl, hl, if_pos hl⟩)
    · exact .inr (.inr ⟨rfl, hl, if_neg (Nat.not_lt.2 hl)⟩)

/-- Settles O13: the three answers of boot differ, and so do the conditions they are given under. -/
theorem bootRefusals : Obligations.BootRefusals := by
  intro c image
  rcases boot_cases c image with ⟨hc, e⟩ | ⟨hc, hl, e⟩ | ⟨hc, hl, e⟩ <;> rw [e]
  · simp [hc]
  · simp [hc, hl]
  · simp [hc, hl]

/-- An image that boots fits into the buffer of an admitted configuration. -/
theorem boot_ok_fits {s : State} (h : boot c image = .ok s) : configOk c = true ∧ image.length ≤ c.capacity := by
  obtain ⟨-, -, hok⟩ := bootRefusals c image
  exact hok.1 ⟨s, h⟩

/-- Reset has nothing listed in memory and pixels, pc at ENTRY_PC and LR at 0. -/
theorem State.resetWith_inv (h : configOk c = true) : (State.resetWith c).Inv where
  configOk := h
  memOk := Memory.wf_nil
  memBelow := by simp [State.resetWith]
  pixelsOk := ⟨.nil, by simp [State.resetWith]⟩
  pixelsBelow := by simp [State.resetWith]
  pcAligned := by
    obtain ⟨-, -, -, -, -, -, -, -, -, hentry⟩ := configOk_iff.1 h
    exact wordAligned_iff.2 hentry
  lrAligned := by
    have hlr : (State.resetWith c).lr = 0 := State.readSpr_resetWith c lrIdx
    rw [hlr]
    decide

/-- Another memory keeps the invariant if it is canonical and within the buffer. -/
theorem State.Inv.setMem {s : State} {m : Memory} (h : s.Inv) (hm : m.wf) (hb : cellsBelow s.config.capacity m) :
    (s.setMem m).Inv :=
  { h with memOk := hm, memBelow := hb }

/-- Settles O16: reset meets the invariant, and an image that fits leaves the empty buffer canonical and within
its size. -/
theorem bootedStatesMeetTheInvariant : Obligations.BootedStatesMeetTheInvariant := by
  intro c image s h
  obtain ⟨hc, hl⟩ := boot_ok_fits h
  obtain rfl := boot_ok h
  have hreset := State.resetWith_inv hc
  have hend : 0 + image.length ≤ c.capacity := by omega
  exact hreset.setMem (Memory.writeBytes_wf hreset.memOk) (Memory.writeBytes_below hreset.memBelow hend)

/-- Settles O15: the reference configuration is admitted and boots the empty image into the reset state, which
so meets the invariant as every booted state does. -/
theorem resetMeetsTheInvariant : Obligations.ResetMeetsTheInvariant := by
  have hboot : boot Config.reference [] = .ok State.reset := rfl
  exact ⟨bootedStatesMeetTheInvariant _ _ _ hboot, hboot⟩

end Sys2Proof.Machine
end

section
/-! The words the spec writes out, run through the decoder (spec/95_test_vectors.md L1, L2). -/

namespace Sys2Proof.Machine

/-- Settles O7: the words are closed, so the decoder's run on each one decides its answer, an instruction or a
named rejection. -/
theorem sampleWordsDecode : Obligations.SampleWordsDecode := by
  unfold Obligations.SampleWordsDecode
  decide

end Sys2Proof.Machine
end
